-- ==== Sys2Proof/Word.lean ====
section
/-! DEFINITION. The word types of the CORE block (spec/00_scope.md R8, R11): every value is unsigned and of fixed width. -/

namespace Sys2Proof

/-- A pixel, one cell of ENC_IN or DEC_OUT: `false` is 0 (black), `true` is 1 (white) (R4). -/
abbrev Bit := Bool

/-- A byte of a stream, or a width or height (R11). -/
abbrev Byte := BitVec 8

/-- A cursor, pointer, length, counter or memory address (R8, R11). -/
abbrev Half := BitVec 16

/-- A host register as the bus carries it (R33). -/
abbrev RegWord := BitVec 32

end Sys2Proof
end

