-- ==== Sys2Proof/Config.lean ====
section
/-! DEFINITION. What the platform fixes and the spec leaves open: the free values and parameters. None has a body that a proof
could see, so a statement that names one holds whatever it is. -/

namespace Sys2Proof.Config

/-- FREE VALUE (U3, U5; log 4): the bit that a host read of a bit cell with no value returns; the argument numbers the draw. -/
opaque freeBit : Nat → Bit

/-- FREE VALUE (U3, U5, R52; log 4, log 5): the byte that a host read of a byte cell with no value returns, or of a byte view
one of whose bits has no value; the argument numbers the draw. -/
opaque freeByte : Nat → Byte

/-- FREE CHOICE (R58, R116; log 3): with no move listed and both engines BUSY, whether DEC moves (else ENC does); the argument
numbers the draw. -/
opaque decMoves : Nat → Bool

/-- PARAMETER (R33, D35, U16; log 14): the bus address of register index 0. No rule reads it. -/
opaque coreRegBase : Nat

/-- The bus address of register index `k` (R33). -/
def regAddress (k : BitVec 4) : Nat := coreRegBase + 4 * k.toNat

end Sys2Proof.Config
end

