-- ==== Sys2Proof/Machine/State.lean ====
section
/-! DEFINITION. The state of the CORE block as plain data (spec/10_state.md, spec/20_memory.md), the ways a step can stop, and the
state after reset (spec/70_reset_and_hazards.md R131). -/

namespace Sys2Proof.Machine

/-- One memory: its cells that hold a value, as (address, value) pairs. A cell that is not listed holds no value (R56). -/
abbrev Memory (α : Type) := List (Nat × α)

/-- The cells of a memory space: 16-bit addresses (R8, R47). -/
def spaceSize : Nat := 65536

/-- The `STATE` field of a STATUS register (R16, R23). -/
inductive EngineStatus where
  /-- 0: after reset, before the first START. -/
  | idle
  /-- 1: an operation is running. -/
  | busy
  /-- 2: the operation ended with its result. -/
  | done
  /-- 3: the operation failed. The encoder never takes it (R16). -/
  | error
deriving DecidableEq, Repr

/-- `DEC_STATUS.PHASE`, the decoder automaton's state while BUSY (R23). -/
inductive Phase where
  /-- 0: expect-token-byte. -/
  | expectToken
  /-- 1: expect-run-continuation-byte. -/
  | expectCont
deriving DecidableEq, Repr

/-- The encoder engine's registers and its two memories (R16 to R22, R47). -/
structure EncState where
  /-- ENC_STATUS.STATE (R16). -/
  status : EngineStatus
  /-- ENC_STATUS.ERRCODE, always 0 (R35). -/
  errcode : BitVec 4
  /-- ENC_DIM.WIDTH (R17). -/
  width : Byte
  /-- ENC_DIM.HEIGHT (R17). -/
  height : Byte
  /-- ENC_CURSOR (R19). -/
  cursor : Half
  /-- ENC_OUTLEN (R20). -/
  outlen : Half
  /-- ENC_CNT_LONG (R21). -/
  cntLong : Half
  /-- ENC_CNT_DUAL (R21). -/
  cntDual : Half
  /-- ENC_CNT_ESC (R21). -/
  cntEsc : Half
  /-- ENC_CNT_VERB (R21). -/
  cntVerb : Half
  /-- ENC_IN (R47). -/
  inMem : Memory Bit
  /-- ENC_OUT (R47). -/
  outMem : Memory Byte
deriving DecidableEq, Repr

/-- The decoder engine's registers and its two memories (R23 to R29, R47). -/
structure DecState where
  /-- DEC_STATUS.STATE (R23). -/
  status : EngineStatus
  /-- DEC_STATUS.PHASE (R23). -/
  phase : Phase
  /-- DEC_STATUS.LATCH (R24). -/
  latch : Byte
  /-- DEC_STATUS.ERRCODE (R29). -/
  errcode : BitVec 4
  /-- DEC_INLEN (R25). -/
  inlen : Half
  /-- DEC_DIM.WIDTH (R26). -/
  width : Byte
  /-- DEC_DIM.HEIGHT (R26). -/
  height : Byte
  /-- DEC_RDPTR (R27). -/
  rdptr : Half
  /-- DEC_CURSOR (R28). -/
  cursor : Half
  /-- DEC_IN (R47). -/
  inMem : Memory Byte
  /-- DEC_OUT (R47). -/
  outMem : Memory Bit
deriving DecidableEq, Repr

/-- The error codes that are ever raised (R120). -/
inductive ErrCode where
  /-- 1, FormatError: fewer than 5 bytes. -/
  | formatShort
  /-- 2, FormatError: another tag. -/
  | formatMagic
  /-- 3, TruncatedStreamError: the input ends before the bitmap does. -/
  | truncated
deriving DecidableEq, Repr

/-- The two engines (R15). -/
inductive Engine where
  | enc
  | dec
deriving DecidableEq, Repr

/-- The bit memories, which the host may also reach through the byte view (R52). -/
inductive BitSpace where
  | encIn
  | decOut
deriving DecidableEq, Repr

/-- The byte memories (R47). -/
inductive ByteSpace where
  | encOut
  | decIn
deriving DecidableEq, Repr

/-- One host access, each one atomic step (R54, R110): a whole 32-bit register by index, one bit, or one byte. Every address
lies in its space: a byte view has 8192 bytes (R52; log 19). -/
inductive HostOp where
  /-- Read register index `k` (R110). -/
  | readReg (k : BitVec 4)
  /-- Write `v` to register index `k` (R110, R111). -/
  | writeReg (k : BitVec 4) (v : RegWord)
  /-- Read one bit of ENC_IN or DEC_OUT (R54). -/
  | readBit (m : BitSpace) (a : Half)
  /-- Write one bit of ENC_IN or DEC_OUT (R54). -/
  | writeBit (m : BitSpace) (a : Half) (b : Bit)
  /-- Read byte `k` of a bit memory's byte view (R52). -/
  | readView (m : BitSpace) (k : BitVec 13)
  /-- Write byte `k` of a bit memory's byte view (R52). -/
  | writeView (m : BitSpace) (k : BitVec 13) (v : Byte)
  /-- Read one byte of ENC_OUT or DEC_IN (R54). -/
  | readByte (m : ByteSpace) (a : Half)
  /-- Write one byte of ENC_OUT or DEC_IN (R54). -/
  | writeByte (m : ByteSpace) (a : Half) (v : Byte)
deriving DecidableEq, Repr

/-- One move of an agent, the unit that executions interleave (R58). -/
inductive Move where
  /-- One host access. -/
  | host (op : HostOp)
  /-- The engine's next step, if it is BUSY (R116). -/
  | engine (e : Engine)
  /-- The platform's reset (R131). -/
  | reset
deriving DecidableEq, Repr

/-- What a host read returns (R54, R110). -/
inductive HostData where
  | word (v : RegWord)
  | byte (v : Byte)
  | bit (b : Bit)
deriving DecidableEq, Repr

/-- The CORE block, and beside it three fields of the model's own: the moves to come, what the host's last read returned, and the
number of free values drawn so far (log 2, log 17, log 4). -/
structure State where
  /-- The encoder engine (R15). -/
  enc : EncState
  /-- The decoder engine (R15). -/
  dec : DecState
  /-- The MODEL's own: the agents' moves to come, in order (R58; log 2). -/
  script : List Move
  /-- The MODEL's own: what the host's last read returned (R110; log 17). -/
  hostRead : Option HostData
  /-- The MODEL's own: how many free values have been drawn (U3; log 4). -/
  draws : Nat
deriving DecidableEq, Repr

/-- Why the machine stops with a fault: only an engine's read of a cell that holds no value (R56, R57, U3). -/
inductive Fault where
  /-- Raised by ENC's token step when the tokenizer reads ENC_IN at an address nothing has written. Safe: the hardware goes on
  with an unknown bit (R56; log 6). -/
  | encInUnwritten (a : Nat)
  /-- Raised by DEC START and DEC's automaton steps when they read DEC_IN at an address nothing has written. Safe: the hardware
  goes on with an unknown byte (R56; log 6). -/
  | decInUnwritten (a : Nat)
deriving DecidableEq, Repr

/-- Why a step has no meaning. -/
inductive Refusal where
  /-- An instruction of the table with no meaning in the model; raised by no arm of `exec` now. Safe: nothing is claimed. -/
  | notModelled (mnemonic : String)
  /-- Raised by a host write to a BUSY engine's own bit memory (R114, U4). Safe: the spec gives no meaning to any later state. -/
  | bitWriteWhileBusy (m : BitSpace)
  /-- Raised by a host write to a BUSY engine's own byte memory (R114, U4). Safe: the spec gives no meaning to any later
  state. -/
  | byteWriteWhileBusy (m : ByteSpace)
deriving DecidableEq, Repr

/-- What one step answers. -/
abbrev Result := Host.Outcome State Fault Refusal

/-- The encoder after reset (R131). -/
def EncState.reset : EncState where
  status := .idle
  errcode := 0#4
  width := 0#8
  height := 0#8
  cursor := 0#16
  outlen := 0#16
  cntLong := 0#16
  cntDual := 0#16
  cntEsc := 0#16
  cntVerb := 0#16
  inMem := []
  outMem := []

/-- The decoder after reset (R131). -/
def DecState.reset : DecState where
  status := .idle
  phase := .expectToken
  latch := 0#8
  errcode := 0#4
  inlen := 0#16
  width := 0#8
  height := 0#8
  rdptr := 0#16
  cursor := 0#16
  inMem := []
  outMem := []

/-- The machine right after reset (R131), with no move listed, nothing read and nothing drawn (log 2, log 17, log 4). -/
def State.reset : State where
  enc := .reset
  dec := .reset
  script := []
  hostRead := none
  draws := 0

/-- The state with another encoder. -/
def State.withEnc (s : State) (e : EncState) : State := { s with enc := e }

/-- The state with another decoder. -/
def State.withDec (s : State) (d : DecState) : State := { s with dec := d }

/-- The state with other moves to come. -/
def State.withScript (s : State) (ms : List Move) : State := { s with script := ms }

/-- The state after a host read that returned `v`. -/
def State.withHostRead (s : State) (v : HostData) : State := { s with hostRead := some v }

/-- The state after one free value has been drawn. -/
def State.drawn (s : State) : State := { s with draws := s.draws + 1 }

end Sys2Proof.Machine
end

