-- ==== Sys2Proof/Machine/Ops.lean ====
section
/-! DEFINITION. The operations every step is made of: the memories (spec/20_memory.md), packing (R50), the encoder's byte sink (R92),
the decoder's clamped bit writer (R99), and raising an error (R122), which has no return beside it (R125). -/

namespace Sys2Proof.Machine

/-- The value of a cell, or `none` where nothing has been written since reset (R56). -/
def Memory.read {α : Type} : Memory α → Nat → Option α
  | [], _ => none
  | (k, x) :: m, a => if a = k then some x else Memory.read m a

/-- One cell written; the cells stay in rising order of address. -/
def Memory.write {α : Type} : Memory α → Nat → α → Memory α
  | [], a, v => [(a, v)]
  | (k, x) :: m, a, v =>
    if a < k then (a, v) :: (k, x) :: m
    else if a = k then (a, v) :: m
    else (k, x) :: Memory.write m a v

/-- Consecutive cells from `a` on: their values, or the first address that holds none (R12, `Bits`). -/
def Memory.readList {α : Type} (m : Memory α) : Nat → Nat → Except Nat (List α)
  | _, 0 => .ok []
  | a, k + 1 =>
    match Memory.read m a with
    | none => .error a
    | some x =>
      match Memory.readList m (a + 1) k with
      | .error b => .error b
      | .ok xs => .ok (x :: xs)

/-- Consecutive cells from `a` on written, in order. -/
def Memory.writeList {α : Type} : Memory α → Nat → List α → Memory α
  | m, _, [] => m
  | m, a, v :: vs => Memory.writeList (Memory.write m a v) (a + 1) vs

/-- Every address lies in the space and comes after the ones before it, from `low` on. -/
def Memory.risingFrom {α : Type} : Nat → Memory α → Bool
  | _, [] => true
  | low, (k, _) :: m => decide (low ≤ k) && decide (k < spaceSize) && Memory.risingFrom (k + 1) m

/-- The canonical form: addresses strictly rising and inside the space (R47). No entry can equal what an unlisted address reads
as, since that is no value. -/
def Memory.wf {α : Type} (m : Memory α) : Bool := Memory.risingFrom 0 m

/-- The sum of `pack` with the first bit at weight `2 ^ t` (R50). -/
def packFrom : Nat → List Bit → Nat
  | _, [] => 0
  | 0, b :: _ => b.toNat
  | t + 1, b :: bs => b.toNat * 2 ^ (t + 1) + packFrom t bs

/-- At most 8 bits as a byte, the earliest at bit 7, pad bits 0 (R50, D7). -/
def pack (bs : List Bit) : Byte := BitVec.ofNat 8 (packFrom 7 bs)

/-- A byte's 8 bits, bit 7 first (R50). -/
def unpack (v : Byte) : List Bit :=
  [v.getLsbD 7, v.getLsbD 6, v.getLsbD 5, v.getLsbD 4, v.getLsbD 3, v.getLsbD 2, v.getLsbD 1, v.getLsbD 0]

/-- ENC_N, the bits the encoder consumes: the exact product, at most 65025 (R18). -/
def EncState.n (e : EncState) : Nat := e.width.toNat * e.height.toNat

/-- DEC_N, the bits the decoder produces: the exact product, at most 65025 (R26). -/
def DecState.n (d : DecState) : Nat := d.width.toNat * d.height.toNat

/-- `emit(v)` (R92). -/
def EncState.emit (v : Byte) (e : EncState) : EncState :=
  { e with outMem := Memory.write e.outMem e.outlen.toNat v, outlen := e.outlen + 1#16 }

/-- Several bytes emitted in order (R94). -/
def EncState.emitAll : List Byte → EncState → EncState
  | [], e => e
  | v :: vs, e => EncState.emitAll vs (e.emit v)

/-- How many of `k` bits still fit: `min(k, N - DEC_CURSOR)` (R99). -/
def DecState.room (k : Nat) (d : DecState) : Nat := min k (d.n - d.cursor.toNat)

/-- `put(b, k)`, the clamped bit writer (R99). -/
def DecState.put (b : Bit) (k : Nat) (d : DecState) : DecState :=
  { d with
    outMem := Memory.writeList d.outMem d.cursor.toNat (List.replicate (d.room k) b)
    cursor := d.cursor + BitVec.ofNat 16 (d.room k) }

/-- Single bits put one after the other (R102, R105). -/
def DecState.putBits : List Bit → DecState → DecState
  | [], d => d
  | b :: bs, d => DecState.putBits bs (d.put b 1)

/-- A byte consumed: `DEC_RDPTR <- DEC_RDPTR + 1` (R27, R100, R101). -/
def DecState.consume (d : DecState) : DecState := { d with rdptr := d.rdptr + 1#16 }

/-- A marker byte consumed: latched, and the continuation expected (R24, R100). -/
def DecState.latchMarker (a : Byte) (d : DecState) : DecState := { d.consume with latch := a, phase := .expectCont }

/-- A continuation byte consumed: a token byte is expected next; LATCH stays (R101). -/
def DecState.consumeCont (d : DecState) : DecState := { d.consume with phase := .expectToken }

/-- What DEC START clears before it looks at the stream (R97). -/
def DecState.cleared (d : DecState) : DecState :=
  { d with
    rdptr := 0#16, cursor := 0#16, width := 0#8, height := 0#8
    phase := .expectToken, latch := 0#8, errcode := 0#4 }

/-- The number of an error code (R120). -/
def ErrCode.bits : ErrCode → BitVec 4
  | .formatShort => 1#4
  | .formatMagic => 2#4
  | .truncated => 3#4

/-- `raise Err(code)`, the one way an error is entered: STATE and ERRCODE change, and every DEC_OUT bit then holds no value
(R122, R123, U5; log 7). There is no handler, saved register or return (R122, R125). -/
def DecState.raise (c : ErrCode) (d : DecState) : DecState :=
  { d with status := .error, errcode := c.bits, outMem := [] }

end Sys2Proof.Machine
end

