-- ==== Sys2Proof/Machine/Flags.lean ====
section
/-! DEFINITION. The status fields, the block's only flags (spec/10_state.md R32): their numbers (R16, R23), when an operation
enters DONE (R95, R106), and the STATUS registers as words (R35, R41). -/

namespace Sys2Proof.Machine

/-- The STATE field (R16). -/
def EngineStatus.bits : EngineStatus → BitVec 2
  | .idle => 0#2
  | .busy => 1#2
  | .done => 2#2
  | .error => 3#2

/-- The PHASE field (R23). -/
def Phase.bits : Phase → BitVec 1
  | .expectToken => 0#1
  | .expectCont => 1#1

/-- ENC_STATUS (R35). -/
def EncState.statusWord (e : EncState) : RegWord := 0#24 ++ e.errcode ++ 0#2 ++ e.status.bits

/-- DEC_STATUS (R41). -/
def DecState.statusWord (d : DecState) : RegWord :=
  0#16 ++ d.latch ++ d.errcode ++ 0#1 ++ d.phase.bits ++ d.status.bits

/-- The end of ENC START: DONE at once when there is no bit to encode (R90, R95). -/
def EncState.begin (e : EncState) : EncState := { e with errcode := 0#4, status := if e.n = 0 then .done else .busy }

/-- The end of a token step: DONE when the cursor reaches ENC_N (R94, R95). -/
def EncState.finish (e : EncState) : EncState := if e.cursor.toNat = e.n then { e with status := .done } else e

/-- The end of DEC START: DONE at once when there is no bit to decode (R97, R98). -/
def DecState.begin (d : DecState) : DecState := { d with status := if d.n = 0 then .done else .busy }

/-- The end of a step that completes a token: DONE when the cursor reaches DEC_N (R100, R101, R106). -/
def DecState.finish (d : DecState) : DecState := if d.cursor.toNat = d.n then { d with status := .done } else d

end Sys2Proof.Machine
end

