-- ==== Sys2Proof/Syntax.lean ====
section
/-! DEFINITION. The rows of spec/opcode_table.json: the stream header and the seven token rows (spec/30_encoding.md R64 to R73).
An operand is the field the encoding holds; the run lengths it stands for are in Machine/Operands.lean (R72). -/

namespace Sys2Proof

/-- One constructor per row of spec/opcode_table.json. The token type of R14 is every constructor but `header`. -/
inductive Instr where
  /-- Header: the tag "FC0", then the width and height bytes (R65). Parsed once, by DEC START; never a token (R73). -/
  | header (width height : Byte)
  /-- Escape(0xC3): the 8 literal bits 11000011 (R70). -/
  | escapeC3
  /-- Escape(0x3D): the 8 literal bits 00111101 (R70). -/
  | escape3D
  /-- Escape(0x65): the 8 literal bits 01100101 (R70). -/
  | escape65
  /-- LongRun: a run of `bit`, `len7 + 16` long (R68). -/
  | longRun (bit : Bit) (len7 : BitVec 7)
  /-- DualRun(1): a run of 1s, `len1m1 + 1` long, then of 0s, `len2m1 + 1` long (R69). -/
  | dualRun1 (len1m1 len2m1 : BitVec 4)
  /-- DualRun(0): a run of 0s, `len1m1 + 1` long, then of 1s, `len2m1 + 1` long (R69). -/
  | dualRun0 (len1m1 len2m1 : BitVec 4)
  /-- Verbatim: 8 pixels, bit 7 the earliest (R67). -/
  | verbatim (byte : Byte)
deriving DecidableEq, Repr

end Sys2Proof
end

