-- ==== Sys2Proof/WellFormed.lean ====
section
/-! DEFINITION. Which instructions have an encoding of their own: the constraints of the formats V, L and D (R67, R68, R69), and
which tokens the encoder emits (R76). -/

namespace Sys2Proof

/-- The three marker bytes (R7, R66): as a first byte each introduces a 2-byte token. -/
def isMarker (a : Byte) : Bool := a == 0xC3#8 || a == 0x3D#8 || a == 0x65#8

/-- The format's constraint: a run's second byte is not 0x00 (that is an escape, R68, R69), and a verbatim byte is no marker
(R67). -/
def Instr.wf : Instr → Bool
  | .header _ _ => true
  | .escapeC3 => true
  | .escape3D => true
  | .escape65 => true
  | .longRun bit len7 => bit || len7 != 0#7
  | .dualRun1 l1 l2 => l1 != 0#4 || l2 != 0#4
  | .dualRun0 l1 l2 => l1 != 0#4 || l2 != 0#4
  | .verbatim byte => !isMarker byte

/-- Is this one of the seven token rows (R14)? The header is not a token (R73). -/
def Instr.isToken : Instr → Bool
  | .header _ _ => false
  | .escapeC3 => true
  | .escape3D => true
  | .escape65 => true
  | .longRun _ _ => true
  | .dualRun1 _ _ => true
  | .dualRun0 _ _ => true
  | .verbatim _ => true

/-- The canonical tokens of R76, those the encoder may emit: a long run of 17 or more, a dual run whose first run is 2 or more
and whose two runs together are 17 or more; every escape and every verbatim byte. -/
def Instr.canonical : Instr → Bool
  | .header _ _ => true
  | .escapeC3 => true
  | .escape3D => true
  | .escape65 => true
  | .longRun _ len7 => len7 != 0#7
  | .dualRun1 l1 l2 => l1 != 0#4 && decide (15 ≤ l1.toNat + l2.toNat)
  | .dualRun0 l1 l2 => l1 != 0#4 && decide (15 ≤ l1.toNat + l2.toNat)
  | .verbatim byte => !isMarker byte

end Sys2Proof
end

