-- ==== Sys2Proof/Decode.lean ====
section
/-! DEFINITION. The decoder and encoder of the stream's formats (spec/30_encoding.md R64 to R73): bytes to instructions, total on
any bytes, and back. -/

namespace Sys2Proof

/-- Why bytes hold no instruction. No byte sequence is an illegal encoding (R76): a header can be cut or carry another tag, and
a token can only be cut. -/
inductive DecodeError where
  /-- Fewer than the 5 bytes of a header (R97, FORMAT_SHORT). -/
  | headerShort
  /-- The first three bytes are not the tag "FC0" (R97, FORMAT_MAGIC). -/
  | headerMagic
  /-- No byte where a token is expected (R100). -/
  | tokenEmpty
  /-- A marker byte with no second byte after it (R101). -/
  | tokenCut
deriving DecidableEq, Repr

/-- Where in a stream an instruction stands: a header stands only at stream addresses 0 to 4, a token only after it (R64, R73). -/
inductive StreamPos where
  | start
  | token
deriving DecidableEq, Repr

/-- What decoding gives: an instruction with the bytes after it, or the reason there is none. -/
abbrev Decoded := Except DecodeError (Instr × List Byte)

/-- The 3-byte tag "FC0", compared as a whole (R66; the ASCII values: log 16). -/
def headerTag : List Byte := [0x46#8, 0x43#8, 0x30#8]

/-- The header format (R65), length first and then the tag (R124). -/
def decodeHeader : List Byte → Decoded
  | t0 :: t1 :: t2 :: w :: h :: rest =>
    if [t0, t1, t2] = headerTag then .ok (.header w h, rest) else .error .headerMagic
  | _ => .error .headerShort

/-- Rows 1 and 4 of the map: 0xC3 with `B = 0` is the escape, any other `B` a long run (R68, R70, R73). -/
def decodeAfterC3 (b : Byte) : Instr :=
  if b = 0x00#8 then .escapeC3 else .longRun (b.getLsbD 7) (b.extractLsb' 0 7)

/-- Rows 2 and 5 of the map (R69, R70, R73). -/
def decodeAfter3D (b : Byte) : Instr :=
  if b = 0x00#8 then .escape3D else .dualRun1 (b.extractLsb' 4 4) (b.extractLsb' 0 4)

/-- Rows 3 and 6 of the map (R69, R70, R73). -/
def decodeAfter65 (b : Byte) : Instr :=
  if b = 0x00#8 then .escape65 else .dualRun0 (b.extractLsb' 4 4) (b.extractLsb' 0 4)

/-- The 2-byte rows of the map, for a marker `a` and its second byte `b` (R71, R73). -/
def decodePair (a b : Byte) : Instr :=
  if a = 0xC3#8 then decodeAfterC3 b else if a = 0x3D#8 then decodeAfter3D b else decodeAfter65 b

/-- One token: the first byte alone sets its length (R71), a second byte is always data (R74). -/
def decodeToken : List Byte → Decoded
  | [] => .error .tokenEmpty
  | a :: rest =>
    if isMarker a then
      match rest with
      | [] => .error .tokenCut
      | b :: rest' => .ok (decodePair a b, rest')
    else .ok (.verbatim a, rest)

/-- The instruction at a position of the stream. -/
def decodeAt : StreamPos → List Byte → Decoded
  | .start, bytes => decodeHeader bytes
  | .token, bytes => decodeToken bytes

/-- Where an instruction stands (R73: the header is not a token). -/
def Instr.pos (i : Instr) : StreamPos := if i.isToken then .token else .start

/-- The bytes of an instruction in stream order (R65, R67 to R70, R72); for the tokens this is `serialise` of R93. -/
def encode : Instr → List Byte
  | .header w h => headerTag ++ [w, h]
  | .escapeC3 => [0xC3#8, 0x00#8]
  | .escape3D => [0x3D#8, 0x00#8]
  | .escape65 => [0x65#8, 0x00#8]
  | .longRun bit len7 => [0xC3#8, BitVec.ofBool bit ++ len7]
  | .dualRun1 l1 l2 => [0x3D#8, l1 ++ l2]
  | .dualRun0 l1 l2 => [0x65#8, l1 ++ l2]
  | .verbatim byte => [byte]

/-- How many bytes an instruction has (R64, R71). -/
def Instr.length : Instr → Nat
  | .header _ _ => 5
  | .escapeC3 => 2
  | .escape3D => 2
  | .escape65 => 2
  | .longRun _ _ => 2
  | .dualRun1 _ _ => 2
  | .dualRun0 _ _ => 2
  | .verbatim _ => 1

/-- The `k` bytes of a table word in stream order: spec/opcode_table.json puts the first byte in the most significant bits
("A*256 + B, with A in bits [15:8]", R73; "byte 0 in bits 39:32"; log 10). -/
def tableBytes : Nat → Nat → List Byte
  | 0, _ => []
  | k + 1, w => BitVec.ofNat 8 (w / 2 ^ (8 * k)) :: tableBytes k w

/-- The position a table row stands at: its only row longer than two bytes is the header (log 10). -/
def tablePos (nbits : Nat) : StreamPos := if nbits ≤ 16 then .token else .start

/-- The bytes of an opcode-table word in stream order, with zeros after it up to the longest instruction (log 10). -/
def tableStream (nbits w : Nat) : List Byte := tableBytes ((nbits + 7) / 8) w ++ [0#8, 0#8, 0#8, 0#8]

/-- The instruction the decoder reads from an opcode-table word of `nbits` bits (log 10). -/
def decodeTableWord (nbits w : Nat) : Option Instr :=
  match decodeAt (tablePos nbits) (tableStream nbits w) with
  | .ok (i, _) => some i
  | .error _ => none

end Sys2Proof
end

