-- ==== Sys2Proof/Machine/Operands.lean ====
section
/-! DEFINITION. Operand assembly (spec/30_encoding.md R72): the run lengths the fields stand for, and the fields the encoder makes
of run lengths. Everything is zero-extended and unsigned. -/

namespace Sys2Proof.Machine

/-- A long run's length, `B[6:0] + 16` (R72, R103). -/
def longLen (len7 : BitVec 7) : Nat := len7.toNat + 16

/-- A dual run's length, its nibble + 1 (R72, R104). -/
def dualLen (nibble : BitVec 4) : Nat := nibble.toNat + 1

/-- The long-run token of a run of `b`, `j` long (R81; `& 0x7F` never changes the value, R72). -/
def longToken (b : Bit) (j : Nat) : Instr := .longRun b (BitVec.ofNat 7 (j - 16))

/-- The dual-run token of a run of `b`, `j` long, and one of the other bit, `j2` long (R82): 0x3D starts with 1, 0x65 with 0. -/
def dualToken (b : Bit) (j j2 : Nat) : Instr :=
  if b then .dualRun1 (BitVec.ofNat 4 (j - 1)) (BitVec.ofNat 4 (j2 - 1))
  else .dualRun0 (BitVec.ofNat 4 (j - 1)) (BitVec.ofNat 4 (j2 - 1))

/-- The escape token of a packed byte, where it is a reserved pattern (R83, C1: the lead byte is the pattern itself). -/
def escapeToken (p : Byte) : Option Instr :=
  if p = 0xC3#8 then some .escapeC3
  else if p = 0x3D#8 then some .escape3D
  else if p = 0x65#8 then some .escape65
  else none

/-- The bits a token stands for before the clamp, earliest first (R71, R72, R102 to R105). A header stands for none. -/
def tokenBits : Instr → List Bit
  | .header _ _ => []
  | .escapeC3 => unpack 0xC3#8
  | .escape3D => unpack 0x3D#8
  | .escape65 => unpack 0x65#8
  | .longRun bit len7 => List.replicate (longLen len7) bit
  | .dualRun1 l1 l2 => List.replicate (dualLen l1) true ++ List.replicate (dualLen l2) false
  | .dualRun0 l1 l2 => List.replicate (dualLen l1) false ++ List.replicate (dualLen l2) true
  | .verbatim byte => unpack byte

/-- A byte as two hexadecimal digits after `0x` (R10, R78). -/
def hexText (v : Byte) : String :=
  ("0x".push (Nat.digitChar (v.toNat / 16)).toUpper).push (Nat.digitChar (v.toNat % 16)).toUpper

/-- Operands in decimal, between parentheses (R78). -/
def operandText : List Nat → String
  | [] => ""
  | [x] => Nat.repr x
  | x :: xs => Nat.repr x ++ ", " ++ operandText xs

/-- An instruction in the spec's textual syntax (R78). -/
def instrText : Instr → String
  | .header w h => "Header(" ++ operandText [w.toNat, h.toNat] ++ ")"
  | .escapeC3 => "Escape(" ++ hexText 0xC3#8 ++ ")"
  | .escape3D => "Escape(" ++ hexText 0x3D#8 ++ ")"
  | .escape65 => "Escape(" ++ hexText 0x65#8 ++ ")"
  | .longRun bit len7 => "LongRun(" ++ operandText [bit.toNat, longLen len7] ++ ")"
  | .dualRun1 l1 l2 => "DualRun(" ++ operandText [1, dualLen l1, dualLen l2] ++ ")"
  | .dualRun0 l1 l2 => "DualRun(" ++ operandText [0, dualLen l1, dualLen l2] ++ ")"
  | .verbatim byte => "Verbatim(" ++ hexText byte ++ ")"

end Sys2Proof.Machine
end

