-- ==== Sys2Proof/Machine/Header.lean ====
section
/-! DEFINITION. The meaning of the stream header: DEC START once the length and tag checks have passed (spec/42_decoder.md R97, R98). -/

namespace Sys2Proof.Machine

/-- DEC START on a valid header (R97): everything cleared, the dimensions taken, RDPTR past the header, then BUSY, or DONE if
either dimension is 0 (R98). -/
def DecState.accept (w h : Byte) (d : DecState) : DecState :=
  { d.cleared with width := w, height := h, rdptr := 5#16 }.begin

/-- Header (R97, R98). -/
def execHeader (width height : Byte) (s : State) : Result := .next (s.withDec (s.dec.accept width height))

end Sys2Proof.Machine
end

