-- ==== Sys2Proof/Machine/Token.lean ====
section
/-! DEFINITION. The meanings of the seven token rows (spec/42_decoder.md R102 to R105): each is the automaton step that consumes the
token's last byte (R100, R101), writes its bits through the clamped writer (R99) and completes the decode if it fills the bitmap
(R106). The marker byte of a 2-byte token has been latched by the step before (R100; log 1). -/

namespace Sys2Proof.Machine

/-- `decode_verbatim` and `decode_escape`: the 8 bits of a byte, bit 7 first (R102, R105). -/
def DecState.putByte (v : Byte) (d : DecState) : DecState := DecState.putBits (unpack v) d

/-- `decode_dual`: `n1` times `b`, then `n2` times the other bit, each clamped (R104). -/
def DecState.putDual (b : Bit) (n1 n2 : Nat) (d : DecState) : DecState := (d.put b n1).put (!b) n2

/-- Escape(0xC3) (R105): 11000011. -/
def execEscapeC3 (s : State) : Result := .next (s.withDec (s.dec.consumeCont.putByte 0xC3#8).finish)

/-- Escape(0x3D) (R105): 00111101. -/
def execEscape3D (s : State) : Result := .next (s.withDec (s.dec.consumeCont.putByte 0x3D#8).finish)

/-- Escape(0x65) (R105): 01100101. -/
def execEscape65 (s : State) : Result := .next (s.withDec (s.dec.consumeCont.putByte 0x65#8).finish)

/-- LongRun (R103): `bit`, `B[6:0] + 16` times. -/
def execLongRun (bit : Bit) (len7 : BitVec 7) (s : State) : Result :=
  .next (s.withDec (s.dec.consumeCont.put bit (longLen len7)).finish)

/-- DualRun(1) (R104): 1s, then 0s. -/
def execDualRun1 (len1m1 len2m1 : BitVec 4) (s : State) : Result :=
  .next (s.withDec (s.dec.consumeCont.putDual true (dualLen len1m1) (dualLen len2m1)).finish)

/-- DualRun(0) (R104): 0s, then 1s. -/
def execDualRun0 (len1m1 len2m1 : BitVec 4) (s : State) : Result :=
  .next (s.withDec (s.dec.consumeCont.putDual false (dualLen len1m1) (dualLen len2m1)).finish)

/-- Verbatim (R102): the byte's 8 bits. It is read in phase expect-token-byte, which stays (R100). -/
def execVerbatim (byte : Byte) (s : State) : Result := .next (s.withDec (s.dec.consume.putByte byte).finish)

end Sys2Proof.Machine
end

