-- ==== Sys2Proof/Machine/Dispatch.lean ====
section
/-! DEFINITION. One arm per row of spec/opcode_table.json. `exec i` is the whole engine step that `i` completes: DEC START for the
header, the automaton step on the token's last byte for a token (log 1). The step that calls it is Machine/Decoder.lean's. -/

namespace Sys2Proof.Machine

def exec (i : Instr) (s : State) : Host.Outcome State Fault Refusal :=
  match i with
  | .header width height => Sys2Proof.Machine.execHeader width height s
  | .escapeC3 => Sys2Proof.Machine.execEscapeC3 s
  | .escape3D => Sys2Proof.Machine.execEscape3D s
  | .escape65 => Sys2Proof.Machine.execEscape65 s
  | .longRun bit len7 => Sys2Proof.Machine.execLongRun bit len7 s
  | .dualRun1 len1m1 len2m1 => Sys2Proof.Machine.execDualRun1 len1m1 len2m1 s
  | .dualRun0 len1m1 len2m1 => Sys2Proof.Machine.execDualRun0 len1m1 len2m1 s
  | .verbatim byte => Sys2Proof.Machine.execVerbatim byte s

end Sys2Proof.Machine
end

