-- ==== Sys2Proof/Machine/Decoder.lean ====
section
/-! DEFINITION. The decoder engine (spec/42_decoder.md): its START step and its automaton step, which read DEC_IN, decode, and run
the decoded instruction by `exec`. -/

namespace Sys2Proof.Machine

/-- DEC START ended by an error: only what was cleared before the `raise` has changed (R97, R122). -/
def decStartFails (c : ErrCode) (s : State) : Result := .next (s.withDec (s.dec.cleared.raise c))

/-- DEC START once the tag is known to match: the dimension bytes are read and the header run (R97). -/
def decStartDims (tag : List Byte) (s : State) : Result :=
  match Memory.readList s.dec.inMem 3 2 with
  | .error a => .fault (.decInUnwritten a)
  | .ok dims =>
    match decodeHeader (tag ++ dims) with
    | .ok (i, _) => exec i s
    | .error _ => decStartFails .formatMagic s

/-- DEC START (R97): the length check, then the tag check (R124), then the header. -/
def decStart (s : State) : Result :=
  if s.dec.inlen.toNat < 5 then decStartFails .formatShort s
  else
    match Memory.readList s.dec.inMem 0 3 with
    | .error a => .fault (.decInUnwritten a)
    | .ok tag => if tag = headerTag then decStartDims tag s else decStartFails .formatMagic s

/-- The bytes of the token under way once `x` has been read: in phase expect-run-continuation-byte the latched marker stands
before it (R100, R101). -/
def DecState.tokenBytes (d : DecState) (x : Byte) : List Byte :=
  match d.phase with
  | .expectToken => [x]
  | .expectCont => [d.latch, x]

/-- The automaton step once its byte `x` has been read (R100, R101): a whole token is run; a marker byte alone is latched.
(A LATCH that is no marker in phase expect-run-continuation-byte: no run reaches it, log 12.) -/
def decByte (x : Byte) (s : State) : Result :=
  match decodeToken (s.dec.tokenBytes x) with
  | .ok (i, _) => exec i s
  | .error _ => .next (s.withDec (s.dec.latchMarker x))

/-- The automaton step (R100, R101, R107): TRUNCATED when no input remains, else one byte read. -/
def decStep (s : State) : Result :=
  if s.dec.rdptr = s.dec.inlen then .next (s.withDec (s.dec.raise .truncated))
  else
    match Memory.read s.dec.inMem s.dec.rdptr.toNat with
    | none => .fault (.decInUnwritten s.dec.rdptr.toNat)
    | some x => decByte x s

end Sys2Proof.Machine
end

