-- ==== Sys2Proof/Machine/Tokenizer.lean ====
section
/-! DEFINITION. The bit-stream tokenizer with the encode side of the escape-collision resolver (spec/40_tokenizer.md): a function of
ENC_IN, ENC_N and the cursor, which writes nothing. It can only stop on a cell with no value (R56, R80). -/

namespace Sys2Proof.Machine

/-- `bit(i)`: one bit of ENC_IN (R56: no value is a fault). -/
def encInBit (m : Memory Bit) (i : Nat) : Except Fault Bit :=
  match Memory.read m i with
  | some b => .ok b
  | none => .error (.encInUnwritten i)

/-- `Bits(ENC_IN, a, k)` (R12). -/
def encInBits (m : Memory Bit) (a k : Nat) : Except Fault (List Bit) :=
  match Memory.readList m a k with
  | .ok bs => .ok bs
  | .error i => .error (.encInUnwritten i)

/-- `run(v, p, cap)` (R79): the run of `v` from `p`, capped at `cap` and at the end of the bitmap; the last argument is `cap`. -/
def runScan (m : Memory Bit) (n : Nat) (v : Bit) : Nat → Nat → Except Fault Nat
  | _, 0 => .ok 0
  | p, cap + 1 =>
    if p < n then
      match encInBit m p with
      | .error f => .error f
      | .ok b =>
        if b = v then
          match runScan m n v (p + 1) cap with
          | .error f => .error f
          | .ok k => .ok (k + 1)
        else .ok 0
    else .ok 0

/-- Branch 2 (R82), where the first run is `j` long: the dual-run token if it fires. -/
def tryDual (m : Memory Bit) (n c : Nat) (b : Bit) (j : Nat) : Except Fault (Option (Instr × Nat)) :=
  if 1 < j then
    match runScan m n (!b) (c + j) 16 with
    | .error f => .error f
    | .ok j2 => if 16 < j + j2 then .ok (some (dualToken b j j2, j + j2)) else .ok none
  else .ok none

/-- Branch 3 (R83): the escape token if at least 8 bits remain and they are a reserved pattern. -/
def tryEscape (m : Memory Bit) (n c : Nat) : Except Fault (Option (Instr × Nat)) :=
  if 8 ≤ n - c then
    match encInBits m c 8 with
    | .error f => .error f
    | .ok bs =>
      match escapeToken (pack bs) with
      | some i => .ok (some (i, 8))
      | none => .ok none
  else .ok none

/-- Branch 4 (R84): up to 8 bits packed, pad bits 0. -/
def verbatimRest (m : Memory Bit) (n c : Nat) : Except Fault (Instr × Nat) :=
  match encInBits m c (min 8 (n - c)) with
  | .error f => .error f
  | .ok bs => .ok (.verbatim (pack bs), min 8 (n - c))

/-- Branches 3 and 4, tried when no run branch fired (R80). -/
def tokenizeLiteral (m : Memory Bit) (n c : Nat) : Except Fault (Instr × Nat) :=
  match tryEscape m n c with
  | .error f => .error f
  | .ok (some r) => .ok r
  | .ok none => verbatimRest m n c

/-- Branches 1 to 4 in their fixed order, where the bit at the cursor is `b` and its run `j` long (R80, R81, R136). -/
def tokenizeRun (m : Memory Bit) (n c : Nat) (b : Bit) (j : Nat) : Except Fault (Instr × Nat) :=
  if 17 ≤ j then .ok (longToken b j, j)
  else
    match tryDual m n c b j with
    | .error f => .error f
    | .ok (some r) => .ok r
    | .ok none => tokenizeLiteral m n c

/-- `tokenize(c)` (R80): the token at the cursor and the number of bits it consumes. -/
def tokenize (m : Memory Bit) (n c : Nat) : Except Fault (Instr × Nat) :=
  match encInBit m c with
  | .error f => .error f
  | .ok b =>
    match runScan m n b c 143 with
    | .error f => .error f
    | .ok j => tokenizeRun m n c b j

end Sys2Proof.Machine
end

