-- ==== Sys2Proof/Machine/Encoder.lean ====
section
/-! DEFINITION. The encoder engine (spec/41_encoder.md): its START step and its token step. It raises no error (R121). -/

namespace Sys2Proof.Machine

/-- What ENC START clears before it emits the header (R90). -/
def EncState.cleared (e : EncState) : EncState :=
  { e with cntLong := 0#16, cntDual := 0#16, cntEsc := 0#16, cntVerb := 0#16, cursor := 0#16, outlen := 0#16 }

/-- ENC START (R90, R91): cleared, the header emitted, then BUSY, or DONE if there is no bit to encode. -/
def EncState.start (e : EncState) : EncState :=
  (EncState.emitAll (encode (.header e.width e.height)) e.cleared).begin

/-- The counter of the branch that fired, incremented (R21, R93). The tokenizer never returns a header. -/
def EncState.count (i : Instr) (e : EncState) : EncState :=
  match i with
  | .header _ _ => e
  | .escapeC3 => { e with cntEsc := e.cntEsc + 1#16 }
  | .escape3D => { e with cntEsc := e.cntEsc + 1#16 }
  | .escape65 => { e with cntEsc := e.cntEsc + 1#16 }
  | .longRun _ _ => { e with cntLong := e.cntLong + 1#16 }
  | .dualRun1 _ _ => { e with cntDual := e.cntDual + 1#16 }
  | .dualRun0 _ _ => { e with cntDual := e.cntDual + 1#16 }
  | .verbatim _ => { e with cntVerb := e.cntVerb + 1#16 }

/-- The cursor moved past the consumed bits (R19, R94). -/
def EncState.advance (k : Nat) (e : EncState) : EncState := { e with cursor := e.cursor + BitVec.ofNat 16 k }

/-- A token emitted, counted and consumed (R94). -/
def EncState.put (i : Instr) (k : Nat) (e : EncState) : EncState :=
  (((EncState.emitAll (encode i) e).count i).advance k).finish

/-- The token step (R94) on the encoder's own state; enabled while BUSY. -/
def EncState.tokenStep (e : EncState) : Except Fault EncState :=
  match tokenize e.inMem e.n e.cursor.toNat with
  | .error f => .error f
  | .ok (i, k) => .ok (e.put i k)

/-- The token step as a step of the machine: ENC's state alone changes (R15). -/
def encStep (s : State) : Result :=
  match s.enc.tokenStep with
  | .error f => .fault f
  | .ok e => .next (s.withEnc e)

end Sys2Proof.Machine
end

