-- ==== Sys2Proof/Machine/HostPort.lean ====
section
/-! DEFINITION. The host interface (spec/44_host_interface.md, spec/10_state.md R33 to R46): register reads and writes by index, the two
START commands, and the memory accesses. -/

namespace Sys2Proof.Machine

/-- A 16-bit register's word: the field in [15:0], the rest reserved (R33). -/
def halfWord (v : Half) : RegWord := 0#16 ++ v

/-- A dimension register's word: WIDTH [7:0], HEIGHT [15:8] (R36, R43). -/
def dimWord (width height : Byte) : RegWord := 0#16 ++ height ++ width

/-- What a read of register index `k` returns; it has no side effect (R33 to R46, R110). The CTRL registers and index 15 read 0. -/
def regRead (k : BitVec 4) (s : State) : RegWord :=
  match k.toNat with
  | 1 => s.enc.statusWord
  | 2 => dimWord s.enc.width s.enc.height
  | 3 => halfWord s.enc.cursor
  | 4 => halfWord s.enc.outlen
  | 5 => halfWord s.enc.cntLong
  | 6 => halfWord s.enc.cntDual
  | 7 => halfWord s.enc.cntEsc
  | 8 => halfWord s.enc.cntVerb
  | 10 => s.dec.statusWord
  | 11 => halfWord s.dec.inlen
  | 12 => dimWord s.dec.width s.dec.height
  | 13 => halfWord s.dec.rdptr
  | 14 => halfWord s.dec.cursor
  | _ => 0#32

/-- A write to ENC_CTRL: bit 0 starts the encoder, unless it is BUSY (R34, R112). -/
def writeEncCtrl (v : RegWord) (s : State) : Result :=
  if v.getLsbD 0 = true ∧ s.enc.status ≠ .busy then .next (s.withEnc s.enc.start) else .next s

/-- A write to ENC_DIM, ignored while ENC is BUSY (R36, R113). -/
def writeEncDim (v : RegWord) (s : State) : Result :=
  if s.enc.status = .busy then .next s
  else .next (s.withEnc { s.enc with width := v.extractLsb' 0 8, height := v.extractLsb' 8 8 })

/-- A write to DEC_CTRL: bit 0 starts the decoder, unless it is BUSY (R40, R112). -/
def writeDecCtrl (v : RegWord) (s : State) : Result :=
  if v.getLsbD 0 = true ∧ s.dec.status ≠ .busy then decStart s else .next s

/-- A write to DEC_INLEN, ignored while DEC is BUSY (R42, R113). -/
def writeDecInlen (v : RegWord) (s : State) : Result :=
  if s.dec.status = .busy then .next s
  else .next (s.withDec { s.dec with inlen := v.extractLsb' 0 16 })

/-- A write to register index `k`: the two commands and the two writable registers; every other index is read-only or reserved
and ignores the write whole (R33, R46). -/
def regWrite (k : BitVec 4) (v : RegWord) (s : State) : Result :=
  match k.toNat with
  | 0 => writeEncCtrl v s
  | 2 => writeEncDim v s
  | 9 => writeDecCtrl v s
  | 11 => writeDecInlen v s
  | _ => .next s

/-- The contents of a bit memory (R47). -/
def State.bitMem (s : State) : BitSpace → Memory Bit
  | .encIn => s.enc.inMem
  | .decOut => s.dec.outMem

/-- The contents of a byte memory (R47). -/
def State.byteMem (s : State) : ByteSpace → Memory Byte
  | .encOut => s.enc.outMem
  | .decIn => s.dec.inMem

/-- The state with other contents of a bit memory. -/
def State.withBitMem (s : State) (m : Memory Bit) : BitSpace → State
  | .encIn => s.withEnc { s.enc with inMem := m }
  | .decOut => s.withDec { s.dec with outMem := m }

/-- The state with other contents of a byte memory. -/
def State.withByteMem (s : State) (m : Memory Byte) : ByteSpace → State
  | .encOut => s.withEnc { s.enc with outMem := m }
  | .decIn => s.withDec { s.dec with inMem := m }

/-- The STATE of the engine that owns a bit memory (R15, R114). -/
def State.bitOwner (s : State) : BitSpace → EngineStatus
  | .encIn => s.enc.status
  | .decOut => s.dec.status

/-- The STATE of the engine that owns a byte memory (R15, R114). -/
def State.byteOwner (s : State) : ByteSpace → EngineStatus
  | .encOut => s.enc.status
  | .decIn => s.dec.status

/-- The first bit of byte `k` of a byte view (R52). -/
def viewBase (k : BitVec 13) : Nat := 8 * k.toNat

/-- A host write of consecutive bits of a bit memory, refused while its engine is BUSY (R114). -/
def hostWriteBits (m : BitSpace) (a : Nat) (bs : List Bit) (s : State) : Result :=
  if s.bitOwner m = .busy then .refused (.bitWriteWhileBusy m)
  else .next (s.withBitMem (Memory.writeList (s.bitMem m) a bs) m)

/-- A host write of one byte of a byte memory, refused while its engine is BUSY (R114). -/
def hostWriteByte (m : ByteSpace) (a : Half) (v : Byte) (s : State) : Result :=
  if s.byteOwner m = .busy then .refused (.byteWriteWhileBusy m)
  else .next (s.withByteMem (Memory.write (s.byteMem m) a.toNat v) m)

/-- A host read of one bit; where it holds no value, a free bit (R114, U3). -/
def hostReadBit (m : BitSpace) (a : Half) (s : State) : Result :=
  match Memory.read (s.bitMem m) a.toNat with
  | some b => .next (s.withHostRead (.bit b))
  | none => .next (s.withHostRead (.bit (Config.freeBit s.draws))).drawn

/-- A host read of one byte of a byte view; where one of its bits holds no value, a free byte (R52, U3; log 5). -/
def hostReadView (m : BitSpace) (k : BitVec 13) (s : State) : Result :=
  match Memory.readList (s.bitMem m) (viewBase k) 8 with
  | .ok bs => .next (s.withHostRead (.byte (pack bs)))
  | .error _ => .next (s.withHostRead (.byte (Config.freeByte s.draws))).drawn

/-- A host read of one byte; where it holds no value, a free byte (R114, U3). -/
def hostReadByte (m : ByteSpace) (a : Half) (s : State) : Result :=
  match Memory.read (s.byteMem m) a.toNat with
  | some v => .next (s.withHostRead (.byte v))
  | none => .next (s.withHostRead (.byte (Config.freeByte s.draws))).drawn

/-- One host access (R110, R54). -/
def hostStep (op : HostOp) (s : State) : Result :=
  match op with
  | .readReg k => .next (s.withHostRead (.word (regRead k s)))
  | .writeReg k v => regWrite k v s
  | .readBit m a => hostReadBit m a s
  | .writeBit m a b => hostWriteBits m a.toNat [b] s
  | .readView m k => hostReadView m k s
  | .writeView m k v => hostWriteBits m (viewBase k) (unpack v) s
  | .readByte m a => hostReadByte m a s
  | .writeByte m a v => hostWriteByte m a v s

end Sys2Proof.Machine
end

