-- ==== Sys2Proof/Machine/Moves.lean ====
section
/-! DEFINITION. Whose move it is (spec/20_memory.md R58): one host access, one engine step, or reset (spec/70_reset_and_hazards.md
R131); and how an opcode-table word is placed where the next step runs it. -/

namespace Sys2Proof.Machine

/-- The platform's reset of the whole block (R131, R132). The host's side of the model stays: the moves to come, what the host
has read, the count of draws (log 17). -/
def State.blockReset (s : State) : State := (s.withEnc .reset).withDec .reset

/-- An engine's next step, enabled exactly while it is BUSY; an engine that is not BUSY holds its state (R116, R125, R133;
log 20). -/
def engineStep (e : Engine) (s : State) : Result :=
  match e with
  | .enc => if s.enc.status = .busy then encStep s else .next s
  | .dec => if s.dec.status = .busy then decStep s else .next s

/-- One move. -/
def moveStep (m : Move) (s : State) : Result :=
  match m with
  | .host op => hostStep op s
  | .engine e => engineStep e s
  | .reset => .next s.blockReset

/-- With no move listed: a BUSY engine moves, which of two BUSY engines is a free choice, and with none BUSY nothing changes
(R116, R133; log 3). -/
def freeMove (s : State) : Result :=
  if s.enc.status = .busy ∧ s.dec.status = .busy then
    if Config.decMoves s.draws = true then engineStep .dec s.drawn else engineStep .enc s.drawn
  else if s.enc.status = .busy then engineStep .enc s
  else engineStep .dec s

/-- DEC_IN holding a header's five bytes, DEC able to take START, and the host's write of DEC_CTRL.START next (log 11). -/
def State.placeHeader (bytes : List Byte) (s : State) : State :=
  (s.withDec
    { s.dec with
      status := if s.dec.status = .busy then .idle else s.dec.status
      inMem := Memory.writeList s.dec.inMem 0 bytes
      inlen := if s.dec.inlen.toNat < 5 then 5#16 else s.dec.inlen }).withScript
    (.host (.writeReg 9#4 1#32) :: s.script)

/-- The stream address a token is placed at: the read pointer, or 5 where that leaves no token address (R64; log 11). -/
def tokenAddress (d : DecState) : Nat :=
  if 5 ≤ d.rdptr.toNat ∧ d.rdptr.toNat + 2 < spaceSize then d.rdptr.toNat else 5

/-- A decoder with room for bits: as it is, or with the largest bitmap from its first bit on (log 11). -/
def DecState.withRoom (d : DecState) : DecState :=
  if d.cursor.toNat < d.n then d else { d with width := 255#8, height := 255#8, cursor := 0#16 }

/-- The decoder BUSY in the middle of a stream whose next token's bytes are `bytes`: its first byte already latched where it is
a marker, so that the next step completes the token (R100; log 11). -/
def DecState.placeToken (bytes : List Byte) (d : DecState) : DecState :=
  { d.withRoom with
    status := .busy
    errcode := 0#4
    inMem := Memory.writeList d.inMem (tokenAddress d) (bytes.take 2)
    inlen := if d.inlen.toNat < tokenAddress d + 2 then BitVec.ofNat 16 (tokenAddress d + 2) else d.inlen
    phase := if isMarker (bytes.headD 0#8) then .expectCont else .expectToken
    latch := if isMarker (bytes.headD 0#8) then bytes.headD 0#8 else d.latch
    rdptr := BitVec.ofNat 16 (if isMarker (bytes.headD 0#8) then tokenAddress d + 1 else tokenAddress d) }

/-- The token placed and DEC's step next (log 11). -/
def State.placeToken (bytes : List Byte) (s : State) : State :=
  (s.withDec (s.dec.placeToken bytes)).withScript (.engine .dec :: s.script)

/-- An opcode-table word placed where the next step runs it (log 11). -/
def State.placeWord (s : State) (nbits w : Nat) : State :=
  match tablePos nbits with
  | .start => s.placeHeader ((tableStream nbits w).take 5)
  | .token => s.placeToken (tableStream nbits w)

end Sys2Proof.Machine
end

