-- ==== Sys2Proof/Machine/Step.lean ====
section
/-! DEFINITION. One step of the machine: the next move of the script, or an engine's own step when none is listed (R58; log 2,
log 3). -/

namespace Sys2Proof.Machine

/-- One step. -/
def step (s : State) : Host.Outcome State Fault Refusal :=
  match s.script with
  | m :: ms => moveStep m (s.withScript ms)
  | [] => freeMove s

/-- The state whose very next step runs the instruction of an opcode-table word (log 10, log 11). -/
def State.withFetchWord (s : State) (nbits w : Nat) : State := s.placeWord nbits w

end Sys2Proof.Machine
end

