-- ==== Sys2Proof/Safety.lean ====
section
/-! DEFINITION. The terms claims are stated in: what a memory access leaves (R12, R49), what the clamped writer and the byte sink do
to an engine (R92, R99), what a run is (R79), and the invariant every step keeps. -/

namespace Sys2Proof.Machine

/-- Every cell of `[a, b)` holds a value (R56). -/
def Memory.Filled {α : Type} (m : Memory α) (a b : Nat) : Prop := ∀ i, a ≤ i → i < b → (Memory.read m i).isSome = true

/-- `m'` is `m` with the values `vs` at consecutive addresses from `a` on, and every other cell as before. -/
def Memory.Stored {α : Type} (m m' : Memory α) (a : Nat) (vs : List α) : Prop :=
  ∀ i, Memory.read m' i = if a ≤ i ∧ i < a + vs.length then vs[i - a]? else Memory.read m i

/-- `d'` is what writing `bits` through the clamped writer leaves of `d` (R99): as many of them as fit before DEC_N stand at the
write cursor, which has moved past them, and every other cell of DEC_OUT is as before. -/
def DecState.Wrote (d d' : DecState) (bits : List Bit) : Prop :=
  d'.cursor.toNat = d.cursor.toNat + min bits.length (d.n - d.cursor.toNat) ∧
  Memory.Stored d.outMem d'.outMem d.cursor.toNat (bits.take (d.n - d.cursor.toNat))

/-- `d'` agrees with `d` in everything an automaton step may not change: DEC_INLEN, DEC_DIM, DEC_IN (R25, R26, R49). -/
def DecState.SameInputs (d d' : DecState) : Prop :=
  d'.inlen = d.inlen ∧ d'.width = d.width ∧ d'.height = d.height ∧ d'.inMem = d.inMem

/-- `t` agrees with `s` in everything but the decoder. -/
def State.SameButDec (s t : State) : Prop :=
  t.enc = s.enc ∧ t.script = s.script ∧ t.hostRead = s.hostRead ∧ t.draws = s.draws

/-- STATE after a step that completes a token: DONE if the write cursor has reached DEC_N (R106). -/
def statusAfter (before : EngineStatus) (cursor n : Nat) : EngineStatus := if cursor = n then .done else before

/-- `d'` is what the automaton step that completes a token with these bits leaves of `d` (R100, R101, R106): the bits written, a
byte consumed, a token byte expected, DONE if the bitmap is full; LATCH, ERRCODE and the inputs stay. -/
def DecState.TokenDone (d d' : DecState) (bits : List Bit) : Prop :=
  d.Wrote d' bits ∧ d'.rdptr = d.rdptr + 1#16 ∧
  d'.status = statusAfter d.status d'.cursor.toNat d.n ∧
  d'.latch = d.latch ∧ d'.errcode = d.errcode ∧ d.SameInputs d'

/-- `k` is `run(v, p, cap)` (R79): the bits `[p, p + k)` are `v`, and the run ends there because the cap is reached, the bitmap
ends, or the next bit is the other value. -/
def IsRun (m : Memory Bit) (n : Nat) (v : Bit) (p cap k : Nat) : Prop :=
  k ≤ min cap (n - p) ∧ (∀ t, t < k → Memory.read m (p + t) = some v) ∧
  (k < min cap (n - p) → Memory.read m (p + k) = some (!v))

/-- `e'` is what a token step that emits `bytes` and consumes `k` bits leaves of `e`, but for the counters (R92, R94, R95). -/
def EncState.Emitted (e e' : EncState) (bytes : List Byte) (k : Nat) : Prop :=
  Memory.Stored e.outMem e'.outMem e.outlen.toNat bytes ∧
  e'.outlen.toNat = e.outlen.toNat + bytes.length ∧ e'.cursor.toNat = e.cursor.toNat + k ∧
  e'.status = statusAfter .busy (e.cursor.toNat + k) e.n ∧
  e'.width = e.width ∧ e'.height = e.height ∧ e'.inMem = e.inMem ∧ e'.errcode = e.errcode

/-- The four counters (R21), in the order long, dual, escape, verbatim. -/
def EncState.counts (e : EncState) : List Half := [e.cntLong, e.cntDual, e.cntEsc, e.cntVerb]

/-- `t` agrees with `s` in everything but the encoder. -/
def State.SameButEnc (s t : State) : Prop :=
  t.dec = s.dec ∧ t.script = s.script ∧ t.hostRead = s.hostRead ∧ t.draws = s.draws

/-- `k` steps of the machine, stopping at the first fault or refusal: `Host.Core.run` of `Sys2Proof.core`. -/
def runSteps : Nat → State → Result
  | 0, s => .next s
  | k + 1, s =>
    match step s with
    | .next t => runSteps k t
    | .fault f => .fault f
    | .refused r => .refused r

/-- The number of a STATE field (R16, R23). -/
def stateCode : EngineStatus → Nat
  | .idle => 0
  | .busy => 1
  | .done => 2
  | .error => 3

/-- The bits of a register that are fields; every other bit is reserved (the table of R33). -/
def regFields (k : BitVec 4) : RegWord :=
  match k.toNat with
  | 1 => 0xF3#32
  | 10 => 0xFFF7#32
  | 0 | 9 | 15 => 0#32
  | _ => 0xFFFF#32

/-- The bits of a register that a host write can act on: the START bits and the fields of ENC_DIM and DEC_INLEN (R33). -/
def regWritable (k : BitVec 4) : RegWord :=
  match k.toNat with
  | 0 | 9 => 1#32
  | 2 | 11 => 0xFFFF#32
  | _ => 0#32

/-- Is this the host's START of the engine: a write to its CTRL register with bit 0 set (R34, R40)? -/
def isStart (e : Engine) (m : Option Move) : Prop :=
  ∃ v, m = some (.host (.writeReg (match e with | .enc => 0#4 | .dec => 9#4) v)) ∧ v.getLsbD 0 = true

/-- Two encoders that are at the same point of an encode of the same input (R96): they agree on the dimensions, on the input bits
below ENC_N, on every register, ENC_STATUS.ERRCODE among them, and on the output written so far. -/
def EncState.SameEncode (e e' : EncState) : Prop :=
  e'.width = e.width ∧ e'.height = e.height ∧ (∀ a, a < e.n → Memory.read e'.inMem a = Memory.read e.inMem a) ∧
  e'.status = e.status ∧ e'.errcode = e.errcode ∧ e'.cursor = e.cursor ∧ e'.outlen = e.outlen ∧ e'.counts = e.counts ∧
  (∀ a, a < e.outlen.toNat → Memory.read e'.outMem a = Memory.read e.outMem a)

/-- What holds of the encoder in every state a run reaches. -/
structure EncState.Inv (e : EncState) : Prop where
  /-- ENC_IN is in canonical form. -/
  inWf : Memory.wf e.inMem = true
  /-- ENC_OUT is in canonical form. -/
  outWf : Memory.wf e.outMem = true
  /-- The encoder never enters ERROR (R16, R121). -/
  notError : e.status ≠ .error
  /-- ENC_STATUS.ERRCODE is always 0 (R35, R121). -/
  errcode : e.errcode = 0#4
  /-- BUSY exactly while bits remain (R16, R94). -/
  busyCursor : e.status = .busy → e.cursor.toNat < e.n
  /-- Before the first START nothing has been written or counted (R131). -/
  idle : e.status = .idle → e.outlen = 0#16 ∧ e.cursor = 0#16 ∧ e.counts = [0#16, 0#16, 0#16, 0#16]
  /-- The output length is the header and the bytes of the counted tokens (R20, R21). -/
  counted : e.status ≠ .idle → e.outlen.toNat =
    5 + 2 * (e.cntLong.toNat + e.cntDual.toNat + e.cntEsc.toNat) + e.cntVerb.toNat
  /-- While BUSY every byte but the header's stands for at least 4 consumed bits (R88). -/
  busyLen : e.status = .busy → 4 * e.outlen.toNat ≤ 20 + e.cursor.toNat
  /-- ENC_OUTLEN never exceeds 16262 (R20, R88). -/
  outlenMax : e.outlen.toNat ≤ 16262
  /-- `ENC_OUT[0 .. ENC_OUTLEN)` has been written (R20, R92). -/
  outFilled : Memory.Filled e.outMem 0 e.outlen.toNat
  /-- While BUSY the stream begins with the header of ENC_DIM (R91). -/
  busyHeader : e.status = .busy → Memory.readList e.outMem 0 5 = .ok (headerTag ++ [e.width, e.height])

/-- What holds of the decoder in every state a run reaches. -/
structure DecState.Inv (d : DecState) : Prop where
  /-- DEC_IN is in canonical form. -/
  inWf : Memory.wf d.inMem = true
  /-- DEC_OUT is in canonical form. -/
  outWf : Memory.wf d.outMem = true
  /-- DEC_CURSOR never exceeds DEC_N (R28). -/
  cursorMax : d.cursor.toNat ≤ d.n
  /-- BUSY exactly while bits remain (R106). -/
  busyCursor : d.status = .busy → d.cursor.toNat < d.n
  /-- DONE is entered when the bitmap is full (R106). -/
  doneCursor : d.status = .done → d.cursor.toNat = d.n
  /-- While BUSY the read pointer lies past the header and never exceeds DEC_INLEN (R27). -/
  busyRdptr : d.status = .busy → 5 ≤ d.rdptr.toNat ∧ d.rdptr.toNat ≤ d.inlen.toNat
  /-- A continuation byte is expected only after a marker (R24, R100). -/
  contLatch : d.phase = .expectCont → isMarker d.latch = true
  /-- LATCH holds 0 or the last marker read (R24). -/
  latch : d.latch = 0#8 ∨ isMarker d.latch = true
  /-- PHASE is 0 in IDLE and DONE (R41, R131). -/
  contStatus : d.phase = .expectCont → d.status = .busy ∨ d.status = .error
  /-- ERRCODE is 0 unless STATE is ERROR (R29). -/
  noError : d.status ≠ .error → d.errcode = 0#4
  /-- In ERROR the code is 1, 2 or 3 (R120, U13). -/
  errorCode : d.status = .error → d.errcode = 1#4 ∨ d.errcode = 2#4 ∨ d.errcode = 3#4
  /-- After a FormatError the pointers and dimensions are 0 (R43, R120). -/
  formatError : d.errcode = 1#4 ∨ d.errcode = 2#4 →
    d.rdptr = 0#16 ∧ d.cursor = 0#16 ∧ d.width = 0#8 ∧ d.height = 0#8
  /-- After TRUNCATED bits are missing (R120). -/
  truncated : d.errcode = 3#4 → d.cursor.toNat < d.n
  /-- While BUSY, and in DONE, every bit below the write cursor has been written (R59, R106). -/
  outFilled : d.status = .busy ∨ d.status = .done → Memory.Filled d.outMem 0 d.cursor.toNat

/-- What holds of the whole block in every state a run reaches. -/
structure State.Inv (s : State) : Prop where
  /-- Of the encoder. -/
  enc : s.enc.Inv
  /-- Of the decoder. -/
  dec : s.dec.Inv

end Sys2Proof.Machine
end

