-- ==== Sys2Proof/Certificates/Slice0/Obligations.lean ====
section
/-! DEFINITION. The statements for the provers: what the rules of spec/ say the block does. A statement whose docstring names a log
entry rests on the model's choice there. -/

open Sys2Proof Sys2Proof.Machine

/-! ## Encoding -/

/-- Decoding the encoding of a well-formed instruction gives it back, with the bytes after it (R65, R67 to R73). -/
def Obligations.DecodeReadsEncodedInstruction : Prop :=
  ∀ (i : Instr) (rest : List Byte), i.wf = true → decodeAt i.pos (encode i ++ rest) = .ok (i, rest)

/-- What the decoder reads is well-formed, stands where it was read, and its encoding is the bytes it was read from: the map is
unambiguous (R73). -/
def Obligations.EncodeRestoresDecodedBytes : Prop :=
  ∀ (pos : StreamPos) (bytes : List Byte) (i : Instr) (rest : List Byte), decodeAt pos bytes = .ok (i, rest) →
    i.wf = true ∧ i.pos = pos ∧ encode i ++ rest = bytes

/-- A token's first byte alone sets its length; a marker's second byte, which is always data, chooses between escape and run;
and the two bytes set the number of bits the token stands for (R71, R73). -/
def Obligations.FirstByteSetsTokenLength : Prop :=
  (∀ (a : Byte) (rest : List Byte), a ≠ 0xC3#8 → a ≠ 0x3D#8 → a ≠ 0x65#8 →
    decodeToken (a :: rest) = .ok (.verbatim a, rest) ∧ (tokenBits (.verbatim a)).length = 8) ∧
  (∀ a : Byte, a = 0xC3#8 ∨ a = 0x3D#8 ∨ a = 0x65#8 → decodeToken [a] = .error .tokenCut ∧
    ∀ (b : Byte) (rest : List Byte), ∃ i, decodeToken (a :: b :: rest) = .ok (i, rest) ∧
      i = (if b = 0#8 then (if a = 0xC3#8 then .escapeC3 else if a = 0x3D#8 then .escape3D else .escape65)
        else if a = 0xC3#8 then .longRun (b.getLsbD 7) (BitVec.ofNat 7 (b.toNat % 128))
        else if a = 0x3D#8 then .dualRun1 (BitVec.ofNat 4 (b.toNat / 16)) (BitVec.ofNat 4 (b.toNat % 16))
        else .dualRun0 (BitVec.ofNat 4 (b.toNat / 16)) (BitVec.ofNat 4 (b.toNat % 16))) ∧
      (tokenBits i).length =
        if b = 0#8 then 8
        else if a = 0xC3#8 then b.toNat % 128 + 16
        else b.toNat / 16 + b.toNat % 16 + 2)

/-- Words of the table and of the spec's vectors decode to their instructions (R73; 95_test_vectors.md; the table's numbering: log 10). -/
def Obligations.TableWordsDecode : Prop :=
  decodeTableWord 40 0x4643301101 = some (.header 17#8 1#8) ∧
  decodeTableWord 16 0xC300 = some .escapeC3 ∧ decodeTableWord 16 0x3D00 = some .escape3D ∧
  decodeTableWord 16 0x6500 = some .escape65 ∧ decodeTableWord 16 0xC381 = some (.longRun true 1#7) ∧
  decodeTableWord 16 0x3D96 = some (.dualRun1 9#4 6#4) ∧ decodeTableWord 16 0x654B = some (.dualRun0 4#4 11#4) ∧
  decodeTableWord 8 0xA5 = some (.verbatim 0xA5#8) ∧ decodeTableWord 40 0x4643310801 = none

/-- A header is refused by name where it is cut, whatever its bytes, and where its tag differs; else its fourth and fifth bytes
are the width and height (R65, R66, R124). -/
def Obligations.HeaderNeedsFiveBytesAndTag : Prop :=
  ∀ bytes : List Byte,
    (bytes.length < 5 → decodeHeader bytes = .error .headerShort) ∧
    (5 ≤ bytes.length → bytes.take 3 ≠ [0x46#8, 0x43#8, 0x30#8] → decodeHeader bytes = .error .headerMagic) ∧
    (∀ (w h : Byte) (rest : List Byte), bytes = 0x46#8 :: 0x43#8 :: 0x30#8 :: w :: h :: rest →
      decodeHeader bytes = .ok (.header w h, rest))

/-! ## The instructions -/

/-- Verbatim writes its 8 bits, bit 7 first, as many as fit; nothing else of the block changes but what completing a token
changes (R102). -/
def Obligations.VerbatimWritesItsBits : Prop :=
  ∀ (v : Byte) (s : State), ∃ t, exec (.verbatim v) s = .next t ∧ s.SameButDec t ∧
    s.dec.TokenDone t.dec [v.getLsbD 7, v.getLsbD 6, v.getLsbD 5, v.getLsbD 4, v.getLsbD 3, v.getLsbD 2, v.getLsbD 1, v.getLsbD 0] ∧
    t.dec.phase = s.dec.phase

/-- LongRun writes its bit `B[6:0] + 16` times, as many as fit (R103). -/
def Obligations.LongRunWritesItsRun : Prop :=
  ∀ (bit : Bit) (len7 : BitVec 7) (s : State), ∃ t, exec (.longRun bit len7) s = .next t ∧ s.SameButDec t ∧
    s.dec.TokenDone t.dec (List.replicate (len7.toNat + 16) bit) ∧ t.dec.phase = .expectToken

/-- DualRun writes one run and then one of the other bit, each as much as fits; the lead byte says which bit is first (R104). -/
def Obligations.DualRunWritesTwoRuns : Prop :=
  ∀ (l1 l2 : BitVec 4) (s : State),
    (∃ t, exec (.dualRun1 l1 l2) s = .next t ∧ s.SameButDec t ∧ t.dec.phase = .expectToken ∧
      s.dec.TokenDone t.dec (List.replicate (l1.toNat + 1) true ++ List.replicate (l2.toNat + 1) false)) ∧
    (∃ t, exec (.dualRun0 l1 l2) s = .next t ∧ s.SameButDec t ∧ t.dec.phase = .expectToken ∧
      s.dec.TokenDone t.dec (List.replicate (l1.toNat + 1) false ++ List.replicate (l2.toNat + 1) true))

/-- An escape writes the 8 literal bits of its reserved pattern, as many as fit (R105). -/
def Obligations.EscapeWritesItsPattern : Prop :=
  ∀ s : State,
    (∃ t, exec .escapeC3 s = .next t ∧ s.SameButDec t ∧ t.dec.phase = .expectToken ∧
      s.dec.TokenDone t.dec [true, true, false, false, false, false, true, true]) ∧
    (∃ t, exec .escape3D s = .next t ∧ s.SameButDec t ∧ t.dec.phase = .expectToken ∧
      s.dec.TokenDone t.dec [false, false, true, true, true, true, false, true]) ∧
    (∃ t, exec .escape65 s = .next t ∧ s.SameButDec t ∧ t.dec.phase = .expectToken ∧
      s.dec.TokenDone t.dec [false, true, true, false, false, true, false, true])

/-- Header: the dimensions taken, the read pointer past the header, everything else of the decode cleared; BUSY, or DONE at once
where a dimension is 0. DEC_OUT, DEC_IN, DEC_INLEN and the rest of the block are unchanged (R97, R98). -/
def Obligations.HeaderStartsDecode : Prop :=
  ∀ (w h : Byte) (s : State), ∃ t, exec (.header w h) s = .next t ∧ s.SameButDec t ∧
    t.dec.width = w ∧ t.dec.height = h ∧ t.dec.rdptr = 5#16 ∧ t.dec.cursor = 0#16 ∧ t.dec.latch = 0#8 ∧
    t.dec.phase = .expectToken ∧ t.dec.errcode = 0#4 ∧
    t.dec.status = (if w = 0#8 ∨ h = 0#8 then .done else .busy) ∧
    t.dec.inlen = s.dec.inlen ∧ t.dec.inMem = s.dec.inMem ∧ t.dec.outMem = s.dec.outMem

/-- The frame of the seven token rows: only DEC_OUT's cells from the write cursor on, as many as the token's bits fill, the two
decoder pointers, PHASE and STATE may change (R49, R102 to R105). -/
def Obligations.TokenFrame : Prop :=
  ∀ (i : Instr) (s t : State), i.isToken = true → exec i s = .next t →
    s.SameButDec t ∧ s.dec.SameInputs t.dec ∧ t.dec.latch = s.dec.latch ∧ t.dec.errcode = s.dec.errcode ∧
    (t.dec.status = s.dec.status ∨ t.dec.status = .done) ∧
    ∀ a, a < s.dec.cursor.toNat ∨ s.dec.cursor.toNat + s.dec.room (tokenBits i).length ≤ a →
      Memory.read t.dec.outMem a = Memory.read s.dec.outMem a

/-- The clamped writer: `put(b, k)` writes `b` at the cursor `min(k, N - DEC_CURSOR)` times; two puts act in order, and once the
bitmap is full a put writes nothing (R99). -/
def Obligations.PutIsClamped : Prop :=
  ∀ (b c : Bit) (k l : Nat) (d : DecState),
    d.Wrote (d.put b k) (List.replicate k b) ∧
    d.Wrote ((d.put b k).put c l) (List.replicate k b ++ List.replicate l c) ∧
    (d.n ≤ d.cursor.toNat + k → ((d.put b k).put c l) = d.put b k)

/-! ## The decoder's steps -/

/-- When the byte read completes a token, DEC's step is that token's `exec`; when the bytes of DEC_IN begin with a valid header,
the START step is the header's `exec`. In both the move is taken from the script, and nothing else is added. In phase
expect-run-continuation-byte a marker is latched, as in every state a run reaches (R97, R100, R101; log 1, log 2). -/
def Obligations.StepRunsDecodedInstruction : Prop :=
  (∀ (s : State) (ms : List Move) (x : Byte) (i : Instr) (rest : List Byte),
    s.script = .engine .dec :: ms → s.dec.status = .busy → s.dec.rdptr ≠ s.dec.inlen →
    Memory.read s.dec.inMem s.dec.rdptr.toNat = some x →
    (s.dec.phase = .expectCont → isMarker s.dec.latch = true) →
    decodeToken (match s.dec.phase with | .expectToken => [x] | .expectCont => [s.dec.latch, x]) = .ok (i, rest) →
    step s = exec i (s.withScript ms)) ∧
  (∀ (s : State) (ms : List Move) (v : RegWord) (bytes : List Byte) (i : Instr) (rest : List Byte),
    s.script = .host (.writeReg 9#4 v) :: ms → v.getLsbD 0 = true → s.dec.status ≠ .busy → 5 ≤ s.dec.inlen.toNat →
    Memory.readList s.dec.inMem 0 5 = .ok bytes → decodeHeader bytes = .ok (i, rest) →
    step s = exec i (s.withScript ms))

/-- The automaton step in phase expect-token-byte: TRUNCATED where no input remains; a marker latched; any other byte a verbatim
token, with DONE if it fills the bitmap (R100). (What DEC_OUT holds after the error: ErrorLeavesNoResult.) -/
def Obligations.TokenByteStep : Prop :=
  ∀ (s : State) (ms : List Move), s.script = .engine .dec :: ms → s.dec.status = .busy → s.dec.phase = .expectToken →
    (s.dec.rdptr = s.dec.inlen → ∃ t, step s = .next t ∧ (s.withScript ms).SameButDec t ∧
      { t.dec with outMem := s.dec.outMem } = { s.dec with status := .error, errcode := 3#4 }) ∧
    (∀ a : Byte, s.dec.rdptr ≠ s.dec.inlen → Memory.read s.dec.inMem s.dec.rdptr.toNat = some a →
      if a = 0xC3#8 ∨ a = 0x3D#8 ∨ a = 0x65#8 then
        step s = .next ((s.withScript ms).withDec { s.dec with rdptr := s.dec.rdptr + 1#16, latch := a, phase := .expectCont })
      else ∃ t, step s = .next t ∧ (s.withScript ms).SameButDec t ∧ t.dec.phase = .expectToken ∧
        s.dec.TokenDone t.dec
          [a.getLsbD 7, a.getLsbD 6, a.getLsbD 5, a.getLsbD 4, a.getLsbD 3, a.getLsbD 2, a.getLsbD 1, a.getLsbD 0])

/-- The automaton step in phase expect-run-continuation-byte, with a marker latched: TRUNCATED where no input remains; else
`B = 0` writes the marker's own 8 bits, any other `B` the long run of 0xC3 or the dual run of 0x3D or 0x65, and PHASE returns to
0, with DONE if the bitmap is full (R101). (What DEC_OUT holds after the error: ErrorLeavesNoResult.) -/
def Obligations.ContinuationByteStep : Prop :=
  ∀ (s : State) (ms : List Move), s.script = .engine .dec :: ms → s.dec.status = .busy → s.dec.phase = .expectCont →
    s.dec.latch = 0xC3#8 ∨ s.dec.latch = 0x3D#8 ∨ s.dec.latch = 0x65#8 →
    (s.dec.rdptr = s.dec.inlen → ∃ t, step s = .next t ∧ (s.withScript ms).SameButDec t ∧
      { t.dec with outMem := s.dec.outMem } = { s.dec with status := .error, errcode := 3#4 }) ∧
    (∀ b : Byte, s.dec.rdptr ≠ s.dec.inlen → Memory.read s.dec.inMem s.dec.rdptr.toNat = some b →
      ∃ t, step s = .next t ∧ (s.withScript ms).SameButDec t ∧ t.dec.phase = .expectToken ∧
        s.dec.TokenDone t.dec
          (if b = 0#8 then
            (if s.dec.latch = 0xC3#8 then [true, true, false, false, false, false, true, true]
              else if s.dec.latch = 0x3D#8 then [false, false, true, true, true, true, false, true]
              else [false, true, true, false, false, true, false, true])
          else if s.dec.latch = 0xC3#8 then List.replicate (b.toNat % 128 + 16) (decide (128 ≤ b.toNat))
          else List.replicate (b.toNat / 16 + 1) (decide (s.dec.latch = 0x3D#8)) ++
            List.replicate (b.toNat % 16 + 1) (decide (s.dec.latch = 0x65#8))))

/-- A 2-byte token takes two steps from phase expect-token-byte: the marker is latched, then the token runs (R100, R101). -/
def Obligations.TwoByteTokenTakesTwoSteps : Prop :=
  ∀ (s : State) (ms : List Move) (a b : Byte) (i : Instr),
    s.script = .engine .dec :: .engine .dec :: ms → s.dec.status = .busy → s.dec.phase = .expectToken →
    s.dec.rdptr.toNat + 1 < s.dec.inlen.toNat →
    Memory.read s.dec.inMem s.dec.rdptr.toNat = some a → Memory.read s.dec.inMem (s.dec.rdptr.toNat + 1) = some b →
    decodeToken [a, b] = .ok (i, []) →
    runSteps 2 s =
      exec i ((s.withScript ms).withDec { s.dec with rdptr := s.dec.rdptr + 1#16, latch := a, phase := .expectCont })

/-- Truncation is an error, and it is precise: where no input remains the automaton step, in either phase, sets STATE and ERRCODE
and changes no other register and nothing of the input (R107). -/
def Obligations.TruncationIsAnError : Prop :=
  ∀ (s : State) (ms : List Move), s.script = .engine .dec :: ms → s.dec.status = .busy → s.dec.rdptr = s.dec.inlen →
    ∃ t, step s = .next t ∧ (s.withScript ms).SameButDec t ∧ t.dec.status = .error ∧ t.dec.errcode = 3#4 ∧
      t.dec.phase = s.dec.phase ∧ t.dec.latch = s.dec.latch ∧ t.dec.rdptr = s.dec.rdptr ∧ t.dec.cursor = s.dec.cursor ∧
      s.dec.SameInputs t.dec

/-- A step that enters ERROR, whatever its code, leaves no bit of DEC_OUT with a value: the call fails outright. The spec promises
nothing of DEC_OUT then, and the model gives every bit of it no value (R123, U5; the model's reading, log 7). -/
def Obligations.ErrorLeavesNoResult : Prop :=
  ∀ s t : State, step s = .next t → s.dec.status ≠ .error → t.dec.status = .error →
    ∀ a, Memory.read t.dec.outMem a = none

/-- DEC START: FORMAT_SHORT for fewer than 5 bytes, whatever they are; else FORMAT_MAGIC where the tag differs; else the
dimensions and BUSY, or DONE where there is no bit. Everything it clears is clear in each case; DEC_IN and DEC_INLEN stay, and
without an error DEC_OUT does too. While DEC is BUSY it is ignored (R97). -/
def Obligations.DecStartChecksThenStarts : Prop :=
  ∀ (s : State) (ms : List Move) (v : RegWord), s.script = .host (.writeReg 9#4 v) :: ms → v.getLsbD 0 = true →
    (s.dec.status = .busy → step s = .next (s.withScript ms)) ∧ (s.dec.status ≠ .busy →
    (s.dec.inlen.toNat < 5 → ∃ t, step s = .next t ∧ (s.withScript ms).SameButDec t ∧
      t.dec.status = .error ∧ t.dec.errcode = 1#4 ∧ t.dec.width = 0#8 ∧ t.dec.height = 0#8 ∧ t.dec.rdptr = 0#16 ∧
      t.dec.cursor = 0#16 ∧ t.dec.phase = .expectToken ∧ t.dec.latch = 0#8 ∧ t.dec.inlen = s.dec.inlen ∧
      t.dec.inMem = s.dec.inMem) ∧
    (∀ b0 b1 b2 : Byte, 5 ≤ s.dec.inlen.toNat → Memory.read s.dec.inMem 0 = some b0 → Memory.read s.dec.inMem 1 = some b1 →
      Memory.read s.dec.inMem 2 = some b2 →
      (b0 ≠ 0x46#8 ∨ b1 ≠ 0x43#8 ∨ b2 ≠ 0x30#8 → ∃ t, step s = .next t ∧ (s.withScript ms).SameButDec t ∧
        t.dec.status = .error ∧ t.dec.errcode = 2#4 ∧ t.dec.width = 0#8 ∧ t.dec.height = 0#8 ∧ t.dec.rdptr = 0#16 ∧
        t.dec.cursor = 0#16 ∧ t.dec.phase = .expectToken ∧ t.dec.latch = 0#8 ∧ t.dec.inlen = s.dec.inlen ∧
        t.dec.inMem = s.dec.inMem) ∧
      (∀ w h : Byte, b0 = 0x46#8 → b1 = 0x43#8 → b2 = 0x30#8 → Memory.read s.dec.inMem 3 = some w →
        Memory.read s.dec.inMem 4 = some h → ∃ t, step s = .next t ∧ (s.withScript ms).SameButDec t ∧
        t.dec.width = w ∧ t.dec.height = h ∧ t.dec.rdptr = 5#16 ∧ t.dec.cursor = 0#16 ∧ t.dec.phase = .expectToken ∧
        t.dec.latch = 0#8 ∧ t.dec.errcode = 0#4 ∧ t.dec.status = (if w.toNat * h.toNat = 0 then .done else .busy) ∧
        t.dec.inlen = s.dec.inlen ∧ t.dec.inMem = s.dec.inMem ∧ t.dec.outMem = s.dec.outMem)))

/-- A decode of written input ends: every automaton step consumes a byte or raises, so one step more than the bytes left suffices
(R109; the raising step is counted, log 18). -/
def Obligations.DecodeEndsWithinItsInput : Prop :=
  ∀ s : State, s.dec.status = .busy → s.dec.rdptr.toNat ≤ s.dec.inlen.toNat →
    Memory.Filled s.dec.inMem s.dec.rdptr.toNat s.dec.inlen.toNat →
    ∃ t : State, runSteps (s.dec.inlen.toNat - s.dec.rdptr.toNat + 1)
        (s.withScript (List.replicate (s.dec.inlen.toNat - s.dec.rdptr.toNat + 1) (.engine .dec))) = .next t ∧
      (t.dec.status = .done ∨ t.dec.status = .error)

/-! ## The tokenizer and the encoder's steps -/

/-- The run scan returns the largest run from `p`, capped and cut at the end of the bitmap; it completes on written bits, and
reads no bit past the one that ends the run, at or beyond index `N`, or beyond the cap (R79). -/
def Obligations.RunScanIsTheLargestRun : Prop :=
  ∀ (m : Memory Bit) (n : Nat) (v : Bit) (p cap : Nat),
    (∀ k, runScan m n v p cap = .ok k →
      (k ≤ min cap (n - p) ∧ ∀ t, t < k → Memory.read m (p + t) = some v) ∧
      (∀ k', k' ≤ min cap (n - p) → (∀ t, t < k' → Memory.read m (p + t) = some v) → k' ≤ k) ∧
      (∀ m' : Memory Bit, (∀ a, p ≤ a → a ≤ p + k → a < min n (p + cap) → Memory.read m' a = Memory.read m a) →
        runScan m' n v p cap = .ok k)) ∧
    (Memory.Filled m p (min n (p + cap)) → ∃ k, runScan m n v p cap = .ok k)

/-- ENC START: counters and cursor cleared, the 5-byte header written, BUSY, or DONE where there is no bit; ENC_OUT from
address 5 on, ENC_DIM and ENC_IN are unchanged. While ENC is BUSY it is ignored (R90). -/
def Obligations.EncStartWritesHeader : Prop :=
  ∀ (s : State) (ms : List Move) (v : RegWord), s.script = .host (.writeReg 0#4 v) :: ms → v.getLsbD 0 = true →
    (s.enc.status = .busy → step s = .next (s.withScript ms)) ∧ (s.enc.status ≠ .busy →
    ∃ t, step s = .next t ∧ (s.withScript ms).SameButEnc t ∧ t.enc.counts = [0#16, 0#16, 0#16, 0#16] ∧
      t.enc.cursor = 0#16 ∧ t.enc.outlen = 5#16 ∧ t.enc.errcode = 0#4 ∧
      t.enc.status = (if s.enc.width.toNat * s.enc.height.toNat = 0 then .done else .busy) ∧
      t.enc.width = s.enc.width ∧ t.enc.height = s.enc.height ∧ t.enc.inMem = s.enc.inMem ∧
      Memory.Stored s.enc.outMem t.enc.outMem 0 [0x46#8, 0x43#8, 0x30#8, s.enc.width, s.enc.height])

/-- Branch 1: where the run at the cursor is 17 or more, the token step emits the long-run token of it and consumes it (R81). -/
def Obligations.LongRunBranch : Prop :=
  ∀ (s : State) (ms : List Move) (b : Bit) (j : Nat), s.Inv → s.script = .engine .enc :: ms → s.enc.status = .busy →
    IsRun s.enc.inMem s.enc.n b s.enc.cursor.toNat 143 j → 17 ≤ j →
    ∃ t, step s = .next t ∧ (s.withScript ms).SameButEnc t ∧
      s.enc.Emitted t.enc [0xC3#8, BitVec.ofNat 8 (b.toNat * 128 + (j - 16))] j ∧
      t.enc.counts = [s.enc.cntLong + 1#16, s.enc.cntDual, s.enc.cntEsc, s.enc.cntVerb]

/-- Branch 2: where the run is 2 to 16 long and the opposite run after it, capped at 16, brings the sum over 16, the token step
emits the dual-run token of both and consumes them (R82). -/
def Obligations.DualRunBranch : Prop :=
  ∀ (s : State) (ms : List Move) (b : Bit) (j j2 : Nat), s.Inv → s.script = .engine .enc :: ms → s.enc.status = .busy →
    IsRun s.enc.inMem s.enc.n b s.enc.cursor.toNat 143 j → 1 < j → j < 17 →
    IsRun s.enc.inMem s.enc.n (!b) (s.enc.cursor.toNat + j) 16 j2 → 16 < j + j2 →
    ∃ t, step s = .next t ∧ (s.withScript ms).SameButEnc t ∧
      s.enc.Emitted t.enc [if b then 0x3D#8 else 0x65#8, BitVec.ofNat 8 ((j - 1) * 16 + (j2 - 1))] (j + j2) ∧
      t.enc.counts = [s.enc.cntLong, s.enc.cntDual + 1#16, s.enc.cntEsc, s.enc.cntVerb]

/-- Branch 3: where at least 8 bits remain and the next 8 are a reserved pattern, the token step emits the pattern and 0x00,
whatever bits follow: no run branch can have fired, which the spec marks as derived (R85; the branch: R83). -/
def Obligations.EscapeBranch : Prop :=
  ∀ (s : State) (ms : List Move) (p : Byte), s.Inv → s.script = .engine .enc :: ms → s.enc.status = .busy →
    s.enc.cursor.toNat + 8 ≤ s.enc.n → p = 0xC3#8 ∨ p = 0x3D#8 ∨ p = 0x65#8 →
    (∀ t, t < 8 → Memory.read s.enc.inMem (s.enc.cursor.toNat + t) = some (p.getLsbD (7 - t))) →
    ∃ t, step s = .next t ∧ (s.withScript ms).SameButEnc t ∧ s.enc.Emitted t.enc [p, 0x00#8] 8 ∧
      t.enc.counts = [s.enc.cntLong, s.enc.cntDual, s.enc.cntEsc + 1#16, s.enc.cntVerb]

/-- Branch 4: where neither run branch fires and the next bits are no reserved pattern, the token step emits up to 8 of them,
earliest at bit 7, the bits left over 0 (R84). -/
def Obligations.VerbatimBranch : Prop :=
  ∀ (s : State) (ms : List Move) (b : Bit) (j j2 k : Nat) (p : Byte), s.Inv → s.script = .engine .enc :: ms →
    s.enc.status = .busy → IsRun s.enc.inMem s.enc.n b s.enc.cursor.toNat 143 j → 1 ≤ j → j < 17 →
    (1 < j → IsRun s.enc.inMem s.enc.n (!b) (s.enc.cursor.toNat + j) 16 j2 ∧ j + j2 ≤ 16) →
    k = min 8 (s.enc.n - s.enc.cursor.toNat) → (k = 8 → p ≠ 0xC3#8 ∧ p ≠ 0x3D#8 ∧ p ≠ 0x65#8) →
    (∀ t, t < k → Memory.read s.enc.inMem (s.enc.cursor.toNat + t) = some (p.getLsbD (7 - t))) →
    (∀ t, k ≤ t → t < 8 → p.getLsbD (7 - t) = false) →
    ∃ t, step s = .next t ∧ (s.withScript ms).SameButEnc t ∧ s.enc.Emitted t.enc [p] k ∧
      t.enc.counts = [s.enc.cntLong, s.enc.cntDual, s.enc.cntEsc, s.enc.cntVerb + 1#16]

/-- Every token consumes at least 1 and at most the remaining bits (R87); a 2-byte token consumes at least 8, a 1-byte token 8 or
all that remain (R88). -/
def Obligations.TokenConsumption : Prop :=
  ∀ (m : Memory Bit) (n c : Nat) (i : Instr) (k : Nat), c < n → tokenize m n c = .ok (i, k) →
    1 ≤ k ∧ k ≤ n - c ∧
    ((encode i).length = 2 ∧ 8 ≤ k ∨ (encode i).length = 1 ∧ (k = 8 ∨ (k = n - c ∧ k < 8)))

/-- Every token the tokenizer returns is a well-formed, canonical token: a run's second byte is never 0x00 (R75), and a verbatim
byte is never a marker (R86). -/
def Obligations.EmittedTokensAreCanonical : Prop :=
  ∀ (m : Memory Bit) (n c : Nat) (i : Instr) (k : Nat), tokenize m n c = .ok (i, k) →
    i.isToken = true ∧ i.wf = true ∧ i.canonical = true

/-- A token step on written input completes: ENC raises no error (R80, R121). -/
def Obligations.TokenStepCompletes : Prop :=
  ∀ (s : State) (ms : List Move), s.script = .engine .enc :: ms → s.enc.status = .busy →
    s.enc.cursor.toNat < s.enc.n →
    Memory.Filled s.enc.inMem s.enc.cursor.toNat (min s.enc.n (s.enc.cursor.toNat + 143)) →
    ∃ t, step s = .next t ∧ (s.withScript ms).SameButEnc t ∧ t.enc.status ≠ .error

/-- The tokenizer's answer depends on no bit outside `[c, min(N, c + 143))` (R54). -/
def Obligations.TokenizerReadsOnlyItsWindow : Prop :=
  ∀ (m m' : Memory Bit) (n c : Nat), c < n →
    (∀ a, c ≤ a → a < min n (c + 143) → Memory.read m a = Memory.read m' a) → tokenize m n c = tokenize m' n c

/-- The token the encoder emits for the bits at its cursor makes the decoder, with as many bits left to write, write exactly the
bits consumed (R89). -/
def Obligations.EmittedTokenDecodesToItsBits : Prop :=
  ∀ (m : Memory Bit) (n c : Nat) (i : Instr) (k : Nat) (s : State), c < n → tokenize m n c = .ok (i, k) →
    s.dec.n - s.dec.cursor.toNat = n - c →
    ∃ t, exec i s = .next t ∧ t.dec.cursor.toNat = s.dec.cursor.toNat + k ∧
      ∀ x, x < k → Memory.read t.dec.outMem (s.dec.cursor.toNat + x) = Memory.read m (c + x)

/-- An encode of written input reaches DONE after at most as many token steps as bits remain, with the cursor at ENC_N (R87,
R95). -/
def Obligations.EncodeReachesDone : Prop :=
  ∀ s : State, s.enc.status = .busy → s.enc.cursor.toNat < s.enc.n →
    Memory.Filled s.enc.inMem s.enc.cursor.toNat s.enc.n →
    ∃ t : State, runSteps (s.enc.n - s.enc.cursor.toNat)
        (s.withScript (List.replicate (s.enc.n - s.enc.cursor.toNat) (.engine .enc))) = .next t ∧
      t.enc.status = .done ∧ t.enc.cursor.toNat = s.enc.n

/-- One encode is a function of ENC_DIM and the input bits: encoders of the same input are at the same point after START, and stay
so through every token step (R96). -/
def Obligations.EncodeDependsOnlyOnItsInput : Prop :=
  ∀ e e' : EncState,
    (e'.width = e.width → e'.height = e.height → (∀ a, a < e.n → Memory.read e'.inMem a = Memory.read e.inMem a) →
      e.start.SameEncode e'.start) ∧
    (e.Inv → e'.Inv → e.status = .busy → e.SameEncode e' →
      match e.tokenStep, e'.tokenStep with
      | .ok f, .ok f' => f.SameEncode f'
      | .error x, .error x' => x = x'
      | _, _ => False)

/-- The round trip through both engines: encode a written bitmap of any dimensions, hand the stream to the decoder, decode; the
decoder ends DONE with the same dimensions and bitmap, having read the whole stream (R89, R118). -/
def Obligations.RoundTripThroughBothEngines : Prop :=
  ∀ s : State, s.enc.status ≠ .busy → Memory.Filled s.enc.inMem 0 s.enc.n →
    ∃ t : State, runSteps (s.enc.n + 1)
        (s.withScript (.host (.writeReg 0#4 1#32) :: List.replicate s.enc.n (.engine .enc))) = .next t ∧
      t.enc.status = .done ∧
      ∀ u : State, u.dec.status ≠ .busy → u.dec.inlen = t.enc.outlen →
        (∀ a, a < t.enc.outlen.toNat → Memory.read u.dec.inMem a = Memory.read t.enc.outMem a) →
        ∃ v : State, runSteps (t.enc.outlen.toNat + 1)
            (u.withScript (.host (.writeReg 9#4 1#32) :: List.replicate t.enc.outlen.toNat (.engine .dec))) = .next v ∧
          v.dec.status = .done ∧ v.dec.width = s.enc.width ∧ v.dec.height = s.enc.height ∧
          v.dec.rdptr = t.enc.outlen ∧
          ∀ a, a < s.enc.n → Memory.read v.dec.outMem a = Memory.read s.enc.inMem a

/-! ## The host interface -/

/-- A register read gives its fields at their places, everything else 0 (R33 to R45). -/
def Obligations.RegisterReadGivesItsFields : Prop :=
  ∀ s : State,
    (regRead 0#4 s).toNat = 0 ∧
    (regRead 1#4 s).toNat = s.enc.errcode.toNat * 16 + stateCode s.enc.status ∧
    (regRead 2#4 s).toNat = s.enc.height.toNat * 256 + s.enc.width.toNat ∧
    (regRead 3#4 s).toNat = s.enc.cursor.toNat ∧ (regRead 4#4 s).toNat = s.enc.outlen.toNat ∧
    (regRead 5#4 s).toNat = s.enc.cntLong.toNat ∧ (regRead 6#4 s).toNat = s.enc.cntDual.toNat ∧
    (regRead 7#4 s).toNat = s.enc.cntEsc.toNat ∧ (regRead 8#4 s).toNat = s.enc.cntVerb.toNat ∧
    (regRead 9#4 s).toNat = 0 ∧
    (regRead 10#4 s).toNat = s.dec.latch.toNat * 256 + s.dec.errcode.toNat * 16 +
      (if s.dec.phase = .expectCont then 4 else 0) + stateCode s.dec.status ∧
    (regRead 11#4 s).toNat = s.dec.inlen.toNat ∧
    (regRead 12#4 s).toNat = s.dec.height.toNat * 256 + s.dec.width.toNat ∧
    (regRead 13#4 s).toNat = s.dec.rdptr.toNat ∧ (regRead 14#4 s).toNat = s.dec.cursor.toNat ∧
    (regRead 15#4 s).toNat = 0

/-- Reserved bits and index 15 read 0 and ignore writes, read-only registers ignore writes whole, a register read changes no
engine, and ENC_DIM and DEC_INLEN accept their whole range (R46). -/
def Obligations.ReservedBitsAndReadOnlyRegisters : Prop :=
  (∀ (k : BitVec 4) (s : State), regRead k s &&& ~~~(regFields k) = 0#32) ∧
  (∀ (s : State) (ms : List Move) (k : BitVec 4) (v : RegWord), s.script = .host (.writeReg k v) :: ms →
    regWritable k = 0#32 → step s = .next (s.withScript ms)) ∧
  (∀ (s : State) (ms : List Move) (k : BitVec 4) (v v' : RegWord), v &&& regWritable k = v' &&& regWritable k →
    step (s.withScript (.host (.writeReg k v) :: ms)) = step (s.withScript (.host (.writeReg k v') :: ms))) ∧
  (∀ (s : State) (ms : List Move) (k : BitVec 4), s.script = .host (.readReg k) :: ms →
    step s = .next ((s.withScript ms).withHostRead (.word (regRead k s)))) ∧
  (∀ (s : State) (ms : List Move) (v : RegWord),
    (s.script = .host (.writeReg 2#4 v) :: ms → s.enc.status ≠ .busy →
      ∃ t, step s = .next t ∧ regRead 2#4 t = v &&& 0xFFFF#32) ∧
    (s.script = .host (.writeReg 11#4 v) :: ms → s.dec.status ≠ .busy →
      ∃ t, step s = .next t ∧ regRead 11#4 t = v &&& 0xFFFF#32))

/-- A START written while its engine is BUSY is ignored: nothing changes. One written while it is not BUSY, be it IDLE, DONE or
ERROR, is its START step. A write with bit 0 clear has no effect (R112). -/
def Obligations.StartIgnoredWhileBusy : Prop :=
  (∀ (s : State) (ms : List Move) (v : RegWord), v.getLsbD 0 = false →
    s.script = .host (.writeReg 0#4 v) :: ms ∨ s.script = .host (.writeReg 9#4 v) :: ms → step s = .next (s.withScript ms)) ∧
  (∀ (s : State) (ms : List Move) (v : RegWord), v.getLsbD 0 = true →
    (s.script = .host (.writeReg 0#4 v) :: ms →
      step s = if s.enc.status = .busy then .next (s.withScript ms) else .next ((s.withScript ms).withEnc s.enc.start)) ∧
    (s.script = .host (.writeReg 9#4 v) :: ms →
      step s = if s.dec.status = .busy then .next (s.withScript ms) else decStart (s.withScript ms)))

/-- A write to ENC_DIM while ENC is BUSY and one to DEC_INLEN while DEC is BUSY are ignored; and no move but reset changes the
dimensions and the input of a BUSY encoder, or the length, the dimensions and the input of a BUSY decoder (R113; the input memories:
R49, R114). -/
def Obligations.InputsConstantWhileBusy : Prop :=
  (∀ (s : State) (ms : List Move) (v : RegWord),
    (s.script = .host (.writeReg 2#4 v) :: ms → s.enc.status = .busy → step s = .next (s.withScript ms)) ∧
    (s.script = .host (.writeReg 11#4 v) :: ms → s.dec.status = .busy → step s = .next (s.withScript ms))) ∧
  (∀ s t : State, step s = .next t → s.script.head? ≠ some .reset →
    (s.enc.status = .busy → t.enc.width = s.enc.width ∧ t.enc.height = s.enc.height ∧ t.enc.inMem = s.enc.inMem) ∧
    (s.dec.status = .busy → s.dec.SameInputs t.dec))

/-- A host write to a BUSY engine's own input or output memory is refused; to a memory of an engine that is not BUSY it stores
the value and changes nothing else, whatever the other engine does (R114; a write to an output memory: log 8). -/
def Obligations.HostWritesRefusedWhileBusy : Prop :=
  ∀ (s : State) (ms : List Move) (a : Half) (b : Bit) (v : Byte),
    (s.script = .host (.writeBit .encIn a b) :: ms →
      if s.enc.status = .busy then step s = .refused (.bitWriteWhileBusy .encIn)
      else ∃ m, Memory.Stored s.enc.inMem m a.toNat [b] ∧
        step s = .next ((s.withScript ms).withEnc { s.enc with inMem := m })) ∧
    (s.script = .host (.writeBit .decOut a b) :: ms →
      if s.dec.status = .busy then step s = .refused (.bitWriteWhileBusy .decOut)
      else ∃ m, Memory.Stored s.dec.outMem m a.toNat [b] ∧
        step s = .next ((s.withScript ms).withDec { s.dec with outMem := m })) ∧
    (s.script = .host (.writeByte .encOut a v) :: ms →
      if s.enc.status = .busy then step s = .refused (.byteWriteWhileBusy .encOut)
      else ∃ m, Memory.Stored s.enc.outMem m a.toNat [v] ∧
        step s = .next ((s.withScript ms).withEnc { s.enc with outMem := m })) ∧
    (s.script = .host (.writeByte .decIn a v) :: ms →
      if s.dec.status = .busy then step s = .refused (.byteWriteWhileBusy .decIn)
      else ∃ m, Memory.Stored s.dec.inMem m a.toNat [v] ∧
        step s = .next ((s.withScript ms).withDec { s.dec with inMem := m }))

/-- The byte view of either bit memory: a write of byte `k` sets bits `8k` to `8k + 7`, bit `8k` from bit 7, and nothing else, or is
refused while the owning engine is BUSY; a read of eight written bits returns them packed the same way, and a read that includes a
bit with no value returns a free byte (R50, R52, R114, U3; a write to DEC_OUT: log 8; the free byte: log 4, log 5). -/
def Obligations.ByteViewIsMsbFirst : Prop :=
  ∀ (s : State) (ms : List Move) (m : BitSpace) (k : BitVec 13) (v : Byte),
    (s.script = .host (.writeView m k v) :: ms →
      if s.bitOwner m = .busy then step s = .refused (.bitWriteWhileBusy m)
      else ∃ mem, Memory.Stored (s.bitMem m) mem (8 * k.toNat)
          [v.getLsbD 7, v.getLsbD 6, v.getLsbD 5, v.getLsbD 4, v.getLsbD 3, v.getLsbD 2, v.getLsbD 1, v.getLsbD 0] ∧
        step s = .next ((s.withScript ms).withBitMem mem m)) ∧
    (s.script = .host (.readView m k) :: ms →
      ((∀ x, x < 8 → Memory.read (s.bitMem m) (8 * k.toNat + x) = some (v.getLsbD (7 - x))) →
        step s = .next ((s.withScript ms).withHostRead (.byte v))) ∧
      (∀ x, x < 8 → Memory.read (s.bitMem m) (8 * k.toNat + x) = none →
        step s = .next ((s.withScript ms).withHostRead (.byte (Config.freeByte s.draws))).drawn))

/-- A host read of a memory, by cell or through the byte view, never stops and changes no engine: it returns the cell's value, or a
free value where a cell holds none (R52, R54, R114, U3; log 4, log 5). -/
def Obligations.HostReadsReturnTheCell : Prop :=
  ∀ (s : State) (ms : List Move) (a : Half),
    (s.script = .host (.readByte .encOut a) :: ms → ∃ t v, step s = .next t ∧ t.enc = s.enc ∧ t.dec = s.dec ∧
      t.script = ms ∧ t.hostRead = some (.byte v) ∧ ∀ w, Memory.read s.enc.outMem a.toNat = some w → v = w) ∧
    (s.script = .host (.readByte .decIn a) :: ms → ∃ t v, step s = .next t ∧ t.enc = s.enc ∧ t.dec = s.dec ∧
      t.script = ms ∧ t.hostRead = some (.byte v) ∧ ∀ w, Memory.read s.dec.inMem a.toNat = some w → v = w) ∧
    (s.script = .host (.readBit .encIn a) :: ms → ∃ t b, step s = .next t ∧ t.enc = s.enc ∧ t.dec = s.dec ∧
      t.script = ms ∧ t.hostRead = some (.bit b) ∧ ∀ w, Memory.read s.enc.inMem a.toNat = some w → b = w) ∧
    (s.script = .host (.readBit .decOut a) :: ms → ∃ t b, step s = .next t ∧ t.enc = s.enc ∧ t.dec = s.dec ∧
      t.script = ms ∧ t.hostRead = some (.bit b) ∧ ∀ w, Memory.read s.dec.outMem a.toNat = some w → b = w) ∧
    (∀ (m : BitSpace) (k : BitVec 13), s.script = .host (.readView m k) :: ms → ∃ t v, step s = .next t ∧ t.enc = s.enc ∧
      t.dec = s.dec ∧ t.script = ms ∧ t.hostRead = some (.byte v) ∧
      ∀ w : Byte, (∀ x, x < 8 → Memory.read (s.bitMem m) (8 * k.toNat + x) = some (w.getLsbD (7 - x))) → v = w)

/-! ## Reset and whole-machine rules -/

/-- After reset, from any state, every register reads 0, both engines are IDLE and take no step, and no memory cell holds a value;
so it is at `State.reset` (R131). -/
def Obligations.ResetClearsTheBlock : Prop :=
  (∀ (s : State) (ms : List Move), s.script = .reset :: ms → ∃ t, step s = .next t ∧
    t.enc = State.reset.enc ∧ t.dec = State.reset.dec) ∧
  (∀ k, regRead k State.reset = 0#32) ∧ (∀ e, engineStep e State.reset = .next State.reset) ∧
  State.reset.enc.status = .idle ∧ State.reset.dec.status = .idle ∧
  (∀ a, Memory.read State.reset.enc.inMem a = none ∧ Memory.read State.reset.enc.outMem a = none ∧
    Memory.read State.reset.dec.inMem a = none ∧ Memory.read State.reset.dec.outMem a = none)

/-- The invariant holds after reset. -/
def Obligations.ResetMeetsInvariant : Prop := State.reset.Inv

/-- Every step keeps the invariant: memories in canonical form, cursors within the bitmap, the encoder never in error, lengths and
counters in step, error codes in range (R16, R20, R21, R24, R27, R28, R29, R41, R59, R88, R106, R120). -/
def Obligations.StepKeepsInvariant : Prop := ∀ s t : State, s.Inv → step s = .next t → t.Inv

/-- A step of one engine, its START among them, leaves the other as it is and depends on nothing of it (R15). -/
def Obligations.EnginesAreIndependent : Prop :=
  (∀ (s : State) (ms : List Move) (m : Move) (d : DecState),
    s.script = m :: ms → m = .engine .enc ∨ (∃ v, m = .host (.writeReg 0#4 v)) →
    match step s, step (s.withDec d) with
    | .next t, .next t' => t.enc = t'.enc ∧ t.dec = s.dec ∧ t'.dec = d
    | .fault f, .fault f' => f = f'
    | _, _ => False) ∧
  (∀ (s : State) (ms : List Move) (m : Move) (e : EncState),
    s.script = m :: ms → m = .engine .dec ∨ (∃ v, m = .host (.writeReg 9#4 v)) →
    match step s, step (s.withEnc e) with
    | .next t, .next t' => t.dec = t'.dec ∧ t.enc = s.enc ∧ t'.enc = e
    | .fault f, .fault f' => f = f'
    | _, _ => False)

/-- An operation begins only by its START: an engine that is not BUSY keeps its STATE through every move but its own START and
reset. So ERROR is left by nothing else (R111, R125). -/
def Obligations.OperationsBeginOnlyByStart : Prop :=
  ∀ s t : State, step s = .next t → s.script.head? ≠ some .reset →
    (s.enc.status ≠ .busy → t.enc.status = s.enc.status ∨ isStart .enc s.script.head?) ∧
    (s.dec.status ≠ .busy → t.dec.status = s.dec.status ∨ isStart .dec s.script.head?)

/-- An operation ends only in DONE or ERROR, or is cut short by reset; the encoder's never in ERROR (R111, R121). -/
def Obligations.OperationsEndOnlyInDoneOrError : Prop :=
  ∀ s t : State, step s = .next t → s.script.head? ≠ some .reset →
    (s.enc.status = .busy → t.enc.status = .busy ∨ t.enc.status = .done) ∧
    (s.dec.status = .busy → t.dec.status = .busy ∨ t.dec.status = .done ∨ t.dec.status = .error)

/-- While an engine is BUSY, what it has written is final: no move but reset changes `ENC_OUT` below ENC_OUTLEN, or, but for a
decoder error, `DEC_OUT` below DEC_CURSOR (R59). -/
def Obligations.WrittenOutputIsFinal : Prop :=
  ∀ s t : State, s.Inv → step s = .next t → s.script.head? ≠ some .reset →
    (s.enc.status = .busy → ∀ a, a < s.enc.outlen.toNat → Memory.read t.enc.outMem a = Memory.read s.enc.outMem a) ∧
    (s.dec.status = .busy → t.dec.status ≠ .error →
      ∀ a, a < s.dec.cursor.toNat → Memory.read t.dec.outMem a = Memory.read s.dec.outMem a)

/-- While an engine is BUSY, no move but reset moves its cursor or pointer back, or past ENC_N, DEC_N or DEC_INLEN (R19, R27,
R28, R31). -/
def Obligations.CursorsNeverMoveBack : Prop :=
  ∀ s t : State, s.Inv → step s = .next t → s.script.head? ≠ some .reset →
    (s.enc.status = .busy → s.enc.cursor.toNat ≤ t.enc.cursor.toNat ∧ t.enc.cursor.toNat ≤ s.enc.n) ∧
    (s.dec.status = .busy → s.dec.rdptr.toNat ≤ t.dec.rdptr.toNat ∧ t.dec.rdptr.toNat ≤ s.dec.inlen.toNat ∧
      s.dec.cursor.toNat ≤ t.dec.cursor.toNat ∧ t.dec.cursor.toNat ≤ s.dec.n)

/-- An engine read of a cell with no value faults, by name and address, wherever its step reads one (R56, U3). ENC's token step: the
bit at the cursor, or the bit at which the run scan, the scan of branch 2, or the 8 bits of branches 3 and 4 first meet one. DEC's
automaton step: the byte at the read pointer. DEC START: the first such byte of the tag, or of the dimensions once the tag
matches. -/
def Obligations.UnwrittenInputFaults : Prop :=
  (∀ (s : State) (ms : List Move), s.script = .engine .enc :: ms → s.enc.status = .busy →
    (∀ (b : Bit) (j : Nat), j < 143 → j = 0 ∨ s.enc.cursor.toNat + j < s.enc.n →
      (∀ t, t < j → Memory.read s.enc.inMem (s.enc.cursor.toNat + t) = some b) →
      Memory.read s.enc.inMem (s.enc.cursor.toNat + j) = none →
      step s = .fault (.encInUnwritten (s.enc.cursor.toNat + j))) ∧
    (∀ (b : Bit) (j j2 : Nat), IsRun s.enc.inMem s.enc.n b s.enc.cursor.toNat 143 j → 1 < j → j < 17 →
      j2 < 16 → s.enc.cursor.toNat + j + j2 < s.enc.n →
      (∀ t, t < j2 → Memory.read s.enc.inMem (s.enc.cursor.toNat + j + t) = some (!b)) →
      Memory.read s.enc.inMem (s.enc.cursor.toNat + j + j2) = none →
      step s = .fault (.encInUnwritten (s.enc.cursor.toNat + j + j2))) ∧
    (∀ (b : Bit) (j j2 x : Nat), IsRun s.enc.inMem s.enc.n b s.enc.cursor.toNat 143 j → 1 ≤ j → j < 17 →
      (1 < j → IsRun s.enc.inMem s.enc.n (!b) (s.enc.cursor.toNat + j) 16 j2 ∧ j + j2 ≤ 16) →
      x < 8 → s.enc.cursor.toNat + x < s.enc.n →
      (∀ t, t < x → (Memory.read s.enc.inMem (s.enc.cursor.toNat + t)).isSome = true) →
      Memory.read s.enc.inMem (s.enc.cursor.toNat + x) = none →
      step s = .fault (.encInUnwritten (s.enc.cursor.toNat + x)))) ∧
  (∀ (s : State) (ms : List Move), s.script = .engine .dec :: ms → s.dec.status = .busy → s.dec.rdptr ≠ s.dec.inlen →
    Memory.read s.dec.inMem s.dec.rdptr.toNat = none → step s = .fault (.decInUnwritten s.dec.rdptr.toNat)) ∧
  (∀ (s : State) (ms : List Move) (v : RegWord) (a : Nat), s.script = .host (.writeReg 9#4 v) :: ms → v.getLsbD 0 = true →
    s.dec.status ≠ .busy → 5 ≤ s.dec.inlen.toNat → a < 5 → Memory.Filled s.dec.inMem 0 a →
    (3 ≤ a → Memory.read s.dec.inMem 0 = some 0x46#8 ∧ Memory.read s.dec.inMem 1 = some 0x43#8 ∧
      Memory.read s.dec.inMem 2 = some 0x30#8) →
    Memory.read s.dec.inMem a = none → step s = .fault (.decInUnwritten a))

/-- The machine stops in no other way than the spec names: on an engine's read of an unwritten cell of its input, inside the range
it may read, in that engine's own step or DEC START; or on a host write to a BUSY engine's memory (R49, R56, R57, R114). With no
move listed the step is an engine's own (log 3). -/
def Obligations.StopsOnlyWhereTheSpecSays : Prop :=
  ∀ s : State, s.Inv →
    (∀ f, step s = .fault f →
      (∃ a, f = .encInUnwritten a ∧ (s.script = [] ∨ s.script.head? = some (.engine .enc)) ∧ s.enc.status = .busy ∧
        s.enc.cursor.toNat ≤ a ∧ a < s.enc.n ∧ Memory.read s.enc.inMem a = none) ∨
      (∃ a, f = .decInUnwritten a ∧ a < s.dec.inlen.toNat ∧ Memory.read s.dec.inMem a = none ∧
        ((s.script = [] ∨ s.script.head? = some (.engine .dec)) ∧ s.dec.status = .busy ∧ a = s.dec.rdptr.toNat ∨
          isStart .dec s.script.head? ∧ s.dec.status ≠ .busy ∧ a < 5))) ∧
    (∀ r, step s = .refused r →
      (∃ m, r = .bitWriteWhileBusy m ∧ s.bitOwner m = .busy ∧
        ((∃ a b, s.script.head? = some (.host (.writeBit m a b))) ∨
          ∃ k v, s.script.head? = some (.host (.writeView m k v)))) ∨
      (∃ m, r = .byteWriteWhileBusy m ∧ s.byteOwner m = .busy ∧
        ∃ a v, s.script.head? = some (.host (.writeByte m a v))))

/-- An engine that is not BUSY has no step: a move given to it changes nothing (R116, R125, R133; log 20). With no move listed the
BUSY engine moves, of two BUSY engines a freely chosen one, and with none BUSY nothing changes (log 3). -/
def Obligations.OnlyBusyEnginesMove : Prop :=
  (∀ (s : State) (ms : List Move), s.script = .engine .enc :: ms → s.enc.status ≠ .busy → step s = .next (s.withScript ms)) ∧
  (∀ (s : State) (ms : List Move), s.script = .engine .dec :: ms → s.dec.status ≠ .busy → step s = .next (s.withScript ms)) ∧
  (∀ s : State, s.script = [] →
    (s.enc.status ≠ .busy → s.dec.status ≠ .busy → step s = .next s) ∧
    (s.enc.status = .busy → s.dec.status ≠ .busy → step s = step (s.withScript [.engine .enc])) ∧
    (s.enc.status ≠ .busy → s.dec.status = .busy → step s = step (s.withScript [.engine .dec])) ∧
    (s.enc.status = .busy → s.dec.status = .busy →
      step s = step (s.drawn.withScript [.engine (if Config.decMoves s.draws = true then .dec else .enc)])))

/-- An opcode-table word placed by `withFetchWord` is what the very next step runs, from any state (log 10, log 11). -/
def Obligations.TableWordRunsNext : Prop :=
  ∀ (s : State) (nbits w : Nat) (i : Instr), decodeTableWord nbits w = some i →
    step (s.withFetchWord nbits w) = exec i ((s.withFetchWord nbits w).withScript s.script)

/-- Reset acts on the block alone: the moves to come, what the host last read and the count of draws stay (the model's own fields;
R131, log 17). -/
def Obligations.ResetKeepsTheHostSide : Prop :=
  ∀ (s : State) (ms : List Move), s.script = .reset :: ms →
    ∃ t, step s = .next t ∧ t.script = ms ∧ t.hostRead = s.hostRead ∧ t.draws = s.draws
end

