-- ==== Sys2Proof/Laws/Memory.lean ====
section
/-! SUPPORT. What the memory operations do: a read after a write, the canonical form kept, consecutive cells; and packing. -/

namespace Sys2Proof.Machine

variable {α : Type}

@[simp] theorem Memory.read_nil (a : Nat) : Memory.read ([] : Memory α) a = none := rfl

/-- A read after a write: the value written at its own address, every other cell as before. -/
theorem Memory.read_write (m : Memory α) (a : Nat) (v : α) (i : Nat) :
    Memory.read (Memory.write m a v) i = if i = a then some v else Memory.read m i := by
  induction m with
  | nil => simp [Memory.write, Memory.read]
  | cons c m ih =>
    obtain ⟨k, x⟩ := c
    simp only [Memory.write]
    split
    · simp [Memory.read]
    · split
      · rename_i h; subst h
        simp only [Memory.read]; split <;> simp_all
      · rename_i hne
        simp only [Memory.read, ih]
        by_cases hi : i = k
        · rw [if_pos hi, if_neg (by omega), if_pos hi]
        · rw [if_neg hi, if_neg hi]

theorem Memory.stored_nil (m : Memory α) (a : Nat) : Memory.Stored m m a [] := by
  intro i; simp

/-- What consecutive writes leave. -/
theorem Memory.writeList_stored (vs : List α) (m : Memory α) (a : Nat) :
    Memory.Stored m (Memory.writeList m a vs) a vs := by
  induction vs generalizing m a with
  | nil => exact Memory.stored_nil m a
  | cons v vs ih =>
    intro i
    rw [Memory.writeList, ih, Memory.read_write]
    by_cases h : i = a
    · subst h
      rw [if_neg (by omega)]
      simp
    · by_cases h2 : a + 1 ≤ i ∧ i < a + 1 + vs.length
      · have h3 : a ≤ i ∧ i < a + (v :: vs).length := by simp; omega
        rw [if_pos h2, if_pos h3]
        have : i - a = i - (a + 1) + 1 := by omega
        rw [this, List.getElem?_cons_succ]
      · have h3 : ¬ (a ≤ i ∧ i < a + (v :: vs).length) := by simp; omega
        rw [if_neg h2, if_neg h3, if_neg h]

theorem Memory.read_writeList (m : Memory α) (a : Nat) (vs : List α) (i : Nat) :
    Memory.read (Memory.writeList m a vs) i =
      if a ≤ i ∧ i < a + vs.length then vs[i - a]? else Memory.read m i :=
  Memory.writeList_stored vs m a i

theorem Memory.risingFrom_mono {low low' : Nat} (h : low' ≤ low) (m : Memory α)
    (hm : Memory.risingFrom low m = true) : Memory.risingFrom low' m = true := by
  cases m with
  | nil => rfl
  | cons c m =>
    obtain ⟨k, x⟩ := c
    simp only [Memory.risingFrom, Bool.and_eq_true, decide_eq_true_eq] at *
    exact ⟨⟨by omega, hm.1.2⟩, hm.2⟩

theorem Memory.risingFrom_write (m : Memory α) (low a : Nat) (v : α) (hl : low ≤ a) (ha : a < spaceSize)
    (hm : Memory.risingFrom low m = true) : Memory.risingFrom low (Memory.write m a v) = true := by
  induction m generalizing low with
  | nil => simp [Memory.write, Memory.risingFrom, hl, ha]
  | cons c m ih =>
    obtain ⟨k, x⟩ := c
    simp only [Memory.risingFrom, Bool.and_eq_true, decide_eq_true_eq] at hm
    simp only [Memory.write]
    split
    · simp only [Memory.risingFrom, Bool.and_eq_true, decide_eq_true_eq]
      exact ⟨⟨hl, ha⟩, ⟨by omega, hm.1.2⟩, hm.2⟩
    · split
      · simp only [Memory.risingFrom, Bool.and_eq_true, decide_eq_true_eq]
        exact ⟨⟨hl, ha⟩, by simp_all⟩
      · simp only [Memory.risingFrom, Bool.and_eq_true, decide_eq_true_eq]
        exact ⟨hm.1, ih (k + 1) (by omega) hm.2⟩

/-- A write inside the space keeps the canonical form. -/
theorem Memory.wf_write (m : Memory α) (a : Nat) (v : α) (ha : a < spaceSize) (hm : Memory.wf m = true) :
    Memory.wf (Memory.write m a v) = true :=
  Memory.risingFrom_write m 0 a v (Nat.zero_le a) ha hm

/-- Consecutive writes inside the space keep the canonical form. -/
theorem Memory.wf_writeList (vs : List α) (m : Memory α) (a : Nat) (ha : a + vs.length ≤ spaceSize)
    (hm : Memory.wf m = true) : Memory.wf (Memory.writeList m a vs) = true := by
  induction vs generalizing m a with
  | nil => exact hm
  | cons v vs ih =>
    simp only [List.length_cons] at ha
    exact ih _ _ (by omega) (Memory.wf_write m a v (by omega) hm)

@[simp] theorem Memory.wf_nil : Memory.wf ([] : Memory α) = true := rfl

/-- A list of consecutive cells read: it has the asked length and holds the cells. -/
theorem Memory.readList_ok {m : Memory α} {a k : Nat} {xs : List α} (h : Memory.readList m a k = .ok xs) :
    xs.length = k ∧ ∀ t, t < k → Memory.read m (a + t) = xs[t]? := by
  induction k generalizing a xs with
  | zero => simp [Memory.readList] at h; subst h; simp
  | succ k ih =>
    simp only [Memory.readList] at h
    split at h
    · simp at h
    · rename_i x hx
      split at h
      · simp at h
      · rename_i ys hys
        simp only [Except.ok.injEq] at h; subst h
        obtain ⟨hl, hr⟩ := ih hys
        refine ⟨by simp [hl], fun t ht => ?_⟩
        cases t with
        | zero => simpa using hx
        | succ t =>
          have := hr t (by omega)
          rw [List.getElem?_cons_succ, ← this]
          congr 1; omega

/-- What a failed read of consecutive cells says: the address it reports is one of them and holds no value. -/
theorem Memory.readList_error {m : Memory α} {a k b : Nat} (h : Memory.readList m a k = .error b) :
    a ≤ b ∧ b < a + k ∧ Memory.read m b = none := by
  induction k generalizing a with
  | zero => simp [Memory.readList] at h
  | succ k ih =>
    simp only [Memory.readList] at h
    split at h
    · simp at h; subst h; exact ⟨by omega, by omega, by assumption⟩
    · split at h
      · rename_i hb
        simp at h; subst h
        obtain ⟨i1, i2, i3⟩ := ih hb
        exact ⟨by omega, by omega, i3⟩
      · simp at h

/-- Consecutive cells of which one holds no value and none before it: the read reports that one. -/
theorem Memory.readList_unwritten {m : Memory α} {a k x : Nat} (hx : x < k)
    (h : ∀ t, t < x → (Memory.read m (a + t)).isSome = true) (hn : Memory.read m (a + x) = none) :
    Memory.readList m a k = .error (a + x) := by
  induction x generalizing a k with
  | zero =>
    obtain ⟨k, rfl⟩ : ∃ l, k = l + 1 := ⟨k - 1, by omega⟩
    simp only [Nat.add_zero] at hn
    simp [Memory.readList, hn]
  | succ x ih =>
    obtain ⟨k, rfl⟩ : ∃ l, k = l + 1 := ⟨k - 1, by omega⟩
    obtain ⟨y, hy⟩ := Option.isSome_iff_exists.mp (h 0 (by omega))
    rw [show a + (x + 1) = a + 1 + x by omega] at hn ⊢
    have := ih (a := a + 1) (k := k) (by omega)
      (fun t ht => by rw [show a + 1 + t = a + (t + 1) by omega]; exact h (t + 1) (by omega)) hn
    simp only [Nat.add_zero] at hy
    simp only [Memory.readList, hy, this]

/-- Cells that hold these values read as them. -/
theorem Memory.readList_of_reads {m : Memory α} {a : Nat} {xs : List α}
    (h : ∀ t, t < xs.length → Memory.read m (a + t) = xs[t]?) : Memory.readList m a xs.length = .ok xs := by
  induction xs generalizing a with
  | nil => rfl
  | cons x xs ih =>
    simp only [List.length_cons, Memory.readList]
    have h0 := h 0 (by simp)
    simp at h0
    rw [h0, ih]
    intro t ht
    have := h (t + 1) (by simpa using ht)
    rw [List.getElem?_cons_succ] at this
    rw [← this]; congr 1; omega

/-- Written cells can be read. -/
theorem Memory.readList_of_filled {m : Memory α} {a k : Nat} (h : Memory.Filled m a (a + k)) :
    ∃ xs, Memory.readList m a k = .ok xs := by
  induction k generalizing a with
  | zero => exact ⟨[], rfl⟩
  | succ k ih =>
    obtain ⟨x, hx⟩ := Option.isSome_iff_exists.mp (h a (by omega) (by omega))
    obtain ⟨xs, hxs⟩ := ih (a := a + 1) (fun i h1 h2 => h i (by omega) (by omega))
    exact ⟨x :: xs, by simp [Memory.readList, hx, hxs]⟩

/-- Memories that agree on the cells read give the same list. -/
theorem Memory.readList_congr {m m' : Memory α} {a k : Nat}
    (h : ∀ i, a ≤ i → i < a + k → Memory.read m i = Memory.read m' i) :
    Memory.readList m a k = Memory.readList m' a k := by
  induction k generalizing a with
  | zero => rfl
  | succ k ih =>
    simp only [Memory.readList]
    rw [h a (by omega) (by omega), ih (fun i h1 h2 => h i (by omega) (by omega))]

/-- Cells stay written when more is stored. -/
theorem Memory.Filled.stored {m m' : Memory α} {a b c : Nat} {vs : List α} (h : Memory.Filled m a b)
    (hs : Memory.Stored m m' c vs) : Memory.Filled m' a b := by
  intro i h1 h2
  rw [hs i]
  split
  · rename_i hc
    simp; omega
  · exact h i h1 h2

/-- Storing right after a written range extends it. -/
theorem Memory.Filled.append {m m' : Memory α} {a b : Nat} {vs : List α} (h : Memory.Filled m a b)
    (hs : Memory.Stored m m' b vs) : Memory.Filled m' a (b + vs.length) := by
  intro i h1 h2
  by_cases hb : i < b
  · exact h.stored hs i h1 hb
  · rw [hs i, if_pos (by omega)]
    simp; omega

/-- Two stores, the second right after the first. -/
theorem Memory.Stored.trans {m m' m'' : Memory α} {a : Nat} {vs ws : List α} (h1 : Memory.Stored m m' a vs)
    (h2 : Memory.Stored m' m'' (a + vs.length) ws) : Memory.Stored m m'' a (vs ++ ws) := by
  intro i
  rw [h2 i, h1 i]
  simp only [List.length_append]
  by_cases hv : i < a + vs.length
  · rw [if_neg (by omega)]
    by_cases ha : a ≤ i
    · rw [if_pos ⟨ha, hv⟩, if_pos ⟨ha, by omega⟩, List.getElem?_append_left (by omega)]
    · rw [if_neg (by omega), if_neg (by omega)]
  · by_cases hw : i < a + vs.length + ws.length
    · rw [if_pos ⟨by omega, hw⟩, if_pos ⟨by omega, by omega⟩, List.getElem?_append_right (by omega)]
      congr 1; omega
    · rw [if_neg (by omega), if_neg (by omega), if_neg (by omega)]

/-- Packing eight bits and unpacking gives them back (R50). -/
theorem unpack_pack8 : ∀ b7 b6 b5 b4 b3 b2 b1 b0 : Bit,
    unpack (pack [b7, b6, b5, b4, b3, b2, b1, b0]) = [b7, b6, b5, b4, b3, b2, b1, b0] := by decide

/-- Unpacking a byte and packing gives it back (R50). -/
theorem pack_unpack (v : Byte) : pack (unpack v) = v := by
  have : ∀ v : BitVec 8, pack (unpack v) = v := by decide
  exact this v

/-- Fewer than 8 bits are padded with zeros (R50, D7). -/
theorem pack_pad (bs : List Bit) : pack bs = pack (bs ++ List.replicate (8 - bs.length) false) := by
  have key : ∀ (t : Nat) (bs : List Bit) (k : Nat), packFrom t (bs ++ List.replicate k false) = packFrom t bs := by
    intro t bs k
    induction bs generalizing t with
    | nil =>
      simp only [List.nil_append, packFrom]
      induction k generalizing t with
      | zero => cases t <;> rfl
      | succ k ih => cases t <;> simp [List.replicate_succ, packFrom, ih]
    | cons b bs ih => cases t <;> simp [packFrom, ih]
  rw [pack, pack, key]

@[simp] theorem unpack_length (v : Byte) : (unpack v).length = 8 := rfl

/-- At most 8 bits packed and unpacked are those bits, then zeros (R50). -/
theorem unpack_pack {bs : List Bit} (h : bs.length ≤ 8) :
    unpack (pack bs) = bs ++ List.replicate (8 - bs.length) false := by
  rw [pack_pad]
  have hl : (bs ++ List.replicate (8 - bs.length) false).length = 8 := by simp; omega
  generalize bs ++ List.replicate (8 - bs.length) false = cs at hl
  match cs, hl with
  | [b7, b6, b5, b4, b3, b2, b1, b0], _ => exact unpack_pack8 b7 b6 b5 b4 b3 b2 b1 b0

end Sys2Proof.Machine
end

