-- ==== Sys2Proof/Laws/State.lean ====
section
/-! SUPPORT. One lemma per field of State per update. -/

namespace Sys2Proof.Machine

@[simp] theorem State.withEnc_enc (s : State) (e : EncState) : (s.withEnc e).enc = e := rfl
@[simp] theorem State.withEnc_dec (s : State) (e : EncState) : (s.withEnc e).dec = s.dec := rfl
@[simp] theorem State.withEnc_script (s : State) (e : EncState) : (s.withEnc e).script = s.script := rfl
@[simp] theorem State.withEnc_hostRead (s : State) (e : EncState) : (s.withEnc e).hostRead = s.hostRead := rfl
@[simp] theorem State.withEnc_draws (s : State) (e : EncState) : (s.withEnc e).draws = s.draws := rfl

@[simp] theorem State.withDec_enc (s : State) (d : DecState) : (s.withDec d).enc = s.enc := rfl
@[simp] theorem State.withDec_dec (s : State) (d : DecState) : (s.withDec d).dec = d := rfl
@[simp] theorem State.withDec_script (s : State) (d : DecState) : (s.withDec d).script = s.script := rfl
@[simp] theorem State.withDec_hostRead (s : State) (d : DecState) : (s.withDec d).hostRead = s.hostRead := rfl
@[simp] theorem State.withDec_draws (s : State) (d : DecState) : (s.withDec d).draws = s.draws := rfl

@[simp] theorem State.withScript_enc (s : State) (ms : List Move) : (s.withScript ms).enc = s.enc := rfl
@[simp] theorem State.withScript_dec (s : State) (ms : List Move) : (s.withScript ms).dec = s.dec := rfl
@[simp] theorem State.withScript_script (s : State) (ms : List Move) : (s.withScript ms).script = ms := rfl
@[simp] theorem State.withScript_hostRead (s : State) (ms : List Move) : (s.withScript ms).hostRead = s.hostRead := rfl
@[simp] theorem State.withScript_draws (s : State) (ms : List Move) : (s.withScript ms).draws = s.draws := rfl

@[simp] theorem State.withHostRead_enc (s : State) (v : HostData) : (s.withHostRead v).enc = s.enc := rfl
@[simp] theorem State.withHostRead_dec (s : State) (v : HostData) : (s.withHostRead v).dec = s.dec := rfl
@[simp] theorem State.withHostRead_script (s : State) (v : HostData) : (s.withHostRead v).script = s.script := rfl
@[simp] theorem State.withHostRead_hostRead (s : State) (v : HostData) : (s.withHostRead v).hostRead = some v := rfl
@[simp] theorem State.withHostRead_draws (s : State) (v : HostData) : (s.withHostRead v).draws = s.draws := rfl

@[simp] theorem State.drawn_enc (s : State) : s.drawn.enc = s.enc := rfl
@[simp] theorem State.drawn_dec (s : State) : s.drawn.dec = s.dec := rfl
@[simp] theorem State.drawn_script (s : State) : s.drawn.script = s.script := rfl
@[simp] theorem State.drawn_hostRead (s : State) : s.drawn.hostRead = s.hostRead := rfl
@[simp] theorem State.drawn_draws (s : State) : s.drawn.draws = s.draws + 1 := rfl

end Sys2Proof.Machine
end

