-- ==== Sys2Proof/Laws/Ops.lean ====
section
/-! SUPPORT. What the shared operations on an engine do, once each: emitting bytes, the clamped writer, consuming a byte, the ends of
steps, raising an error. -/

namespace Sys2Proof.Machine

/-! ## Bounds -/

theorem DecState.n_le (d : DecState) : d.n ≤ 65025 := by
  have h1 := d.width.isLt
  have h2 := d.height.isLt
  calc d.n = d.width.toNat * d.height.toNat := rfl
    _ ≤ 255 * 255 := Nat.mul_le_mul (by omega) (by omega)

theorem EncState.n_le (e : EncState) : e.n ≤ 65025 := by
  have h1 := e.width.isLt
  have h2 := e.height.isLt
  calc e.n = e.width.toNat * e.height.toNat := rfl
    _ ≤ 255 * 255 := Nat.mul_le_mul (by omega) (by omega)

/-- A 16-bit addition that stays in its width is exact (R11). -/
theorem half_add {c : Half} {k : Nat} (h : c.toNat + k < 65536) : (c + BitVec.ofNat 16 k).toNat = c.toNat + k := by
  rw [BitVec.toNat_add, BitVec.toNat_ofNat]
  omega

/-! ## The clamped writer -/

theorem DecState.room_le (k : Nat) (d : DecState) : d.room k ≤ d.n - d.cursor.toNat := Nat.min_le_right _ _

theorem DecState.put_cursor (b : Bit) (k : Nat) (d : DecState) :
    (d.put b k).cursor.toNat = d.cursor.toNat + min k (d.n - d.cursor.toNat) := by
  have h1 := d.n_le
  have h2 := d.cursor.isLt
  have h3 := d.room_le k
  show (d.cursor + BitVec.ofNat 16 (d.room k)).toNat = _
  rw [half_add (by omega)]
  rfl

@[simp] theorem DecState.put_n (b : Bit) (k : Nat) (d : DecState) : (d.put b k).n = d.n := rfl
@[simp] theorem DecState.put_status (b : Bit) (k : Nat) (d : DecState) : (d.put b k).status = d.status := rfl
@[simp] theorem DecState.put_phase (b : Bit) (k : Nat) (d : DecState) : (d.put b k).phase = d.phase := rfl
@[simp] theorem DecState.put_latch (b : Bit) (k : Nat) (d : DecState) : (d.put b k).latch = d.latch := rfl
@[simp] theorem DecState.put_errcode (b : Bit) (k : Nat) (d : DecState) : (d.put b k).errcode = d.errcode := rfl
@[simp] theorem DecState.put_inlen (b : Bit) (k : Nat) (d : DecState) : (d.put b k).inlen = d.inlen := rfl
@[simp] theorem DecState.put_width (b : Bit) (k : Nat) (d : DecState) : (d.put b k).width = d.width := rfl
@[simp] theorem DecState.put_height (b : Bit) (k : Nat) (d : DecState) : (d.put b k).height = d.height := rfl
@[simp] theorem DecState.put_rdptr (b : Bit) (k : Nat) (d : DecState) : (d.put b k).rdptr = d.rdptr := rfl
@[simp] theorem DecState.put_inMem (b : Bit) (k : Nat) (d : DecState) : (d.put b k).inMem = d.inMem := rfl

/-- Everything `put` does (R99). -/
theorem DecState.put_wrote (b : Bit) (k : Nat) (d : DecState) : d.Wrote (d.put b k) (List.replicate k b) := by
  refine ⟨by simpa using d.put_cursor b k, ?_⟩
  have h := Memory.writeList_stored (List.replicate (d.room k) b) d.outMem d.cursor.toNat
  rw [List.take_replicate, Nat.min_comm]
  exact h

/-- Two clamped writes, the second after the first, are one (R99). -/
theorem DecState.Wrote.trans {d d' d'' : DecState} {bs cs : List Bit} (h1 : d.Wrote d' bs) (h2 : d'.Wrote d'' cs)
    (hn : d'.n = d.n) : d.Wrote d'' (bs ++ cs) := by
  obtain ⟨c1, s1⟩ := h1
  obtain ⟨c2, s2⟩ := h2
  rw [hn] at c2 s2
  refine ⟨by rw [List.length_append]; omega, ?_⟩
  have hc : d'.cursor.toNat = d.cursor.toNat + (bs.take (d.n - d.cursor.toNat)).length := by
    rw [List.length_take]; omega
  rw [hc] at s2
  have := s1.trans s2
  rw [List.take_append]
  convert this using 3
  rw [List.length_take]; omega

theorem DecState.Wrote.nil (d : DecState) : d.Wrote d [] := by
  refine ⟨by simp, ?_⟩
  simpa using Memory.stored_nil d.outMem d.cursor.toNat

@[simp] theorem DecState.putBits_n (bs : List Bit) (d : DecState) : (DecState.putBits bs d).n = d.n := by
  induction bs generalizing d with
  | nil => rfl
  | cons b bs ih => rw [DecState.putBits, ih, put_n]

/-- `putBits` leaves every register but the write cursor as it is. -/
theorem DecState.putBits_regs (bs : List Bit) (d : DecState) :
    (DecState.putBits bs d).status = d.status ∧ (DecState.putBits bs d).phase = d.phase ∧
    (DecState.putBits bs d).latch = d.latch ∧ (DecState.putBits bs d).errcode = d.errcode ∧
    (DecState.putBits bs d).rdptr = d.rdptr ∧ d.SameInputs (DecState.putBits bs d) := by
  induction bs generalizing d with
  | nil => exact ⟨rfl, rfl, rfl, rfl, rfl, rfl, rfl, rfl, rfl⟩
  | cons b bs ih =>
    rw [DecState.putBits]
    exact ih (d.put b 1)

/-- Everything `putBits` does to DEC_OUT and the write cursor (R99, R102). -/
theorem DecState.putBits_wrote (bs : List Bit) (d : DecState) : d.Wrote (DecState.putBits bs d) bs := by
  induction bs generalizing d with
  | nil => exact Wrote.nil d
  | cons b bs ih => exact (d.put_wrote b 1).trans (ih (d.put b 1)) rfl

/-- Nothing above DEC_N is ever written, so DEC_OUT keeps its form (R49). -/
theorem DecState.put_wf (b : Bit) (k : Nat) (d : DecState) (h : Memory.wf d.outMem = true) :
    Memory.wf (d.put b k).outMem = true := by
  have h1 := d.n_le
  have h2 := d.cursor.isLt
  have h3 := d.room_le k
  exact Memory.wf_writeList _ _ _ (by simp only [List.length_replicate, spaceSize]; omega) h

theorem DecState.putBits_wf (bs : List Bit) (d : DecState) (h : Memory.wf d.outMem = true) :
    Memory.wf (DecState.putBits bs d).outMem = true := by
  induction bs generalizing d with
  | nil => exact h
  | cons b bs ih => exact ih _ (d.put_wf b 1 h)

/-! ## Ends of steps -/

@[simp] theorem DecState.finish_n (d : DecState) : d.finish.n = d.n := by unfold finish; split <;> rfl
@[simp] theorem DecState.finish_phase (d : DecState) : d.finish.phase = d.phase := by unfold finish; split <;> rfl
@[simp] theorem DecState.finish_latch (d : DecState) : d.finish.latch = d.latch := by unfold finish; split <;> rfl
@[simp] theorem DecState.finish_errcode (d : DecState) : d.finish.errcode = d.errcode := by unfold finish; split <;> rfl
@[simp] theorem DecState.finish_inlen (d : DecState) : d.finish.inlen = d.inlen := by unfold finish; split <;> rfl
@[simp] theorem DecState.finish_width (d : DecState) : d.finish.width = d.width := by unfold finish; split <;> rfl
@[simp] theorem DecState.finish_height (d : DecState) : d.finish.height = d.height := by unfold finish; split <;> rfl
@[simp] theorem DecState.finish_rdptr (d : DecState) : d.finish.rdptr = d.rdptr := by unfold finish; split <;> rfl
@[simp] theorem DecState.finish_cursor (d : DecState) : d.finish.cursor = d.cursor := by unfold finish; split <;> rfl
@[simp] theorem DecState.finish_inMem (d : DecState) : d.finish.inMem = d.inMem := by unfold finish; split <;> rfl
@[simp] theorem DecState.finish_outMem (d : DecState) : d.finish.outMem = d.outMem := by unfold finish; split <;> rfl

theorem DecState.finish_status (d : DecState) : d.finish.status = statusAfter d.status d.cursor.toNat d.n := by
  unfold finish statusAfter; split <;> rfl

/-- The end of a token's step, when `d'` is what the clamped writer left of `d` with its byte consumed. -/
theorem DecState.tokenDone_finish {d c d' : DecState} {bits : List Bit} (hw : c.Wrote d' bits) (hi : c.SameInputs d')
    (hc : c.cursor = d.cursor) (ho : c.outMem = d.outMem) (hci : d.SameInputs c) (hr : c.rdptr = d.rdptr + 1#16)
    (hs : c.status = d.status) (hl : c.latch = d.latch) (he : c.errcode = d.errcode)
    (hr' : d'.rdptr = c.rdptr) (hs' : d'.status = c.status) (hl' : d'.latch = c.latch) (he' : d'.errcode = c.errcode) :
    d.TokenDone d'.finish bits := by
  obtain ⟨i1, i2, i3, i4⟩ := hi
  obtain ⟨j1, j2, j3, j4⟩ := hci
  have hn : c.n = d.n := by simp [DecState.n, j2, j3]
  have hn' : d'.n = d.n := by simp [DecState.n, i2, i3, j2, j3]
  refine ⟨?_, by simp [hr', hr], ?_, by simp [hl', hl], by simp [he', he], ?_⟩
  · obtain ⟨w1, w2⟩ := hw
    rw [hn, hc] at w1 w2
    rw [ho] at w2
    exact ⟨by simpa using w1, by simpa using w2⟩
  · rw [DecState.finish_status, hn', hs', hs, DecState.finish_cursor]
  · exact ⟨by simp [i1, j1], by simp [i2, j2], by simp [i3, j3], by simp [i4, j4]⟩

/-! ## The byte sink -/

@[simp] theorem EncState.emit_n (v : Byte) (e : EncState) : (e.emit v).n = e.n := rfl

/-- `emitAll` leaves every register but ENC_OUTLEN as it is. -/
theorem EncState.emitAll_regs (vs : List Byte) (e : EncState) :
    (EncState.emitAll vs e).status = e.status ∧ (EncState.emitAll vs e).errcode = e.errcode ∧
    (EncState.emitAll vs e).width = e.width ∧ (EncState.emitAll vs e).height = e.height ∧
    (EncState.emitAll vs e).cursor = e.cursor ∧ (EncState.emitAll vs e).counts = e.counts ∧
    (EncState.emitAll vs e).inMem = e.inMem := by
  induction vs generalizing e with
  | nil => exact ⟨rfl, rfl, rfl, rfl, rfl, rfl, rfl⟩
  | cons v vs ih => exact ih (e.emit v)

/-- What `emitAll` does to ENC_OUT and ENC_OUTLEN while the length stays in its width (R92). -/
theorem EncState.emitAll_stored (vs : List Byte) (e : EncState) (h : e.outlen.toNat + vs.length < 65536) :
    (EncState.emitAll vs e).outlen.toNat = e.outlen.toNat + vs.length ∧
    (EncState.emitAll vs e).outMem = Memory.writeList e.outMem e.outlen.toNat vs := by
  induction vs generalizing e with
  | nil => exact ⟨rfl, rfl⟩
  | cons v vs ih =>
    simp only [List.length_cons] at h
    have h1 : (e.emit v).outlen.toNat = e.outlen.toNat + 1 := half_add (c := e.outlen) (k := 1) (by omega)
    obtain ⟨a, b⟩ := ih (e.emit v) (by omega)
    refine ⟨by simp only [emitAll, List.length_cons]; omega, ?_⟩
    rw [emitAll, b, h1]
    rfl

theorem EncState.finish_status (e : EncState) : e.finish.status = statusAfter e.status e.cursor.toNat e.n := by
  unfold finish statusAfter; split <;> rfl

/-- `finish` changes nothing but STATE. -/
theorem EncState.finish_regs (e : EncState) :
    e.finish.errcode = e.errcode ∧ e.finish.width = e.width ∧ e.finish.height = e.height ∧ e.finish.cursor = e.cursor ∧
    e.finish.outlen = e.outlen ∧ e.finish.counts = e.counts ∧ e.finish.inMem = e.inMem ∧ e.finish.outMem = e.outMem := by
  unfold finish; split <;> exact ⟨rfl, rfl, rfl, rfl, rfl, rfl, rfl, rfl⟩

/-- `count` changes nothing but one counter. -/
theorem EncState.count_regs (i : Instr) (e : EncState) :
    (e.count i).status = e.status ∧ (e.count i).errcode = e.errcode ∧ (e.count i).width = e.width ∧
    (e.count i).height = e.height ∧ (e.count i).cursor = e.cursor ∧ (e.count i).outlen = e.outlen ∧
    (e.count i).inMem = e.inMem ∧ (e.count i).outMem = e.outMem := by
  cases i <;> exact ⟨rfl, rfl, rfl, rfl, rfl, rfl, rfl, rfl⟩

/-! ## Raising an error -/

@[simp] theorem DecState.raise_status (c : ErrCode) (d : DecState) : (d.raise c).status = .error := rfl
@[simp] theorem DecState.raise_errcode (c : ErrCode) (d : DecState) : (d.raise c).errcode = c.bits := rfl
@[simp] theorem DecState.raise_outMem (c : ErrCode) (d : DecState) : (d.raise c).outMem = [] := rfl
@[simp] theorem DecState.raise_phase (c : ErrCode) (d : DecState) : (d.raise c).phase = d.phase := rfl
@[simp] theorem DecState.raise_latch (c : ErrCode) (d : DecState) : (d.raise c).latch = d.latch := rfl
@[simp] theorem DecState.raise_inlen (c : ErrCode) (d : DecState) : (d.raise c).inlen = d.inlen := rfl
@[simp] theorem DecState.raise_width (c : ErrCode) (d : DecState) : (d.raise c).width = d.width := rfl
@[simp] theorem DecState.raise_height (c : ErrCode) (d : DecState) : (d.raise c).height = d.height := rfl
@[simp] theorem DecState.raise_rdptr (c : ErrCode) (d : DecState) : (d.raise c).rdptr = d.rdptr := rfl
@[simp] theorem DecState.raise_cursor (c : ErrCode) (d : DecState) : (d.raise c).cursor = d.cursor := rfl
@[simp] theorem DecState.raise_inMem (c : ErrCode) (d : DecState) : (d.raise c).inMem = d.inMem := rfl
@[simp] theorem DecState.raise_n (c : ErrCode) (d : DecState) : (d.raise c).n = d.n := rfl

end Sys2Proof.Machine
end

