-- ==== Sys2Proof/Laws/PerInstr.lean ====
section
/-! SUPPORT. Families of statements made per instruction: one lemma per constructor of Instr. -/

namespace Sys2Proof.Laws.EncodeLength

/-- The encoding of an instruction has the bytes its format gives it (R64, R71). -/
def Statement (i : Instr) : Prop := (encode i).length = i.length

theorem header (width height : Byte) : Statement (.header width height) := rfl

theorem escapeC3 : Statement .escapeC3 := rfl

theorem escape3D : Statement .escape3D := rfl

theorem escape65 : Statement .escape65 := rfl

theorem longRun (bit : Bit) (len7 : BitVec 7) : Statement (.longRun bit len7) := rfl

theorem dualRun1 (len1m1 len2m1 : BitVec 4) : Statement (.dualRun1 len1m1 len2m1) := rfl

theorem dualRun0 (len1m1 len2m1 : BitVec 4) : Statement (.dualRun0 len1m1 len2m1) := rfl

theorem verbatim (byte : Byte) : Statement (.verbatim byte) := rfl

end Sys2Proof.Laws.EncodeLength
end

