-- ==== Sys2Proof/Laws/Tokenizer.lean ====
section
/-! SUPPORT. What the tokenizer answers (spec/40_tokenizer.md): the run scan is the run, and each branch's token with what it
consumes. -/

namespace Sys2Proof.Machine

theorem encInBit_ok {m : Memory Bit} {i : Nat} {b : Bit} : encInBit m i = .ok b ↔ Memory.read m i = some b := by
  unfold encInBit
  split <;> simp_all

theorem encInBits_ok {m : Memory Bit} {a k : Nat} {bs : List Bit} :
    encInBits m a k = .ok bs ↔ Memory.readList m a k = .ok bs := by
  unfold encInBits
  split <;> simp_all

/-- The run is unique. -/
theorem IsRun.unique {m : Memory Bit} {n : Nat} {v : Bit} {p cap k k' : Nat} (h : IsRun m n v p cap k)
    (h' : IsRun m n v p cap k') : k = k' := by
  obtain ⟨a1, a2, a3⟩ := h
  obtain ⟨b1, b2, b3⟩ := h'
  rcases Nat.lt_trichotomy k k' with h | h | h
  · have := b2 k h
    rw [a3 (by omega)] at this
    cases v <;> simp at this
  · exact h
  · have := a2 k' h
    rw [b3 (by omega)] at this
    cases v <;> simp at this

/-- Where `IsRun` gives the run, the scan returns it (R79). -/
theorem runScan_of_isRun {m : Memory Bit} {n : Nat} {v : Bit} {p cap k : Nat} (h : IsRun m n v p cap k) :
    runScan m n v p cap = .ok k := by
  induction cap generalizing p k with
  | zero =>
    obtain ⟨h1, -, -⟩ := h
    have : k = 0 := by omega
    subst this; rfl
  | succ cap ih =>
    obtain ⟨h1, h2, h3⟩ := h
    simp only [runScan]
    by_cases hp : p < n
    · rw [if_pos hp]
      cases k with
      | zero =>
        have hb := h3 (by omega)
        rw [Nat.add_zero] at hb
        rw [encInBit_ok.mpr hb]
        cases v <;> simp
      | succ k =>
        have hb := h2 0 (by omega)
        rw [Nat.add_zero] at hb
        rw [encInBit_ok.mpr hb]
        have hr : IsRun m n v (p + 1) cap k := by
          refine ⟨by omega, fun t ht => ?_, fun hk => ?_⟩
          · rw [← h2 (t + 1) (by omega)]; congr 1; omega
          · rw [← h3 (by omega)]; congr 1; omega
        simp [ih hr]
    · rw [if_neg hp]
      have : k = 0 := by omega
      subst this; rfl

/-- What the scan returns is the run (R79). -/
theorem isRun_of_runScan {m : Memory Bit} {n : Nat} {v : Bit} {p cap k : Nat} (h : runScan m n v p cap = .ok k) :
    IsRun m n v p cap k := by
  induction cap generalizing p k with
  | zero =>
    simp [runScan] at h; subst h
    exact ⟨by omega, by omega, by omega⟩
  | succ cap ih =>
    simp only [runScan] at h
    by_cases hp : p < n
    · rw [if_pos hp] at h
      split at h
      · simp at h
      · rename_i b hb
        rw [encInBit_ok] at hb
        split at h
        · rename_i hv
          split at h
          · simp at h
          · rename_i k' hk'
            simp only [Except.ok.injEq] at h; subst h
            obtain ⟨r1, r2, r3⟩ := ih hk'
            refine ⟨by omega, fun t ht => ?_, fun hk => ?_⟩
            · cases t with
              | zero => simpa [hv] using hb
              | succ t => rw [← r2 t (by omega)]; congr 1; omega
            · rw [← r3 (by omega)]; congr 1; omega
        · rename_i hv
          simp only [Except.ok.injEq] at h; subst h
          refine ⟨by omega, by omega, fun _ => ?_⟩
          rw [Nat.add_zero, hb]
          cases v <;> cases b <;> simp_all
    · rw [if_neg hp] at h
      simp only [Except.ok.injEq] at h; subst h
      exact ⟨by omega, by omega, by omega⟩

/-- On written bits the scan finds a run. -/
theorem exists_isRun {m : Memory Bit} {n p : Nat} (v : Bit) (cap : Nat) (h : Memory.Filled m p (min n (p + cap))) :
    ∃ k, IsRun m n v p cap k := by
  induction cap generalizing p with
  | zero => exact ⟨0, by omega, by omega, by omega⟩
  | succ cap ih =>
    by_cases hp : p < n
    · obtain ⟨b, hb⟩ := Option.isSome_iff_exists.mp (h p (by omega) (by omega))
      by_cases hv : b = v
      · obtain ⟨k, r1, r2, r3⟩ := ih (p := p + 1) (fun i h1 h2 => h i (by omega) (by omega))
        refine ⟨k + 1, by omega, fun t ht => ?_, fun hk => ?_⟩
        · cases t with
          | zero => simpa [hv] using hb
          | succ t => rw [← r2 t (by omega)]; congr 1; omega
        · rw [← r3 (by omega)]; congr 1; omega
      · refine ⟨0, by omega, by omega, fun _ => ?_⟩
        rw [Nat.add_zero, hb]
        cases v <;> cases b <;> simp_all
    · exact ⟨0, by omega, by omega, by omega⟩

theorem escapeToken_some {p : Byte} {i : Instr} (h : escapeToken p = some i) :
    isMarker p = true ∧ encode i = [p, 0#8] ∧ i.isToken = true ∧ i.wf = true ∧ i.canonical = true ∧
      tokenBits i = unpack p := by
  unfold escapeToken at h
  split at h
  · rename_i hp; subst hp; simp at h; subst h; decide
  · split at h
    · rename_i hp; subst hp; simp at h; subst h; decide
    · split at h
      · rename_i hp; subst hp; simp at h; subst h; decide
      · simp at h

theorem escapeToken_none {p : Byte} (h : escapeToken p = none) : isMarker p = false := by
  unfold escapeToken at h
  split at h
  · simp at h
  · split at h
    · simp at h
    · split at h
      · simp at h
      · rename_i h1 h2 h3
        simp [isMarker, h1, h2, h3]

/-- The branch that gave a token (R80 to R84), for the token `i` and the `k` bits it consumes. -/
inductive Branch (m : Memory Bit) (n c : Nat) : Instr → Nat → Prop where
  | long (b : Bit) (j : Nat) (hr : IsRun m n b c 143 j) (hj : 17 ≤ j) : Branch m n c (longToken b j) j
  | dual (b : Bit) (j j2 : Nat) (hr : IsRun m n b c 143 j) (h1 : 1 < j) (h17 : j < 17)
      (hr2 : IsRun m n (!b) (c + j) 16 j2) (hs : 16 < j + j2) : Branch m n c (dualToken b j j2) (j + j2)
  | escape (i : Instr) (bs : List Bit) (h8 : 8 ≤ n - c) (hb : Memory.readList m c 8 = .ok bs)
      (hi : escapeToken (pack bs) = some i) : Branch m n c i 8
  | verbatim (bs : List Bit) (hb : Memory.readList m c (min 8 (n - c)) = .ok bs)
      (hm : 8 ≤ n - c → isMarker (pack bs) = false) : Branch m n c (.verbatim (pack bs)) (min 8 (n - c))

theorem tokenizeLiteral_branch {m : Memory Bit} {n c : Nat} {i : Instr} {k : Nat}
    (h : tokenizeLiteral m n c = .ok (i, k)) : Branch m n c i k := by
  unfold tokenizeLiteral tryEscape at h
  by_cases h8 : 8 ≤ n - c
  · rw [if_pos h8] at h
    cases hb : encInBits m c 8 with
    | error f => simp [hb] at h
    | ok bs =>
      have hb' := encInBits_ok.mp hb
      cases he : escapeToken (pack bs) with
      | some i' =>
        simp [hb, he] at h
        obtain ⟨rfl, rfl⟩ := h
        exact .escape i' bs h8 hb' he
      | none =>
        have hmin : min 8 (n - c) = 8 := by omega
        simp [hb, he, verbatimRest, hmin] at h
        obtain ⟨rfl, rfl⟩ := h
        have := Branch.verbatim (m := m) (n := n) (c := c) bs (by rw [hmin]; exact hb') (fun _ => escapeToken_none he)
        rwa [hmin] at this
  · rw [if_neg h8] at h
    cases hb : encInBits m c (min 8 (n - c)) with
    | error f => simp [verbatimRest, hb] at h
    | ok bs =>
      simp [verbatimRest, hb] at h
      obtain ⟨rfl, rfl⟩ := h
      exact .verbatim bs (encInBits_ok.mp hb) (fun h => absurd h h8)

/-- Everything the tokenizer can answer (R80): one of the four branches gave the token. -/
theorem tokenize_branch {m : Memory Bit} {n c : Nat} {i : Instr} {k : Nat} (h : tokenize m n c = .ok (i, k)) :
    Branch m n c i k := by
  unfold tokenize at h
  cases hb : encInBit m c with
  | error f => simp [hb] at h
  | ok b =>
    cases hr : runScan m n b c 143 with
    | error f => simp [hb, hr] at h
    | ok j =>
      have hj := isRun_of_runScan hr
      simp only [hb, hr, tokenizeRun] at h
      by_cases h17 : 17 ≤ j
      · rw [if_pos h17] at h
        simp at h
        obtain ⟨rfl, rfl⟩ := h
        exact .long b j hj h17
      · rw [if_neg h17] at h
        unfold tryDual at h
        by_cases h1 : 1 < j
        · rw [if_pos h1] at h
          cases hr2 : runScan m n (!b) (c + j) 16 with
          | error f => simp [hr2] at h
          | ok j2 =>
            by_cases hs : 16 < j + j2
            · simp [hr2, hs] at h
              obtain ⟨rfl, rfl⟩ := h
              exact .dual b j j2 hj h1 (by omega) (isRun_of_runScan hr2) hs
            · simp [hr2, hs] at h
              exact tokenizeLiteral_branch h
        · rw [if_neg h1] at h
          exact tokenizeLiteral_branch h

/-! ## What the tokenizer reads (R54, R79, R80) -/

/-- The run scan reads only the bits up to its cap and the end of the bitmap (R79). -/
theorem runScan_congr {m m' : Memory Bit} {n : Nat} {v : Bit} {p cap : Nat}
    (h : ∀ a, p ≤ a → a < min n (p + cap) → Memory.read m a = Memory.read m' a) :
    runScan m n v p cap = runScan m' n v p cap := by
  induction cap generalizing p with
  | zero => rfl
  | succ cap ih =>
    simp only [runScan]
    by_cases hp : p < n
    · have e : encInBit m p = encInBit m' p := by unfold encInBit; rw [h p (by omega) (by omega)]
      rw [e, ih (fun a h1 h2 => h a (by omega) (by omega))]
    · simp [hp]

/-- Branches 3 and 4 read only the next 8 bits. -/
theorem tokenizeLiteral_congr {m m' : Memory Bit} {n c : Nat}
    (h : ∀ a, c ≤ a → a < min n (c + 143) → Memory.read m a = Memory.read m' a) : tokenizeLiteral m n c = tokenizeLiteral m' n c := by
  have hb : ∀ k, k ≤ 8 → k ≤ n - c → encInBits m c k = encInBits m' c k := by
    intro k h1 h2
    unfold encInBits
    rw [Memory.readList_congr (m := m) (m' := m') (fun i a b => h i a (by omega))]
  unfold tokenizeLiteral tryEscape verbatimRest
  rw [hb (min 8 (n - c)) (by omega) (by omega)]
  by_cases h8 : 8 ≤ n - c
  · simp only [if_pos h8]
    rw [hb 8 (by omega) h8]
  · simp only [if_neg h8]

/-- The tokenizer where the run at the cursor is known (R80). -/
theorem tokenize_of_isRun {m : Memory Bit} {n c j : Nat} {b : Bit} (h : IsRun m n b c 143 j) (hj : 1 ≤ j) :
    tokenize m n c = tokenizeRun m n c b j := by
  have hb : Memory.read m c = some b := by have := h.2.1 0 (by omega); simpa using this
  unfold tokenize
  rw [encInBit_ok.mpr hb]
  simp only [runScan_of_isRun h]

/-- On written bits the tokenizer answers: its four branches are exhaustive (R80). -/
theorem tokenize_completes {m : Memory Bit} {n c : Nat} (hc : c < n) (hf : Memory.Filled m c (min n (c + 143))) :
    ∃ i k, tokenize m n c = .ok (i, k) := by
  obtain ⟨b, hb⟩ := Option.isSome_iff_exists.mp (hf c (by omega) (by omega))
  obtain ⟨j, hj⟩ := exists_isRun b 143 hf
  have lit : ∃ i k, tokenizeLiteral m n c = .ok (i, k) := by
    obtain ⟨xs, hx⟩ := Memory.readList_of_filled (m := m) (a := c) (k := min 8 (n - c)) (fun i h1 h2 => hf i h1 (by omega))
    unfold tokenizeLiteral tryEscape verbatimRest
    by_cases h8 : 8 ≤ n - c
    · rw [show min 8 (n - c) = 8 by omega] at *
      rw [if_pos h8, encInBits_ok.mpr hx]
      cases he : escapeToken (pack xs) with
      | some i => exact ⟨i, 8, by simp [*]⟩
      | none => exact ⟨.verbatim (pack xs), 8, by simp [*]⟩
    · rw [if_neg h8]
      simp only [encInBits_ok.mpr hx]
      exact ⟨_, _, rfl⟩
  unfold tokenize
  rw [encInBit_ok.mpr hb]
  simp only [runScan_of_isRun hj, tokenizeRun]
  by_cases h17 : 17 ≤ j
  · rw [if_pos h17]; exact ⟨_, _, rfl⟩
  · rw [if_neg h17, tryDual]
    by_cases h1 : 1 < j
    · obtain ⟨j2, hj2⟩ := exists_isRun (m := m) (n := n) (p := c + j) (!b) 16 (fun i h1 h2 => hf i (by omega) (by omega))
      rw [if_pos h1, runScan_of_isRun hj2]
      by_cases hs : 16 < j + j2
      · simp only [if_pos hs]; exact ⟨_, _, rfl⟩
      · simp only [if_neg hs]; exact lit
    · rw [if_neg h1]; exact lit

/-- A failed bit read names its address. -/
theorem encInBit_error {m : Memory Bit} {i : Nat} {f : Fault} (h : encInBit m i = .error f) : f = .encInUnwritten i ∧ Memory.read m i = none := by
  unfold encInBit at h; split at h <;> simp_all

/-- A failed read of bits names an address it read. -/
theorem encInBits_error {m : Memory Bit} {c k : Nat} {f : Fault} (h : encInBits m c k = .error f) :
    ∃ a, f = .encInUnwritten a ∧ c ≤ a ∧ a < c + k ∧ Memory.read m a = none := by
  unfold encInBits at h; split at h
  · simp at h
  · rename_i h'; simp at h; exact ⟨_, h.symm, Memory.readList_error h'⟩

/-- A failed run scan names an address inside the bitmap. -/
theorem runScan_error {m : Memory Bit} {n : Nat} {v : Bit} {p cap : Nat} {f : Fault} (h : runScan m n v p cap = .error f) :
    ∃ a, f = .encInUnwritten a ∧ p ≤ a ∧ a < n ∧ Memory.read m a = none := by
  induction cap generalizing p with
  | zero => simp [runScan] at h
  | succ cap ih =>
    simp only [runScan] at h
    split at h
    · split at h
      · rename_i hx; simp at h; subst h; obtain ⟨rfl, e⟩ := encInBit_error hx; exact ⟨p, rfl, le_refl _, by assumption, e⟩
      · split at h
        · split at h
          · rename_i hx; simp at h; subst h; obtain ⟨a, b, c, d, e⟩ := ih hx; exact ⟨a, b, by omega, d, e⟩
          · simp at h
        · simp at h
    · simp at h

/-- A run scan that meets an unwritten bit before its cap and the end of the bitmap stops on it (R56). -/
theorem runScan_unwritten {m : Memory Bit} {n : Nat} {v : Bit} {p cap j : Nat} (hj : j < cap) (hn : p + j < n)
    (h : ∀ t, t < j → Memory.read m (p + t) = some v) (hu : Memory.read m (p + j) = none) :
    runScan m n v p cap = .error (.encInUnwritten (p + j)) := by
  induction j generalizing p cap with
  | zero =>
    obtain ⟨cap, rfl⟩ : ∃ l, cap = l + 1 := ⟨cap - 1, by omega⟩
    simp only [Nat.add_zero] at hu hn
    simp [runScan, encInBit, hn, hu]
  | succ j ih =>
    obtain ⟨cap, rfl⟩ : ∃ l, cap = l + 1 := ⟨cap - 1, by omega⟩
    rw [show p + (j + 1) = p + 1 + j by omega] at hu hn ⊢
    have h0 := h 0 (by omega)
    simp only [Nat.add_zero] at h0
    have := ih (p := p + 1) (cap := cap) (by omega) hn
      (fun t ht => by rw [show p + 1 + t = p + (t + 1) by omega]; exact h (t + 1) (by omega)) hu
    simp [runScan, encInBit, show p < n by omega, h0, this]

/-- A failed literal branch names an address inside the bitmap. -/
theorem tokenizeLiteral_error {m : Memory Bit} {n c : Nat} {f : Fault} (h : tokenizeLiteral m n c = .error f) :
    ∃ a, f = .encInUnwritten a ∧ c ≤ a ∧ a < n ∧ Memory.read m a = none := by
  unfold tokenizeLiteral at h
  split at h
  · rename_i hx; simp at h; subst h
    unfold tryEscape at hx
    split at hx
    · split at hx
      · rename_i hy; simp at hx; subst hx; obtain ⟨a, b, c, d, e⟩ := encInBits_error hy; exact ⟨a, b, c, by omega, e⟩
      · split at hx <;> simp at hx
    · simp at hx
  · simp at h
  · unfold verbatimRest at h
    split at h
    · rename_i hy; simp at h; subst h; obtain ⟨a, b, c, d, e⟩ := encInBits_error hy; exact ⟨a, b, c, by omega, e⟩
    · simp at h

/-- The tokenizer stops only at an unwritten bit between the cursor and the end of the bitmap (R56). -/
theorem tokenize_error {m : Memory Bit} {n c : Nat} {f : Fault} (hc : c < n) (h : tokenize m n c = .error f) :
    ∃ a, f = .encInUnwritten a ∧ c ≤ a ∧ a < n ∧ Memory.read m a = none := by
  unfold tokenize at h
  split at h
  · rename_i hx; simp at h; subst h; obtain ⟨rfl, e⟩ := encInBit_error hx; exact ⟨_, rfl, le_refl _, hc, e⟩
  · split at h
    · rename_i hx; simp at h; subst h; exact runScan_error hx
    · unfold tokenizeRun at h
      split at h
      · simp at h
      · split at h
        · rename_i hx; simp at h; subst h
          unfold tryDual at hx
          split at hx
          · split at hx
            · rename_i hy; simp at hx; subst hx; obtain ⟨a, b, c, d, e⟩ := runScan_error hy; exact ⟨a, b, by omega, d, e⟩
            · split at hx <;> simp at hx
          · simp at hx
        · simp at h
        · exact tokenizeLiteral_error h

end Sys2Proof.Machine
end

