-- ==== Sys2Proof/Laws/Token.lean ====
section
/-! SUPPORT. The tokens: decoding and encoding of each, their bits, and what each `exec` of one does, once for all seven rows. -/

namespace Sys2Proof.Machine

/-! ## Encoding -/

theorem decodeAfterC3_encode (bit : Bit) (len7 : BitVec 7) (h : (Instr.longRun bit len7).wf = true) :
    decodeAfterC3 (BitVec.ofBool bit ++ len7) = .longRun bit len7 := by
  revert bit len7; decide

theorem decodeAfter3D_encode (l1 l2 : BitVec 4) (h : (Instr.dualRun1 l1 l2).wf = true) :
    decodeAfter3D (l1 ++ l2) = .dualRun1 l1 l2 := by
  revert l1 l2; decide

theorem decodeAfter65_encode (l1 l2 : BitVec 4) (h : (Instr.dualRun0 l1 l2).wf = true) :
    decodeAfter65 (l1 ++ l2) = .dualRun0 l1 l2 := by
  revert l1 l2; decide

theorem encode_decodeAfterC3 (b : Byte) :
    encode (decodeAfterC3 b) = [0xC3#8, b] ∧ (decodeAfterC3 b).wf = true ∧ (decodeAfterC3 b).isToken = true := by
  have : ∀ b : BitVec 8,
      encode (decodeAfterC3 b) = [0xC3#8, b] ∧ (decodeAfterC3 b).wf = true ∧ (decodeAfterC3 b).isToken = true := by decide
  exact this b

theorem encode_decodeAfter3D (b : Byte) :
    encode (decodeAfter3D b) = [0x3D#8, b] ∧ (decodeAfter3D b).wf = true ∧ (decodeAfter3D b).isToken = true := by
  have : ∀ b : BitVec 8,
      encode (decodeAfter3D b) = [0x3D#8, b] ∧ (decodeAfter3D b).wf = true ∧ (decodeAfter3D b).isToken = true := by decide
  exact this b

theorem encode_decodeAfter65 (b : Byte) :
    encode (decodeAfter65 b) = [0x65#8, b] ∧ (decodeAfter65 b).wf = true ∧ (decodeAfter65 b).isToken = true := by
  have : ∀ b : BitVec 8,
      encode (decodeAfter65 b) = [0x65#8, b] ∧ (decodeAfter65 b).wf = true ∧ (decodeAfter65 b).isToken = true := by decide
  exact this b

/-- The three markers. -/
theorem isMarker_iff (a : Byte) : isMarker a = true ↔ a = 0xC3#8 ∨ a = 0x3D#8 ∨ a = 0x65#8 := by
  simp [isMarker, or_assoc]

/-- A marker and its second byte decode to the token whose encoding they are. -/
theorem encode_decodePair {a : Byte} (ha : isMarker a = true) (b : Byte) :
    encode (decodePair a b) = [a, b] ∧ (decodePair a b).wf = true ∧ (decodePair a b).isToken = true := by
  rcases (isMarker_iff a).mp ha with rfl | rfl | rfl
  · exact encode_decodeAfterC3 b
  · exact encode_decodeAfter3D b
  · exact encode_decodeAfter65 b

/-! ## What the encoder's tokens are -/

/-- The facts of a long-run token (R75, R81). -/
theorem longToken_facts (b : Bit) {j : Nat} (h1 : 17 ≤ j) (h2 : j ≤ 143) :
    (longToken b j).isToken = true ∧ (longToken b j).wf = true ∧ (longToken b j).canonical = true ∧
    encode (longToken b j) = [0xC3#8, BitVec.ofNat 8 (b.toNat * 128 + (j - 16))] ∧
    tokenBits (longToken b j) = List.replicate j b := by
  have hlen : longLen (BitVec.ofNat 7 (j - 16)) = j := by
    simp only [longLen, BitVec.toNat_ofNat]; omega
  have hne : BitVec.ofNat 7 (j - 16) ≠ 0#7 := by
    intro h
    have := congrArg BitVec.toNat h
    simp only [BitVec.toNat_ofNat] at this; omega
  refine ⟨rfl, by simp [longToken, Instr.wf, hne], by simp [longToken, Instr.canonical, hne], ?_, ?_⟩
  · have : ∀ (b : Bool) (x : BitVec 7), BitVec.ofBool b ++ x = BitVec.ofNat 8 (b.toNat * 128 + x.toNat) := by decide
    have hx : (BitVec.ofNat 7 (j - 16)).toNat = j - 16 := by simp only [BitVec.toNat_ofNat]; omega
    simp only [longToken, encode]
    rw [this, hx]
  · rw [longToken, tokenBits, hlen]

/-- The facts of a dual-run token (R75, R82). -/
theorem dualToken_facts (b : Bit) {j j2 : Nat} (h1 : 1 < j) (h17 : j < 17) (h2 : j2 ≤ 16) (hs : 16 < j + j2) :
    (dualToken b j j2).isToken = true ∧ (dualToken b j j2).wf = true ∧ (dualToken b j j2).canonical = true ∧
    encode (dualToken b j j2) = [if b then 0x3D#8 else 0x65#8, BitVec.ofNat 8 ((j - 1) * 16 + (j2 - 1))] ∧
    tokenBits (dualToken b j j2) = List.replicate j b ++ List.replicate j2 (!b) := by
  have ha : (BitVec.ofNat 4 (j - 1)).toNat = j - 1 := by simp only [BitVec.toNat_ofNat]; omega
  have hb : (BitVec.ofNat 4 (j2 - 1)).toNat = j2 - 1 := by simp only [BitVec.toNat_ofNat]; omega
  have hne : BitVec.ofNat 4 (j - 1) ≠ 0#4 := by
    intro h
    have := congrArg BitVec.toNat h
    rw [ha] at this
    simp at this; omega
  have hcat : ∀ x y : BitVec 4, x ++ y = BitVec.ofNat 8 (x.toNat * 16 + y.toNat) := by decide
  have hc : 15 ≤ (BitVec.ofNat 4 (j - 1)).toNat + (BitVec.ofNat 4 (j2 - 1)).toNat := by rw [ha, hb]; omega
  have e1 : j - 1 + 1 = j := by omega
  have e2 : j2 - 1 + 1 = j2 := by omega
  cases b
  · refine ⟨rfl, by simp [dualToken, Instr.wf, hne], ?_, ?_, ?_⟩
    · simp only [dualToken, Instr.canonical, Bool.false_eq_true, if_false, Bool.and_eq_true, bne_iff_ne, decide_eq_true_eq]
      exact ⟨hne, hc⟩
    · simp only [dualToken, encode, Bool.false_eq_true, if_false]
      rw [hcat, ha, hb]
    · simp only [dualToken, tokenBits, dualLen, Bool.false_eq_true, if_false, Bool.not_false]
      rw [ha, hb, e1, e2]
  · refine ⟨rfl, by simp [dualToken, Instr.wf, hne], ?_, ?_, ?_⟩
    · simp only [dualToken, Instr.canonical, if_true, Bool.and_eq_true, bne_iff_ne, decide_eq_true_eq]
      exact ⟨hne, hc⟩
    · simp only [dualToken, encode, if_true]
      rw [hcat, ha, hb]
    · simp only [dualToken, tokenBits, dualLen, if_true, Bool.not_true]
      rw [ha, hb, e1, e2]

/-- A byte that is even is no marker: so no padded byte is one (R86). -/
theorem not_marker_of_even {v : Byte} (h : v.getLsbD 0 = false) : isMarker v = false := by
  have : ∀ v : BitVec 8, v.getLsbD 0 = false → isMarker v = false := by decide
  exact this v h

/-- Packing fewer than 8 bits gives no marker (R86). -/
theorem pack_not_marker {bs : List Bit} (h : bs.length < 8) : isMarker (pack bs) = false := by
  apply not_marker_of_even
  have hu := unpack_pack (bs := bs) (by omega)
  have h7 := congrArg (fun l => l[7]?) hu
  simp only [unpack] at h7
  rw [List.getElem?_append_right (by omega), List.getElem?_replicate] at h7
  rw [if_pos (by omega)] at h7
  simpa using h7

/-- What a token that a branch gave is, what it consumes and which bits it stands for (R75, R76, R86 to R89). -/
theorem Branch.facts {m : Memory Bit} {n c : Nat} {i : Instr} {k : Nat} (h : Branch m n c i k) :
    i.isToken = true ∧ i.wf = true ∧ i.canonical = true ∧ k ≤ n - c ∧
    ((encode i).length = 2 ∧ 8 ≤ k ∨ (encode i).length = 1 ∧ k = min 8 (n - c)) ∧
    (∀ x, x < k → (tokenBits i)[x]? = Memory.read m (c + x)) ∧
    min (tokenBits i).length (n - c) = k := by
  cases h with
  | long b j hr hj =>
    obtain ⟨r1, r2, -⟩ := hr
    obtain ⟨f1, f2, f3, f4, f5⟩ := longToken_facts b hj (by omega : k ≤ 143)
    refine ⟨f1, f2, f3, by omega, .inl ⟨by simp [f4], by omega⟩, fun x hx => ?_, by rw [f5]; simp; omega⟩
    rw [f5, List.getElem?_replicate, if_pos hx, r2 x hx]
  | dual b j j2 hr h1 h17 hr2 hs =>
    obtain ⟨r1, r2, -⟩ := hr
    obtain ⟨q1, q2, -⟩ := hr2
    obtain ⟨f1, f2, f3, f4, f5⟩ := dualToken_facts b h1 h17 (by omega : j2 ≤ 16) hs
    refine ⟨f1, f2, f3, by omega, .inl ⟨by simp [f4], by omega⟩, fun x hx => ?_, by rw [f5]; simp; omega⟩
    rw [f5]
    by_cases hxj : x < j
    · rw [List.getElem?_append_left (by simpa using hxj), List.getElem?_replicate, if_pos hxj, r2 x hxj]
    · rw [List.getElem?_append_right (by simpa using hxj), List.length_replicate, List.getElem?_replicate,
        if_pos (by omega), ← q2 (x - j) (by omega)]
      congr 1; omega
  | escape i bs h8 hb hi =>
    obtain ⟨e1, e2, e3, e4, e5, e6⟩ := escapeToken_some hi
    obtain ⟨b1, b2⟩ := Memory.readList_ok hb
    have hu : unpack (pack bs) = bs := by rw [unpack_pack (by omega), b1]; simp
    refine ⟨e3, e4, e5, h8, .inl ⟨by simp [e2], by omega⟩, fun x hx => ?_, by rw [e6]; simp; omega⟩
    rw [e6, hu, b2 x hx]
  | verbatim bs hb hm =>
    obtain ⟨b1, b2⟩ := Memory.readList_ok hb
    have hmk : isMarker (pack bs) = false := by
      by_cases h8 : 8 ≤ n - c
      · exact hm h8
      · exact pack_not_marker (by omega)
    refine ⟨rfl, by simp [Instr.wf, hmk], by simp [Instr.canonical, hmk], by omega, .inr ⟨rfl, rfl⟩, fun x hx => ?_,
      by simp [tokenBits]⟩
    rw [tokenBits, unpack_pack (by omega), List.getElem?_append_left (by omega), b2 x (by omega)]

/-! ## What executing a token does -/

/-- A branch that fires consumes at least one bit (R87). -/
theorem Branch.pos {m : Memory Bit} {n c : Nat} {i : Instr} {k : Nat} (h : Branch m n c i k) (hc : c < n) : 1 ≤ k := by
  obtain ⟨-, -, -, h4, h5, -⟩ := h.facts
  omega

/-- Everything `exec` of a token does (R102 to R105): it completes, with the token's bits written through the clamped writer. -/
theorem exec_token {i : Instr} (hi : i.isToken = true) (s : State) :
    ∃ d, exec i s = .next (s.withDec d) ∧ s.dec.TokenDone d (tokenBits i) ∧
      ((encode i).length = 2 → d.phase = .expectToken) ∧ ((encode i).length = 1 → d.phase = s.dec.phase) ∧
      (Memory.wf s.dec.outMem = true → Memory.wf d.outMem = true) := by
  have byteCase : ∀ (v : Byte) (c : DecState), c.cursor = s.dec.cursor → c.outMem = s.dec.outMem → s.dec.SameInputs c →
      c.rdptr = s.dec.rdptr + 1#16 → c.status = s.dec.status → c.latch = s.dec.latch → c.errcode = s.dec.errcode →
      s.dec.TokenDone (c.putByte v).finish (unpack v) ∧ (c.putByte v).finish.phase = c.phase ∧
      (Memory.wf s.dec.outMem = true → Memory.wf (c.putByte v).finish.outMem = true) := by
    intro v c h1 h2 h3 h4 h5 h6 h7
    obtain ⟨r1, r2, r3, r4, r5, r6⟩ := DecState.putBits_regs (unpack v) c
    refine ⟨DecState.tokenDone_finish (DecState.putBits_wrote _ c) r6 h1 h2 h3 h4 h5 h6 h7 r5 r1 r3 r4, ?_, fun hw => ?_⟩
    · rw [DecState.finish_phase]; exact r2
    · rw [DecState.finish_outMem]; exact DecState.putBits_wf _ _ (h2 ▸ hw)
  have hin : s.dec.SameInputs s.dec.consumeCont := ⟨rfl, rfl, rfl, rfl⟩
  have hin' : s.dec.SameInputs s.dec.consume := ⟨rfl, rfl, rfl, rfl⟩
  have dualCase : ∀ (b : Bit) (n1 n2 : Nat),
      s.dec.TokenDone (s.dec.consumeCont.putDual b n1 n2).finish (List.replicate n1 b ++ List.replicate n2 (!b)) ∧
      (s.dec.consumeCont.putDual b n1 n2).finish.phase = .expectToken ∧
      (Memory.wf s.dec.outMem = true → Memory.wf (s.dec.consumeCont.putDual b n1 n2).finish.outMem = true) := by
    intro b n1 n2
    have hw := (DecState.put_wrote b n1 s.dec.consumeCont).trans
      (DecState.put_wrote (!b) n2 (s.dec.consumeCont.put b n1)) rfl
    refine ⟨DecState.tokenDone_finish hw ⟨rfl, rfl, rfl, rfl⟩ rfl rfl hin rfl rfl rfl rfl rfl rfl rfl rfl, ?_, fun hm => ?_⟩
    · rw [DecState.finish_phase]; rfl
    · rw [DecState.finish_outMem]; exact DecState.put_wf _ _ _ (DecState.put_wf _ _ _ hm)
  have two : ∀ {d : DecState} {j : Instr} {P : Prop}, d.phase = .expectToken → (encode j).length = 2 → P →
      ((encode j).length = 2 → d.phase = .expectToken) ∧ ((encode j).length = 1 → d.phase = s.dec.phase) ∧ P :=
    fun h1 h2 h3 => ⟨fun _ => h1, fun h => by omega, h3⟩
  have escape : ∀ v, ∃ d, Host.Outcome.next (s.withDec (s.dec.consumeCont.putByte v).finish) =
        (.next (s.withDec d) : Result) ∧ s.dec.TokenDone d (unpack v) ∧ d.phase = .expectToken ∧
        (Memory.wf s.dec.outMem = true → Memory.wf d.outMem = true) :=
    fun v => ⟨_, rfl, byteCase v s.dec.consumeCont rfl rfl hin rfl rfl rfl rfl⟩
  cases i with
  | header w h => simp [Instr.isToken] at hi
  | escapeC3 => obtain ⟨d, h1, h2, h3, h4⟩ := escape 0xC3#8; exact ⟨d, h1, h2, two h3 rfl h4⟩
  | escape3D => obtain ⟨d, h1, h2, h3, h4⟩ := escape 0x3D#8; exact ⟨d, h1, h2, two h3 rfl h4⟩
  | escape65 => obtain ⟨d, h1, h2, h3, h4⟩ := escape 0x65#8; exact ⟨d, h1, h2, two h3 rfl h4⟩
  | longRun bit len7 =>
    refine ⟨_, rfl, DecState.tokenDone_finish (DecState.put_wrote bit (longLen len7) s.dec.consumeCont)
      ⟨rfl, rfl, rfl, rfl⟩ rfl rfl hin rfl rfl rfl rfl rfl rfl rfl rfl, two ?_ rfl fun hm => ?_⟩
    · rw [DecState.finish_phase]; rfl
    · rw [DecState.finish_outMem]; exact DecState.put_wf _ _ _ hm
  | dualRun1 l1 l2 =>
    obtain ⟨h2, h3, h4⟩ := dualCase true (dualLen l1) (dualLen l2)
    exact ⟨_, rfl, h2, two h3 rfl h4⟩
  | dualRun0 l1 l2 =>
    obtain ⟨h2, h3, h4⟩ := dualCase false (dualLen l1) (dualLen l2)
    exact ⟨_, rfl, h2, two h3 rfl h4⟩
  | verbatim v =>
    obtain ⟨h2, h3, h4⟩ := byteCase v s.dec.consume rfl rfl hin' rfl rfl rfl rfl
    exact ⟨_, rfl, h2, fun h => by simp [encode] at h, fun _ => h3, h4⟩

end Sys2Proof.Machine
end

