-- ==== Sys2Proof/Laws/Step.lean ====
section
/-! SUPPORT. What a step does, once: the move it takes, everything DEC's steps, ENC's steps and the host's accesses can do. -/

namespace Sys2Proof.Machine

/-! ## Taking a move -/

theorem step_cons {s : State} {m : Move} {ms : List Move} (h : s.script = m :: ms) :
    step s = moveStep m (s.withScript ms) := by
  unfold step; rw [h]

theorem step_nil {s : State} (h : s.script = []) : step s = freeMove s := by
  unfold step; rw [h]

theorem step_dec {s : State} {ms : List Move} (h : s.script = .engine .dec :: ms) (hb : s.dec.status = .busy) :
    step s = decStep (s.withScript ms) := by
  rw [step_cons h]; simp [moveStep, engineStep, hb]

theorem step_enc {s : State} {ms : List Move} (h : s.script = .engine .enc :: ms) (hb : s.enc.status = .busy) :
    step s = encStep (s.withScript ms) := by
  rw [step_cons h]; simp [moveStep, engineStep, hb]

theorem step_decStart {s : State} {ms : List Move} {v : RegWord} (h : s.script = .host (.writeReg 9#4 v) :: ms)
    (hv : v.getLsbD 0 = true) (hb : s.dec.status ≠ .busy) : step s = decStart (s.withScript ms) := by
  rw [step_cons h]
  show writeDecCtrl v _ = _
  rw [writeDecCtrl, if_pos ⟨hv, hb⟩]

theorem step_encStart {s : State} {ms : List Move} {v : RegWord} (h : s.script = .host (.writeReg 0#4 v) :: ms)
    (hv : v.getLsbD 0 = true) (hb : s.enc.status ≠ .busy) :
    step s = .next ((s.withScript ms).withEnc s.enc.start) := by
  rw [step_cons h]
  show writeEncCtrl v _ = _
  rw [writeEncCtrl, if_pos ⟨hv, hb⟩]
  rfl

/-! ## Runs -/

theorem runSteps_zero (s : State) : runSteps 0 s = .next s := rfl

theorem runSteps_succ (k : Nat) (s : State) :
    runSteps (k + 1) s =
      match step s with
      | .next t => runSteps k t
      | .fault f => .fault f
      | .refused r => .refused r := rfl

theorem runSteps_next {k : Nat} {s t : State} (h : step s = .next t) :
    runSteps (k + 1) s = runSteps k t := by
  rw [runSteps_succ, h]

theorem engineStep_idle (e : Engine) (s : State)
    (hb : (match e with | .enc => s.enc.status | .dec => s.dec.status) ≠ .busy) : engineStep e s = .next s := by
  cases e with
  | enc => simp only [engineStep]; rw [if_neg hb]
  | dec => simp only [engineStep]; rw [if_neg hb]

/-- Moves given to an engine that is not BUSY change nothing (R116; log 20). -/
theorem runSteps_idle (e : Engine) (r : Nat) (s : State) (ms : List Move)
    (hb : (match e with | .enc => s.enc.status | .dec => s.dec.status) ≠ .busy) :
    runSteps r (s.withScript (List.replicate r (.engine e) ++ ms)) = .next (s.withScript ms) := by
  induction r with
  | zero => rfl
  | succ r ih =>
    rw [runSteps_next (t := s.withScript (List.replicate r (.engine e) ++ ms)), ih]
    rw [step_cons (m := .engine e) (ms := List.replicate r (.engine e) ++ ms) rfl]
    exact engineStep_idle e _ hb

theorem runSteps_add (a b : Nat) (s t : State) (h : runSteps a s = .next t) : runSteps (a + b) s = runSteps b t := by
  induction a generalizing s with
  | zero => simp [runSteps] at h; subst h; simp
  | succ a ih =>
    rw [runSteps_succ] at h
    rw [show a + 1 + b = (a + b) + 1 by omega, runSteps_succ]
    cases hs : step s with
    | next u => rw [hs] at h; exact ih u h
    | fault => rw [hs] at h; simp at h
    | refused => rw [hs] at h; simp at h

/-! ## The decoder's steps -/

/-- A byte consumed while input remains: the read pointer moves by one and stays within DEC_INLEN (R27). -/
theorem DecState.rdptr_succ {d : DecState} (h1 : d.rdptr.toNat ≤ d.inlen.toNat) (h2 : d.rdptr ≠ d.inlen) :
    (d.rdptr + 1#16).toNat = d.rdptr.toNat + 1 ∧ d.rdptr.toNat + 1 ≤ d.inlen.toNat := by
  have : d.rdptr.toNat ≠ d.inlen.toNat := fun e => h2 (BitVec.eq_of_toNat_eq e)
  have := d.inlen.isLt
  exact ⟨half_add (k := 1) (by omega), by omega⟩

theorem decStep_read {s : State} {x : Byte} (h1 : s.dec.rdptr ≠ s.dec.inlen)
    (h2 : Memory.read s.dec.inMem s.dec.rdptr.toNat = some x) : decStep s = decByte x s := by
  unfold decStep; rw [if_neg h1, h2]

theorem decByte_ok {s : State} {x : Byte} {i : Instr} {rest : List Byte}
    (h : decodeToken (s.dec.tokenBytes x) = .ok (i, rest)) : decByte x s = exec i s := by
  unfold decByte; rw [h]

/-- What a byte with a token under way decodes to. -/
theorem decodeToken_tokenBytes (d : DecState) (x : Byte) :
    (d.phase = .expectToken ∧ isMarker x = true ∧ decodeToken (d.tokenBytes x) = .error .tokenCut) ∨
    (∃ i rest, decodeToken (d.tokenBytes x) = .ok (i, rest) ∧ i.isToken = true ∧
      (d.phase = .expectToken → (encode i).length = 1) ∧
      (d.phase = .expectCont → isMarker d.latch = true → (encode i).length = 2)) := by
  unfold DecState.tokenBytes
  cases hp : d.phase with
  | expectToken =>
    by_cases hx : isMarker x = true
    · exact .inl ⟨rfl, hx, by simp [decodeToken, hx]⟩
    · exact .inr ⟨.verbatim x, [], by simp [decodeToken, hx], rfl, fun _ => rfl, by simp⟩
  | expectCont =>
    right
    by_cases hx : isMarker d.latch = true
    · obtain ⟨h1, -, h3⟩ := encode_decodePair hx x
      exact ⟨decodePair d.latch x, [], by simp [decodeToken, hx], h3, by simp, fun _ _ => by rw [h1]; rfl⟩
    · exact ⟨.verbatim d.latch, [x], by simp [decodeToken, hx], rfl, by simp, fun _ h => absurd h hx⟩

/-- Everything the automaton step can do (R100, R101, R107): raise TRUNCATED, fault on a cell with no value, latch a marker, or
complete a token. -/
theorem decStep_cases (s : State) :
    (s.dec.rdptr = s.dec.inlen ∧ decStep s = .next (s.withDec (s.dec.raise .truncated))) ∨
    (s.dec.rdptr ≠ s.dec.inlen ∧ Memory.read s.dec.inMem s.dec.rdptr.toNat = none ∧
      decStep s = .fault (.decInUnwritten s.dec.rdptr.toNat)) ∨
    (∃ x, s.dec.rdptr ≠ s.dec.inlen ∧ Memory.read s.dec.inMem s.dec.rdptr.toNat = some x ∧
      s.dec.phase = .expectToken ∧ isMarker x = true ∧ decStep s = .next (s.withDec (s.dec.latchMarker x))) ∨
    (∃ x i d, s.dec.rdptr ≠ s.dec.inlen ∧ Memory.read s.dec.inMem s.dec.rdptr.toNat = some x ∧
      decStep s = .next (s.withDec d) ∧ s.dec.TokenDone d (tokenBits i) ∧
      (s.dec.phase = .expectToken → d.phase = .expectToken) ∧
      (s.dec.phase = .expectCont → isMarker s.dec.latch = true → d.phase = .expectToken) ∧
      (Memory.wf s.dec.outMem = true → Memory.wf d.outMem = true)) := by
  by_cases h1 : s.dec.rdptr = s.dec.inlen
  · left; exact ⟨h1, by unfold decStep; rw [if_pos h1]⟩
  · right
    cases h2 : Memory.read s.dec.inMem s.dec.rdptr.toNat with
    | none => left; exact ⟨h1, rfl, by unfold decStep; rw [if_neg h1, h2]⟩
    | some x =>
      right
      have hr := decStep_read h1 h2
      rcases decodeToken_tokenBytes s.dec x with ⟨hp, hm, hd⟩ | ⟨i, rest, hd, hi, l1, l2⟩
      · left; exact ⟨x, h1, rfl, hp, hm, by rw [hr, decByte, hd]⟩
      · right
        obtain ⟨d, e1, e2, e3, e4, e5⟩ := exec_token hi s
        exact ⟨x, i, d, h1, rfl, by rw [hr, decByte_ok hd, e1], e2, fun h => by rw [e4 (l1 h)]; exact h,
          fun h h' => e3 (l2 h h'), e5⟩

/-- Everything DEC START can do (R97): an error with what was cleared, a fault, or the header accepted. -/
theorem decStart_cases (s : State) :
    (∃ c, (c = .formatShort ∨ c = .formatMagic) ∧ decStart s = .next (s.withDec (s.dec.cleared.raise c))) ∨
    (∃ a, a < 5 ∧ 5 ≤ s.dec.inlen.toNat ∧ Memory.read s.dec.inMem a = none ∧
      decStart s = .fault (.decInUnwritten a)) ∨
    (∃ w h, 5 ≤ s.dec.inlen.toNat ∧ Memory.readList s.dec.inMem 0 5 = .ok (headerTag ++ [w, h]) ∧
      decStart s = .next (s.withDec (s.dec.accept w h))) := by
  unfold decStart
  by_cases h5 : s.dec.inlen.toNat < 5
  · left; exact ⟨_, .inl rfl, by rw [if_pos h5]; rfl⟩
  · rw [if_neg h5]
    cases h1 : Memory.readList s.dec.inMem 0 3 with
    | error a =>
      obtain ⟨-, i2, i3⟩ := Memory.readList_error h1
      right; left; exact ⟨a, by omega, by omega, i3, rfl⟩
    | ok tag =>
      by_cases ht : tag = headerTag
      · subst ht
        simp only [if_true, decStartDims]
        cases h2 : Memory.readList s.dec.inMem 3 2 with
        | error a =>
          obtain ⟨-, i2, i3⟩ := Memory.readList_error h2
          right; left; exact ⟨a, by omega, by omega, i3, rfl⟩
        | ok dims =>
          obtain ⟨l2, r2⟩ := Memory.readList_ok h2
          obtain ⟨-, r1⟩ := Memory.readList_ok h1
          match dims, l2 with
          | [w, h], _ =>
            right; right
            refine ⟨w, h, by omega, Memory.readList_of_reads (xs := headerTag ++ [w, h]) fun t ht => ?_, rfl⟩
            simp only [headerTag, List.cons_append, List.nil_append, List.length_cons, List.length_nil] at ht
            by_cases h3 : t < 3
            · rw [r1 t h3, List.getElem?_append_left (by simpa [headerTag] using h3)]
            · have := r2 (t - 3) (by omega)
              rw [show 3 + (t - 3) = 0 + t by omega] at this
              rw [this, List.getElem?_append_right (by simpa [headerTag] using h3)]
              rfl
      · left; exact ⟨_, .inr rfl, by simp only [if_neg ht]; rfl⟩

/-! ## The encoder's steps -/

/-- Everything the token step can do (R94): a fault on a cell with no value, or a branch's token emitted. -/
theorem encStep_cases (s : State) :
    (∃ f, tokenize s.enc.inMem s.enc.n s.enc.cursor.toNat = .error f ∧ encStep s = .fault f) ∨
    (∃ i k, tokenize s.enc.inMem s.enc.n s.enc.cursor.toNat = .ok (i, k) ∧
      Branch s.enc.inMem s.enc.n s.enc.cursor.toNat i k ∧ encStep s = .next (s.withEnc (s.enc.put i k))) := by
  unfold encStep EncState.tokenStep
  cases h : tokenize s.enc.inMem s.enc.n s.enc.cursor.toNat with
  | error f => left; exact ⟨f, rfl, rfl⟩
  | ok r => right; obtain ⟨i, k⟩ := r; exact ⟨i, k, rfl, tokenize_branch h, rfl⟩

/-- Which counter a token counts (R93). -/
theorem EncState.count_counts (i : Instr) (e : EncState) :
    (e.count i).counts = match i with
      | .header _ _ => e.counts
      | .escapeC3 | .escape3D | .escape65 => [e.cntLong, e.cntDual, e.cntEsc + 1#16, e.cntVerb]
      | .longRun _ _ => [e.cntLong + 1#16, e.cntDual, e.cntEsc, e.cntVerb]
      | .dualRun1 _ _ | .dualRun0 _ _ => [e.cntLong, e.cntDual + 1#16, e.cntEsc, e.cntVerb]
      | .verbatim _ => [e.cntLong, e.cntDual, e.cntEsc, e.cntVerb + 1#16] := by
  cases i <;> rfl

/-- Everything emitting a token does, where the lengths stay in their widths (R92, R94). -/
theorem EncState.put_emitted (i : Instr) (k : Nat) (e : EncState) (hb : e.status = .busy)
    (ho : e.outlen.toNat + (encode i).length < 65536) (hk : e.cursor.toNat + k < 65536) :
    e.Emitted (e.put i k) (encode i) k ∧ (e.put i k).counts = (e.count i).counts ∧
    (Memory.wf e.outMem = true → Memory.wf (e.put i k).outMem = true) := by
  obtain ⟨a1, a2, a3, a4, a5, a6, a7⟩ := EncState.emitAll_regs (encode i) e
  obtain ⟨b1, b2⟩ := EncState.emitAll_stored (encode i) e ho
  obtain ⟨c1, c2, c3, c4, c5, c6, c7, c8⟩ := EncState.count_regs i (EncState.emitAll (encode i) e)
  generalize hf : ((EncState.emitAll (encode i) e).count i).advance k = f
  have f1 : f.cursor.toNat = e.cursor.toNat + k := by
    rw [← hf]
    show (((EncState.emitAll (encode i) e).count i).cursor + BitVec.ofNat 16 k).toNat = _
    rw [c5, a5, half_add hk]
  have f2 : f.status = .busy ∧ f.errcode = e.errcode ∧ f.width = e.width ∧ f.height = e.height ∧
      f.outlen = (EncState.emitAll (encode i) e).outlen ∧ f.inMem = e.inMem ∧
      f.outMem = (EncState.emitAll (encode i) e).outMem ∧
      f.counts = ((EncState.emitAll (encode i) e).count i).counts := by
    rw [← hf]
    exact ⟨c1.trans (a1.trans hb), c2.trans a2, c3.trans a3, c4.trans a4, c6, c7.trans a7, c8, rfl⟩
  obtain ⟨g1, g2, g3, g4, g5, g6, g7, g8⟩ := f2
  obtain ⟨d1, d2, d3, d4, d5, d6, d7, d8⟩ := EncState.finish_regs f
  have hput : e.put i k = f.finish := by rw [EncState.put, hf]
  have hn : f.n = e.n := by simp [EncState.n, g3, g4]
  rw [hput]
  refine ⟨⟨?_, ?_, ?_, ?_, d2.trans g3, d3.trans g4, d7.trans g6, d1.trans g2⟩, ?_, fun hw => ?_⟩
  · rw [d8, g7, b2]; exact Memory.writeList_stored _ _ _
  · rw [d5, g5, b1]
  · rw [d4, f1]
  · rw [EncState.finish_status, g1, f1, hn]
  · rw [d6, g8, EncState.count_counts, EncState.count_counts]
    simp only [EncState.counts, List.cons.injEq, and_true] at a6
    obtain ⟨x1, x2, x3, x4⟩ := a6
    cases i <;> simp [EncState.counts, x1, x2, x3, x4]
  · rw [d8, g7, b2]
    exact Memory.wf_writeList _ _ _ (by simp only [spaceSize]; omega) hw

/-- What emitting a token does to every register but ENC_OUTLEN and the counters, whatever the output's length (R94). -/
theorem EncState.put_regs (i : Instr) (k : Nat) (e : EncState) (hb : e.status = .busy) (hk : e.cursor.toNat + k < 65536) :
    (e.put i k).cursor.toNat = e.cursor.toNat + k ∧ (e.put i k).status = statusAfter .busy (e.cursor.toNat + k) e.n ∧
    (e.put i k).width = e.width ∧ (e.put i k).height = e.height ∧ (e.put i k).inMem = e.inMem := by
  obtain ⟨a1, a2, a3, a4, a5, a6, a7⟩ := EncState.emitAll_regs (encode i) e
  obtain ⟨c1, c2, c3, c4, c5, c6, c7, c8⟩ := EncState.count_regs i (EncState.emitAll (encode i) e)
  obtain ⟨d1, d2, d3, d4, d5, d6, d7, d8⟩ := EncState.finish_regs (((EncState.emitAll (encode i) e).count i).advance k)
  have hc : (((EncState.emitAll (encode i) e).count i).advance k).cursor.toNat = e.cursor.toNat + k := by
    show (((EncState.emitAll (encode i) e).count i).cursor + BitVec.ofNat 16 k).toNat = _
    rw [c5, a5, half_add hk]
  have hw := c3.trans a3
  have hh := c4.trans a4
  refine ⟨by unfold EncState.put; rw [d4, hc], ?_, d2.trans hw, d3.trans hh, d7.trans (c7.trans a7)⟩
  unfold EncState.put
  rw [EncState.finish_status, hc]
  have hn : (((EncState.emitAll (encode i) e).count i).advance k).n = e.n := by
    simp only [EncState.n]
    show ((EncState.emitAll (encode i) e).count i).width.toNat * ((EncState.emitAll (encode i) e).count i).height.toNat = _
    rw [hw, hh]
  rw [hn]
  congr 1
  exact c1.trans (a1.trans hb)

/-- Everything ENC START does (R90). -/
theorem EncState.start_facts (e : EncState) :
    e.start.counts = [0#16, 0#16, 0#16, 0#16] ∧ e.start.cursor = 0#16 ∧ e.start.outlen = 5#16 ∧ e.start.errcode = 0#4 ∧
    e.start.status = (if e.n = 0 then .done else .busy) ∧ e.start.width = e.width ∧ e.start.height = e.height ∧
    e.start.inMem = e.inMem ∧ e.start.outMem = Memory.writeList e.outMem 0 (headerTag ++ [e.width, e.height]) :=
  ⟨rfl, rfl, rfl, rfl, rfl, rfl, rfl, rfl, rfl⟩

/-! ## What one step can change -/

/-- Everything a step can make of the encoder, where `m` is the move taken from the script, if there was one. -/
inductive EncChange (e : EncState) (m : Option Move) : EncState → Prop where
  | same : EncChange e m e
  | token (i : Instr) (k : Nat) (hb : e.status = .busy) (ht : tokenize e.inMem e.n e.cursor.toNat = .ok (i, k)) :
      EncChange e m (e.put i k)
  | start (hm : isStart .enc m) (hb : e.status ≠ .busy) : EncChange e m e.start
  | dim (w h : Byte) (hb : e.status ≠ .busy) : EncChange e m { e with width := w, height := h }
  | inMem (a : Nat) (bs : List Bit) (hb : e.status ≠ .busy) (ha : a + bs.length ≤ spaceSize) :
      EncChange e m { e with inMem := Memory.writeList e.inMem a bs }
  | outMem (a : Nat) (v : Byte) (hb : e.status ≠ .busy) (ha : a < spaceSize) :
      EncChange e m { e with outMem := Memory.write e.outMem a v }
  | reset (hm : m = some .reset) : EncChange e m .reset

/-- Everything a step can make of the decoder, where `m` is the move taken from the script, if there was one. -/
inductive DecChange (d : DecState) (m : Option Move) : DecState → Prop where
  | same : DecChange d m d
  | truncated (hb : d.status = .busy) (hr : d.rdptr = d.inlen) : DecChange d m (d.raise .truncated)
  | latch (x : Byte) (hb : d.status = .busy) (hr : d.rdptr ≠ d.inlen) (hp : d.phase = .expectToken)
      (hx : isMarker x = true) : DecChange d m (d.latchMarker x)
  | token (i : Instr) (d' : DecState) (hb : d.status = .busy) (hr : d.rdptr ≠ d.inlen) (ht : d.TokenDone d' (tokenBits i))
      (hp : d.phase = .expectToken → d'.phase = .expectToken)
      (hc : d.phase = .expectCont → isMarker d.latch = true → d'.phase = .expectToken)
      (hw : Memory.wf d.outMem = true → Memory.wf d'.outMem = true) : DecChange d m d'
  | startFails (c : ErrCode) (hc : c = .formatShort ∨ c = .formatMagic) (hm : isStart .dec m) (hb : d.status ≠ .busy) :
      DecChange d m (d.cleared.raise c)
  | accept (w h : Byte) (hm : isStart .dec m) (hb : d.status ≠ .busy) (hl : 5 ≤ d.inlen.toNat) :
      DecChange d m (d.accept w h)
  | inlen (v : Half) (hb : d.status ≠ .busy) : DecChange d m { d with inlen := v }
  | inMem (a : Nat) (v : Byte) (hb : d.status ≠ .busy) (ha : a < spaceSize) :
      DecChange d m { d with inMem := Memory.write d.inMem a v }
  | outMem (a : Nat) (bs : List Bit) (hb : d.status ≠ .busy) (ha : a + bs.length ≤ spaceSize) :
      DecChange d m { d with outMem := Memory.writeList d.outMem a bs }
  | reset (hm : m = some .reset) : DecChange d m .reset

theorem engineStep_change (e : Engine) {s t : State} (m : Option Move) (h : engineStep e s = .next t) :
    EncChange s.enc m t.enc ∧ DecChange s.dec m t.dec ∧ t.script = s.script := by
  cases e with
  | enc =>
    simp only [engineStep] at h
    split at h
    · rename_i hb
      rcases encStep_cases s with ⟨f, -, hs⟩ | ⟨i, k, ht, -, hs⟩ <;> rw [hs] at h <;> simp at h
      subst h; exact ⟨.token i k hb ht, .same, rfl⟩
    · simp at h; subst h; exact ⟨.same, .same, rfl⟩
  | dec =>
    simp only [engineStep] at h
    split at h
    · rename_i hb
      rcases decStep_cases s with ⟨h1, hs⟩ | ⟨-, -, hs⟩ | ⟨x, h1, -, h3, h4, hs⟩ | ⟨x, i, d, h1, -, hs, h3, h4, h5, h6⟩ <;>
        rw [hs] at h <;> simp at h <;> subst h
      · exact ⟨.same, .truncated hb h1, rfl⟩
      · exact ⟨.same, .latch x hb h1 h3 h4, rfl⟩
      · exact ⟨.same, .token i d hb h1 h3 h4 h5 h6, rfl⟩
    · simp at h; subst h; exact ⟨.same, .same, rfl⟩

theorem regWrite_change (k : BitVec 4) (v : RegWord) {s t : State} (h : regWrite k v s = .next t) :
    EncChange s.enc (some (.host (.writeReg k v))) t.enc ∧ DecChange s.dec (some (.host (.writeReg k v))) t.dec ∧
      t.script = s.script := by
  unfold regWrite at h
  split at h
  · rename_i hk
    have hk : k = 0#4 := BitVec.eq_of_toNat_eq hk
    unfold writeEncCtrl at h
    split at h <;> simp at h <;> subst h
    · rename_i hv; subst hk; exact ⟨.start ⟨v, rfl, hv.1⟩ hv.2, .same, rfl⟩
    · exact ⟨.same, .same, rfl⟩
  · unfold writeEncDim at h
    split at h <;> simp at h <;> subst h
    · exact ⟨.same, .same, rfl⟩
    · rename_i hb; exact ⟨.dim _ _ hb, .same, rfl⟩
  · rename_i hk
    have hk : k = 9#4 := BitVec.eq_of_toNat_eq hk
    unfold writeDecCtrl at h
    split at h
    · rename_i hv
      subst hk
      rcases decStart_cases s with ⟨c, hc, hs⟩ | ⟨a, -, -, -, hs⟩ | ⟨w, hh, h5, -, hs⟩ <;> rw [hs] at h <;> simp at h <;> subst h
      · exact ⟨.same, .startFails c hc ⟨v, rfl, hv.1⟩ hv.2, rfl⟩
      · exact ⟨.same, .accept w hh ⟨v, rfl, hv.1⟩ hv.2 h5, rfl⟩
    · simp at h; subst h; exact ⟨.same, .same, rfl⟩
  · unfold writeDecInlen at h
    split at h <;> simp at h <;> subst h
    · exact ⟨.same, .same, rfl⟩
    · rename_i hb; exact ⟨.same, .inlen _ hb, rfl⟩
  · simp at h; subst h; exact ⟨.same, .same, rfl⟩

theorem hostWriteBits_change (m : Option Move) (sp : BitSpace) (a : Nat) (bs : List Bit) {s t : State}
    (ha : a + bs.length ≤ spaceSize) (h : hostWriteBits sp a bs s = .next t) :
    EncChange s.enc m t.enc ∧ DecChange s.dec m t.dec ∧ t.script = s.script := by
  unfold hostWriteBits at h
  split at h <;> simp at h
  rename_i hb
  subst h
  cases sp with
  | encIn => exact ⟨.inMem a bs hb ha, .same, rfl⟩
  | decOut => exact ⟨.same, .outMem a bs hb ha, rfl⟩

theorem hostStep_change (op : HostOp) {s t : State} (h : hostStep op s = .next t) :
    EncChange s.enc (some (.host op)) t.enc ∧ DecChange s.dec (some (.host op)) t.dec ∧ t.script = s.script := by
  cases op with
  | readReg k => simp [hostStep] at h; subst h; exact ⟨.same, .same, rfl⟩
  | writeReg k v => exact regWrite_change k v h
  | readBit m a =>
    simp only [hostStep, hostReadBit] at h
    split at h <;> simp at h <;> subst h <;> exact ⟨.same, .same, rfl⟩
  | writeBit m a b =>
    exact hostWriteBits_change _ m a.toNat [b] (by have := a.isLt; simp [spaceSize]; omega) h
  | readView m k =>
    simp only [hostStep, hostReadView] at h
    split at h <;> simp at h <;> subst h <;> exact ⟨.same, .same, rfl⟩
  | writeView m k v =>
    exact hostWriteBits_change _ m (viewBase k) (unpack v)
      (by have := k.isLt; simp [spaceSize, viewBase]; omega) h
  | readByte m a =>
    simp only [hostStep, hostReadByte] at h
    split at h <;> simp at h <;> subst h <;> exact ⟨.same, .same, rfl⟩
  | writeByte m a v =>
    simp only [hostStep, hostWriteByte] at h
    split at h <;> simp at h
    rename_i hb
    subst h
    cases m with
    | encOut => exact ⟨.outMem a.toNat v hb a.isLt, .same, rfl⟩
    | decIn => exact ⟨.same, .inMem a.toNat v hb a.isLt, rfl⟩

/-- Everything one step can change. -/
theorem step_change {s t : State} (h : step s = .next t) :
    EncChange s.enc s.script.head? t.enc ∧ DecChange s.dec s.script.head? t.dec ∧ t.script = s.script.tail := by
  cases hs : s.script with
  | nil =>
    rw [step_nil hs] at h
    unfold freeMove at h
    have key : ∀ {e : Engine} {u : State}, u.enc = s.enc → u.dec = s.dec → u.script = s.script →
        engineStep e u = .next t →
        EncChange s.enc none t.enc ∧ DecChange s.dec none t.dec ∧ t.script = [] := by
      intro e u h1 h2 h3 h4
      have := engineStep_change e none h4
      rw [h1, h2, h3, hs] at this
      exact this
    split at h
    · split at h <;> exact key (u := s.drawn) rfl rfl rfl h
    · split at h <;> exact key (u := s) rfl rfl rfl h
  | cons m ms =>
    rw [step_cons hs] at h
    cases m with
    | host op => exact hostStep_change op h
    | engine e => exact engineStep_change e _ h
    | reset => simp [moveStep] at h; subst h; exact ⟨.reset rfl, .reset rfl, rfl⟩

end Sys2Proof.Machine
end

