-- ==== Sys2Proof/Tests/Slice0.lean ====
section
/-! SUPPORT. Tests of the model against spec/95_test_vectors.md and hand calculation from the rules, and for every obligation with
hypotheses a state that meets them. -/

namespace Sys2Proof.Tests

open Sys2Proof Sys2Proof.Machine

/-! ## Well-formedness: one ill-formed term per check -/

/-- `C3 00` is an escape, not a run of 16 zeros (R68). -/
theorem test_wf_longRun : (Instr.longRun false 0#7).wf = false ∧ (Instr.longRun true 0#7).wf = true := by decide

/-- `3D 00` and `65 00` are escapes (R69). -/
theorem test_wf_dualRun : (Instr.dualRun1 0#4 0#4).wf = false ∧ (Instr.dualRun0 0#4 0#4).wf = false ∧
    (Instr.dualRun1 0#4 1#4).wf = true ∧ (Instr.dualRun0 1#4 0#4).wf = true := by decide

/-- A verbatim byte is no marker (R67). -/
theorem test_wf_verbatim : (Instr.verbatim 0xC3#8).wf = false ∧ (Instr.verbatim 0x3D#8).wf = false ∧
    (Instr.verbatim 0x65#8).wf = false ∧ (Instr.verbatim 0xC2#8).wf = true := by decide

/-- A run of 16, and a dual run with a first run of 1 or a sum of 16, decode but are never emitted (R76). -/
theorem test_canonical : (Instr.longRun true 0#7).canonical = false ∧ (Instr.dualRun1 0#4 15#4).canonical = false ∧
    (Instr.dualRun0 1#4 13#4).canonical = false ∧ (Instr.dualRun0 1#4 14#4).canonical = true := by decide

/-! ## Decoding: words written out bit by bit from 30_encoding.md R65 to R70 -/

/-- "FC0", width 17, height 1 (R65, vector L1.1). -/
theorem test_decode_header : decodeAt .start
    [0b01000110#8, 0b01000011#8, 0b00110000#8, 0b00010001#8, 0b00000001#8, 0xC3#8] = .ok (.header 17#8 1#8, [0xC3#8]) := by
  decide

theorem test_decode_escapeC3 : decodeAt .token [0b11000011#8, 0b00000000#8] = .ok (.escapeC3, []) := by decide

theorem test_decode_escape3D : decodeAt .token [0b00111101#8, 0b00000000#8] = .ok (.escape3D, []) := by decide

theorem test_decode_escape65 : decodeAt .token [0b01100101#8, 0b00000000#8] = .ok (.escape65, []) := by decide

/-- Bit 7 is the run's value, bits 6:0 its length less 16: 57 zeros (vector L1.2). -/
theorem test_decode_longRun : decodeAt .token [0b11000011#8, 0b00101001#8] = .ok (.longRun false 41#7, []) := by decide

/-- Runs of 10 ones and 7 zeros: 9 in bits 7:4, 6 in bits 3:0 (vectors of §2.2). -/
theorem test_decode_dualRun1 : decodeAt .token [0b00111101#8, 0b10010110#8] = .ok (.dualRun1 9#4 6#4, []) := by decide

/-- Runs of 5 zeros and 12 ones (vector V6). -/
theorem test_decode_dualRun0 : decodeAt .token [0b01100101#8, 0b01001011#8] = .ok (.dualRun0 4#4 11#4, []) := by decide

/-- A byte that is no marker stands for itself; the next byte is another token's (vector V1). -/
theorem test_decode_verbatim : decodeAt .token [0b10100101#8, 0b00000000#8] = .ok (.verbatim 0xA5#8, [0#8]) := by decide

/-- A marker value as a second byte is data (vector V14). -/
theorem test_decode_second_byte : decodeAt .token [0xC3#8, 0xC3#8, 0x3D#8] = .ok (.longRun true 0x43#7, [0x3D#8]) := by decide

/-- A cut token, a cut header and another tag are refused by name (R97, R101, vector E4). -/
theorem test_decode_refused : decodeAt .token [0x65#8] = .error .tokenCut ∧
    decodeAt .start [0#8, 0#8, 0#8, 0#8] = .error .headerShort ∧
    decodeAt .start [0x46#8, 0x43#8, 0x31#8, 8#8, 1#8] = .error .headerMagic := by decide

/-- The encodings of the vectors (L1.1, L1.2, §2.2). -/
theorem test_encode : encode (.header 200#8 1#8) = [0x46#8, 0x43#8, 0x30#8, 0xC8#8, 0x01#8] ∧
    encode (.longRun true 1#7) = [0xC3#8, 0x81#8] ∧ encode (.dualRun1 9#4 6#4) = [0x3D#8, 0x96#8] ∧
    encode (.dualRun0 1#4 14#4) = [0x65#8, 0x1E#8] ∧ encode .escape65 = [0x65#8, 0x00#8] := by decide

/-- The texts of P1, P2 and 30_encoding.md R78. -/
theorem test_text : instrText (.header 12#8 3#8) = "Header(12, 3)" ∧ instrText (.longRun true 1#7) = "LongRun(1, 17)" ∧
    instrText (.dualRun0 4#4 11#4) = "DualRun(0, 5, 12)" ∧ instrText .escapeC3 = "Escape(0xC3)" ∧
    instrText (.verbatim 0xA5#8) = "Verbatim(0xA5)" := by decide

/-! ## States the tests and witnesses start from -/

/-- What a step leaves of the state, where it goes on. -/
def after {α : Type} (r : Result) (f : State → α) : Option α :=
  match r with
  | .next t => some (f t)
  | _ => none

/-- `DEC_IN` holds `bytes`, `DEC_INLEN` is their number, and the host's write of DEC_CTRL.START comes next. -/
def decLoaded (bytes : List Byte) : State :=
  (State.reset.withDec { DecState.reset with
    inMem := Memory.writeList [] 0 bytes, inlen := BitVec.ofNat 16 bytes.length }).withScript [.host (.writeReg 9#4 1#32)]

/-- The decoder after START of a `w` by `h` stream with these bytes after its header, its steps next. -/
def decBusy (w h : Byte) (bytes : List Byte) : State :=
  ((decLoaded (headerTag ++ [w, h] ++ bytes)).withDec
    ((decLoaded (headerTag ++ [w, h] ++ bytes)).dec.accept w h)).withScript [.engine .dec, .engine .dec]

/-- The same with the marker `a`, the first of the bytes, latched. -/
def decLatched (w h a : Byte) (bytes : List Byte) : State :=
  (decBusy w h (a :: bytes)).withDec ((decBusy w h (a :: bytes)).dec.latchMarker a)

/-- The encoder with these dimensions and these bits, the host's write of ENC_CTRL.START next. -/
def encLoaded (w h : Byte) (bits : List Bit) : State :=
  (State.reset.withEnc { EncState.reset with width := w, height := h, inMem := Memory.writeList [] 0 bits }).withScript
    [.host (.writeReg 0#4 1#32)]

/-- The same after START, its token step next. -/
def encBusy (w h : Byte) (bits : List Bit) : State :=
  ((encLoaded w h bits).withEnc (encLoaded w h bits).enc.start).withScript [.engine .enc]

/-- `k` pixels of one value. -/
def pix (b : Bit) (k : Nat) : List Bit := List.replicate k b

/-- STATUS, RDPTR, CURSOR and the bits of DEC_OUT. -/
def decView (t : State) : RegWord × RegWord × RegWord × Except Nat (List Bit) :=
  (regRead 10#4 t, regRead 13#4 t, regRead 14#4 t, Memory.readList t.dec.outMem 0 t.dec.cursor.toNat)

/-- ENC_STATUS, ENC_CURSOR, the counters and the bytes after the header. -/
def encView (t : State) : RegWord × RegWord × List Half × Except Nat (List Byte) :=
  (regRead 1#4 t, regRead 3#4 t, t.enc.counts, Memory.readList t.enc.outMem 5 (t.enc.outlen.toNat - 5))

/-! ## One step of each instruction (vectors V1 to V16, E1 to E8) -/

/-- V16: N = 0 is DONE at START, DIM 0 by 7, RDPTR 5. -/
theorem test_header_done : after (step (decLoaded [0x46#8, 0x43#8, 0x30#8, 0x00#8, 0x07#8, 0xC3#8]))
    (fun t => (regRead 10#4 t, regRead 12#4 t, regRead 13#4 t)) = some (0x00000002#32, 0x00000700#32, 5#32) := by decide

/-- The START of P1: BUSY, DIM 40 by 3. -/
theorem test_header_busy : after (step (decLoaded [0x46#8, 0x43#8, 0x30#8, 0x28#8, 0x03#8, 0xC3#8]))
    (fun t => (regRead 10#4 t, regRead 12#4 t, regRead 13#4 t)) = some (0x00000001#32, 0x00000328#32, 5#32) := by decide

/-- V11. -/
theorem test_escapeC3 : after (step (decLatched 8#8 1#8 0xC3#8 [0x00#8])) decView =
    some (0x0000C302#32, 7#32, 8#32, .ok [true, true, false, false, false, false, true, true]) := by decide

/-- V12. -/
theorem test_escape3D : after (step (decLatched 8#8 1#8 0x3D#8 [0x00#8])) decView =
    some (0x00003D02#32, 7#32, 8#32, .ok [false, false, true, true, true, true, false, true]) := by decide

/-- V13. -/
theorem test_escape65 : after (step (decLatched 8#8 1#8 0x65#8 [0x00#8])) decView =
    some (0x00006502#32, 7#32, 8#32, .ok [false, true, true, false, false, true, false, true]) := by decide

/-- V5: `C3 80` is 16 ones. -/
theorem test_longRun : after (step (decLatched 16#8 1#8 0xC3#8 [0x80#8])) decView =
    some (0x0000C302#32, 7#32, 16#32, .ok (pix true 16)) := by decide

/-- V4: 143 clamped to 10. -/
theorem test_longRun_clamped : after (step (decLatched 10#8 1#8 0xC3#8 [0xFF#8])) decView =
    some (0x0000C302#32, 7#32, 10#32, .ok (pix true 10)) := by decide

/-- V7: the second run clamped. -/
theorem test_dualRun1_clamped : after (step (decLatched 16#8 1#8 0x3D#8 [0x7F#8])) decView =
    some (0x00003D02#32, 7#32, 16#32, .ok (pix true 8 ++ pix false 8)) := by decide

/-- V9: `3D 01` is 1 one and 2 zeros. -/
theorem test_dualRun1 : after (step (decLatched 3#8 1#8 0x3D#8 [0x01#8])) decView =
    some (0x00003D02#32, 7#32, 3#32, .ok [true, false, false]) := by decide

/-- V6. -/
theorem test_dualRun0 : after (step (decLatched 17#8 1#8 0x65#8 [0x4B#8])) decView =
    some (0x00006502#32, 7#32, 17#32, .ok (pix false 5 ++ pix true 12)) := by decide

/-- V10. -/
theorem test_dualRun0_short : after (step (decLatched 4#8 1#8 0x65#8 [0x11#8])) decView =
    some (0x00006502#32, 7#32, 4#32, .ok [false, false, true, true]) := by decide

/-- V1. -/
theorem test_verbatim : after (step (decBusy 8#8 1#8 [0xA5#8])) decView =
    some (0x00000002#32, 6#32, 8#32, .ok [true, false, true, false, false, true, false, true]) := by decide

/-- V2: clamped to 3. -/
theorem test_verbatim_clamped : after (step (decBusy 3#8 1#8 [0xFF#8])) decView =
    some (0x00000002#32, 6#32, 3#32, .ok [true, true, true]) := by decide

/-- P2, step 2: a marker byte is latched, PHASE 1. -/
theorem test_latch : after (step (decBusy 12#8 3#8 [0xC3#8, 0x00#8])) (fun t => (regRead 10#4 t, regRead 13#4 t)) =
    some (0x0000C305#32, 6#32) := by decide

/-- E1 and E3: FORMAT_SHORT, before the tag is looked at. -/
theorem test_short : after (step (decLoaded [])) (regRead 10#4) = some 0x00000013#32 ∧
    after (step (decLoaded [0#8, 0#8, 0#8, 0#8])) (regRead 10#4) = some 0x00000013#32 := by decide

/-- E4: FORMAT_MAGIC. -/
theorem test_magic : after (step (decLoaded [0x46#8, 0x43#8, 0x31#8, 0x08#8, 0x01#8, 0x00#8])) decView =
    some (0x00000023#32, 0#32, 0#32, .ok []) := by decide

/-- E5: TRUNCATED between tokens. -/
theorem test_truncated : after (step (decBusy 8#8 1#8 [])) (fun t => (regRead 10#4 t, regRead 13#4 t)) =
    some (0x00000033#32, 5#32) := by decide

/-- E6: TRUNCATED after a marker; the raising step leaves PHASE and LATCH. -/
theorem test_truncated_marker : after (step (decLatched 16#8 1#8 0x65#8 [])) (fun t => (regRead 10#4 t, regRead 13#4 t)) =
    some (0x00006537#32, 6#32) := by decide

/-! ## The encoder's steps (vectors of §2) -/

/-- §2.5: WIDTH 0 is DONE at START with the header written. -/
theorem test_enc_start : after (step (encLoaded 0#8 5#8 []))
    (fun t => (regRead 1#4 t, regRead 4#4 t, Memory.readList t.enc.outMem 0 5)) =
    some (2#32, 5#32, .ok [0x46#8, 0x43#8, 0x30#8, 0x00#8, 0x05#8]) := by decide

/-- L1.1: 17 ones. -/
theorem test_enc_long : after (step (encBusy 17#8 1#8 (pix true 17))) encView =
    some (2#32, 17#32, [1#16, 0#16, 0#16, 0#16], .ok [0xC3#8, 0x81#8]) := by decide

/-- §2.1: 144 zeros, the run capped at 143. -/
theorem test_enc_long_cap : after (step (encBusy 144#8 1#8 (pix false 144))) encView =
    some (1#32, 143#32, [1#16, 0#16, 0#16, 0#16], .ok [0xC3#8, 0x7F#8]) := by decide +kernel

/-- §2.2: 2 ones and 15 zeros, the smallest first run. -/
theorem test_enc_dual : after (step (encBusy 17#8 1#8 (pix true 2 ++ pix false 15))) encView =
    some (2#32, 17#32, [0#16, 1#16, 0#16, 0#16], .ok [0x3D#8, 0x1E#8]) := by decide

/-- §2.2: 16 zeros and 1 one; the second nibble 0 is legal. -/
theorem test_enc_dual_zero : after (step (encBusy 17#8 1#8 (pix false 16 ++ pix true 1))) encView =
    some (2#32, 17#32, [0#16, 1#16, 0#16, 0#16], .ok [0x65#8, 0xF0#8]) := by decide

/-- §2.3: `01100101`. -/
theorem test_enc_escape : after (step (encBusy 8#8 1#8 [false, true, true, false, false, true, false, true])) encView =
    some (2#32, 8#32, [0#16, 0#16, 1#16, 0#16], .ok [0x65#8, 0x00#8]) := by decide

/-- §2.3: `1100001`, fewer than 8 bits: no escape, padded to 0xC2. -/
theorem test_enc_pad : after (step (encBusy 7#8 1#8 [true, true, false, false, false, false, true])) encView =
    some (2#32, 7#32, [0#16, 0#16, 0#16, 1#16], .ok [0xC2#8]) := by decide

/-- §2.2: 5 zeros and 8 ones, sum 13: verbatim. -/
theorem test_enc_verbatim : after (step (encBusy 13#8 1#8 (pix false 5 ++ pix true 8))) encView =
    some (1#32, 8#32, [0#16, 0#16, 0#16, 1#16], .ok [0x07#8]) := by decide

/-! ## Registers, the byte view and stops (vectors G1 to G8) -/

/-- G4: ENC_DIM keeps its 16 bits. -/
theorem test_write_dim : after (step (State.reset.withScript [.host (.writeReg 2#4 0xFFFF0311#32)])) (regRead 2#4) =
    some 0x00000311#32 := by decide

/-- G5, G6: a START and a length written while BUSY are ignored. -/
theorem test_busy_writes : after (step ((encBusy 17#8 1#8 (pix true 17)).withScript [.host (.writeReg 0#4 1#32)]))
      State.enc = some (encBusy 17#8 1#8 (pix true 17)).enc ∧
    after (step ((decBusy 8#8 1#8 [0xA5#8]).withScript [.host (.writeReg 11#4 99#32)])) (regRead 11#4) = some 6#32 := by decide

/-- P1: byte 2 of the image, `F1`, through the byte view: bits 16 to 23. -/
theorem test_view : after (step (State.reset.withScript [.host (.writeView .encIn 2#13 0xF1#8)]))
    (fun t => Memory.readList t.enc.inMem 16 8) = some (.ok [true, true, true, true, false, false, false, true]) := by decide

/-- A write to a BUSY engine's memory is refused, an engine's read of an unwritten cell faults (R114, R56). -/
theorem test_stops : step ((encBusy 17#8 1#8 (pix true 17)).withScript [.host (.writeBit .encIn 0#16 true)]) =
      .refused (.bitWriteWhileBusy .encIn) ∧
    step (encBusy 17#8 1#8 (pix true 3)) = .fault (.encInUnwritten 3) := ⟨rfl, rfl⟩

/-! ## States that meet the invariant -/

/-- The encoder's invariant, decided. -/
def encInvDecidable (e : EncState) : Decidable e.Inv :=
  decidable_of_iff
    ((Memory.wf e.inMem = true ∧ Memory.wf e.outMem = true ∧ e.status ≠ .error ∧ e.errcode = 0#4) ∧
      (e.status = .busy → e.cursor.toNat < e.n) ∧
      (e.status = .idle → e.outlen = 0#16 ∧ e.cursor = 0#16 ∧ e.counts = [0#16, 0#16, 0#16, 0#16]) ∧
      (e.status ≠ .idle → e.outlen.toNat =
        5 + 2 * (e.cntLong.toNat + e.cntDual.toNat + e.cntEsc.toNat) + e.cntVerb.toNat) ∧
      (e.status = .busy → 4 * e.outlen.toNat ≤ 20 + e.cursor.toNat) ∧ e.outlen.toNat ≤ 16262 ∧
      (∀ i, 0 ≤ i → i < e.outlen.toNat → (Memory.read e.outMem i).isSome = true) ∧
      (e.status = .busy → (match Memory.readList e.outMem 0 5 with
        | .ok bs => decide (bs = headerTag ++ [e.width, e.height])
        | .error _ => false) = true))
    ⟨fun ⟨⟨a, b, c, d⟩, f, g, h, i, j, k, l⟩ => ⟨a, b, c, d, f, g, h, i, j, k, fun hb => by
        have := l hb
        split at this
        · rename_i hr; rw [hr, of_decide_eq_true this]
        · simp at this⟩,
      fun ⟨a, b, c, d, f, g, h, i, j, k, l⟩ => ⟨⟨a, b, c, d⟩, f, g, h, i, j, k, fun hb => by rw [l hb]; simp⟩⟩

/-- The decoder's invariant, decided. -/
def decInvDecidable (d : DecState) : Decidable d.Inv :=
  decidable_of_iff
    ((Memory.wf d.inMem = true ∧ Memory.wf d.outMem = true ∧ d.cursor.toNat ≤ d.n) ∧
      (d.status = .busy → d.cursor.toNat < d.n) ∧ (d.status = .done → d.cursor.toNat = d.n) ∧
      (d.status = .busy → 5 ≤ d.rdptr.toNat ∧ d.rdptr.toNat ≤ d.inlen.toNat) ∧
      (d.phase = .expectCont → isMarker d.latch = true) ∧ (d.latch = 0#8 ∨ isMarker d.latch = true) ∧
      (d.phase = .expectCont → d.status = .busy ∨ d.status = .error) ∧ (d.status ≠ .error → d.errcode = 0#4) ∧
      (d.status = .error → d.errcode = 1#4 ∨ d.errcode = 2#4 ∨ d.errcode = 3#4) ∧
      (d.errcode = 1#4 ∨ d.errcode = 2#4 → d.rdptr = 0#16 ∧ d.cursor = 0#16 ∧ d.width = 0#8 ∧ d.height = 0#8) ∧
      (d.errcode = 3#4 → d.cursor.toNat < d.n) ∧
      (d.status = .busy ∨ d.status = .done →
        ∀ i, 0 ≤ i → i < d.cursor.toNat → (Memory.read d.outMem i).isSome = true))
    ⟨fun ⟨⟨a, b, c⟩, e, f, g, h, i, j, k, l, m, n, o⟩ => ⟨a, b, c, e, f, g, h, i, j, k, l, m, n, o⟩,
      fun ⟨a, b, c, e, f, g, h, i, j, k, l, m, n, o⟩ => ⟨⟨a, b, c⟩, e, f, g, h, i, j, k, l, m, n, o⟩⟩

/-- The block's invariant, decided. -/
def invDecidable (s : State) : Decidable s.Inv :=
  @decidable_of_iff _ (s.enc.Inv ∧ s.dec.Inv) ⟨fun h => ⟨h.1, h.2⟩, fun h => ⟨h.1, h.2⟩⟩
    (@instDecidableAnd _ _ (encInvDecidable s.enc) (decInvDecidable s.dec))

theorem encBusy_long_inv : (encBusy 17#8 1#8 (pix true 17)).Inv :=
  @of_decide_eq_true _ (invDecidable _) rfl

theorem encBusy_cap_inv : (encBusy 144#8 1#8 (pix false 144)).Inv :=
  @of_decide_eq_true _ (invDecidable _) rfl

theorem encBusy_dual_inv : (encBusy 17#8 1#8 (pix true 2 ++ pix false 15)).Inv :=
  @of_decide_eq_true _ (invDecidable _) rfl

theorem encBusy_dual_max_inv : (encBusy 33#8 1#8 (pix true 16 ++ pix false 17)).Inv :=
  @of_decide_eq_true _ (invDecidable _) rfl

theorem encBusy_escape_inv (p : Byte) (h : p = 0xC3#8 ∨ p = 0x3D#8 ∨ p = 0x65#8) : (encBusy 8#8 1#8 (unpack p)).Inv := by
  rcases h with h | h | h <;> subst h <;> exact @of_decide_eq_true _ (invDecidable _) rfl

theorem encBusy_verbatim_inv : (encBusy 13#8 1#8 (pix false 5 ++ pix true 8)).Inv :=
  @of_decide_eq_true _ (invDecidable _) rfl

theorem encBusy_one_inv : (encBusy 1#8 1#8 [true]).Inv := @of_decide_eq_true _ (invDecidable _) rfl

theorem encBusy_unwritten_inv : (encBusy 17#8 1#8 (pix true 3)).Inv := @of_decide_eq_true _ (invDecidable _) rfl

theorem decBusy_inv : (decBusy 8#8 1#8 [0xA5#8]).Inv := @of_decide_eq_true _ (invDecidable _) rfl

theorem decLatched_inv : (decLatched 16#8 1#8 0xC3#8 [0x80#8]).Inv := @of_decide_eq_true _ (invDecidable _) rfl

/-! ## Witnesses: for each obligation with hypotheses, values that meet them -/

theorem witness_DecodeReadsEncodedInstruction : (Instr.header 0#8 255#8).wf = true ∧ (Instr.longRun false 1#7).wf = true ∧
    (Instr.longRun true 0#7).wf = true ∧ (Instr.dualRun1 0#4 1#4).wf = true ∧ (Instr.dualRun0 15#4 0#4).wf = true ∧
    (Instr.verbatim 0x64#8).wf = true := by decide

theorem witness_EncodeRestoresDecodedBytes :
    decodeAt .token [0xC3#8, 0xFF#8, 0x3D#8] = .ok (.longRun true 127#7, [0x3D#8]) ∧
    decodeAt .token [0x65#8, 0x00#8] = .ok (.escape65, []) ∧
    decodeAt .start [0x46#8, 0x43#8, 0x30#8, 0xFF#8, 0x00#8] = .ok (.header 255#8 0#8, []) := by decide

theorem witness_FirstByteSetsTokenLength : (0xC2#8 ≠ 0xC3#8 ∧ 0xC2#8 ≠ 0x3D#8 ∧ 0xC2#8 ≠ 0x65#8) ∧
    (0x65#8 = 0xC3#8 ∨ 0x65#8 = 0x3D#8 ∨ 0x65#8 = 0x65#8) := by decide

theorem witness_HeaderNeedsFiveBytesAndTag : ([0x46#8, 0x43#8, 0x30#8, 0x08#8] : List Byte).length < 5 ∧
    (5 ≤ ([0x46#8, 0x43#8, 0x31#8, 0x08#8, 0x01#8] : List Byte).length ∧
      ([0x46#8, 0x43#8, 0x31#8, 0x08#8, 0x01#8] : List Byte).take 3 ≠ [0x46#8, 0x43#8, 0x30#8]) ∧
    ∃ bytes : List Byte, bytes = 0x46#8 :: 0x43#8 :: 0x30#8 :: 0xFF#8 :: 0x00#8 :: [] :=
  ⟨by decide, by decide, _, rfl⟩

/-- A full and a nearly full bitmap. -/
theorem witness_TokenFrame : (Instr.dualRun1 15#4 15#4).isToken = true ∧
    (∃ t, exec (.dualRun1 15#4 15#4) (decLatched 3#8 1#8 0x3D#8 [0xFF#8]) = .next t) ∧ (Instr.verbatim 0xA5#8).isToken = true ∧
    ∃ t, exec (.verbatim 0xA5#8) State.reset = .next t := ⟨rfl, ⟨_, rfl⟩, rfl, ⟨_, rfl⟩⟩

theorem witness_PutIsClamped : (decBusy 3#8 1#8 []).dec.n ≤ (decBusy 3#8 1#8 []).dec.cursor.toNat + 3 := by decide

/-- In each phase, and at START. -/
theorem witness_StepRunsDecodedInstruction :
    ((decBusy 8#8 1#8 [0xA5#8]).script = .engine .dec :: [.engine .dec] ∧ (decBusy 8#8 1#8 [0xA5#8]).dec.status = .busy ∧
      (decBusy 8#8 1#8 [0xA5#8]).dec.rdptr ≠ (decBusy 8#8 1#8 [0xA5#8]).dec.inlen ∧
      Memory.read (decBusy 8#8 1#8 [0xA5#8]).dec.inMem (decBusy 8#8 1#8 [0xA5#8]).dec.rdptr.toNat = some 0xA5#8 ∧
      (decBusy 8#8 1#8 [0xA5#8]).dec.phase = .expectToken ∧ decodeToken [0xA5#8] = .ok (.verbatim 0xA5#8, [])) ∧
    ((decLatched 16#8 1#8 0xC3#8 [0x80#8]).script = .engine .dec :: [.engine .dec] ∧
      (decLatched 16#8 1#8 0xC3#8 [0x80#8]).dec.status = .busy ∧
      (decLatched 16#8 1#8 0xC3#8 [0x80#8]).dec.rdptr ≠ (decLatched 16#8 1#8 0xC3#8 [0x80#8]).dec.inlen ∧
      Memory.read (decLatched 16#8 1#8 0xC3#8 [0x80#8]).dec.inMem (decLatched 16#8 1#8 0xC3#8 [0x80#8]).dec.rdptr.toNat =
        some 0x80#8 ∧
      (decLatched 16#8 1#8 0xC3#8 [0x80#8]).dec.phase = .expectCont ∧
      (decLatched 16#8 1#8 0xC3#8 [0x80#8]).dec.latch = 0xC3#8 ∧
      isMarker (decLatched 16#8 1#8 0xC3#8 [0x80#8]).dec.latch = true ∧
      decodeToken [0xC3#8, 0x80#8] = .ok (.longRun true 0#7, [])) ∧
    ((decLoaded (headerTag ++ [17#8, 1#8])).script = .host (.writeReg 9#4 1#32) :: [] ∧ (1#32).getLsbD 0 = true ∧
      (decLoaded (headerTag ++ [17#8, 1#8])).dec.status ≠ .busy ∧ 5 ≤ (decLoaded (headerTag ++ [17#8, 1#8])).dec.inlen.toNat ∧
      Memory.readList (decLoaded (headerTag ++ [17#8, 1#8])).dec.inMem 0 5 = .ok (headerTag ++ [17#8, 1#8]) ∧
      decodeHeader (headerTag ++ [17#8, 1#8]) = .ok (.header 17#8 1#8, [])) := by decide

/-- No input left; a byte that is a marker; a byte that is none. -/
theorem witness_TokenByteStep :
    ((decBusy 8#8 1#8 []).script = .engine .dec :: [.engine .dec] ∧ (decBusy 8#8 1#8 []).dec.status = .busy ∧
      (decBusy 8#8 1#8 []).dec.phase = .expectToken ∧ (decBusy 8#8 1#8 []).dec.rdptr = (decBusy 8#8 1#8 []).dec.inlen) ∧
    ((decBusy 8#8 1#8 [0x65#8]).script = .engine .dec :: [.engine .dec] ∧ (decBusy 8#8 1#8 [0x65#8]).dec.status = .busy ∧
      (decBusy 8#8 1#8 [0x65#8]).dec.phase = .expectToken ∧
      (decBusy 8#8 1#8 [0x65#8]).dec.rdptr ≠ (decBusy 8#8 1#8 [0x65#8]).dec.inlen ∧
      Memory.read (decBusy 8#8 1#8 [0x65#8]).dec.inMem (decBusy 8#8 1#8 [0x65#8]).dec.rdptr.toNat = some 0x65#8) ∧
    ((decBusy 8#8 1#8 [0xA5#8]).dec.phase = .expectToken ∧
      (decBusy 8#8 1#8 [0xA5#8]).dec.rdptr ≠ (decBusy 8#8 1#8 [0xA5#8]).dec.inlen ∧
      Memory.read (decBusy 8#8 1#8 [0xA5#8]).dec.inMem (decBusy 8#8 1#8 [0xA5#8]).dec.rdptr.toNat = some 0xA5#8 ∧
      ¬(0xA5#8 = 0xC3#8 ∨ 0xA5#8 = 0x3D#8 ∨ 0xA5#8 = 0x65#8)) := by decide

/-- No input left; the second bytes 0x00, 0x01 and 0xFF, each after another marker. -/
theorem witness_ContinuationByteStep :
    (decLatched 16#8 1#8 0x65#8 []).script = .engine .dec :: [.engine .dec] ∧
    ((decLatched 16#8 1#8 0x65#8 []).dec.status = .busy ∧ (decLatched 16#8 1#8 0x65#8 []).dec.phase = .expectCont ∧
      (decLatched 16#8 1#8 0x65#8 []).dec.latch = 0x65#8 ∧
      (decLatched 16#8 1#8 0x65#8 []).dec.rdptr = (decLatched 16#8 1#8 0x65#8 []).dec.inlen) ∧
    ∀ a b : Byte, (a, b) = (0xC3#8, 0x00#8) ∨ (a, b) = (0x3D#8, 0x01#8) ∨ (a, b) = (0x65#8, 0xFF#8) →
      (decLatched 16#8 1#8 a [b]).dec.status = .busy ∧ (decLatched 16#8 1#8 a [b]).dec.phase = .expectCont ∧
      (decLatched 16#8 1#8 a [b]).dec.latch = a ∧
      (decLatched 16#8 1#8 a [b]).dec.rdptr ≠ (decLatched 16#8 1#8 a [b]).dec.inlen ∧
      Memory.read (decLatched 16#8 1#8 a [b]).dec.inMem (decLatched 16#8 1#8 a [b]).dec.rdptr.toNat = some b := by
  refine ⟨rfl, by decide, ?_⟩
  rintro a b (h | h | h) <;> cases h <;> decide

theorem witness_TwoByteTokenTakesTwoSteps :
    (decBusy 16#8 1#8 [0xC3#8, 0x80#8]).script = .engine .dec :: .engine .dec :: [] ∧
    (decBusy 16#8 1#8 [0xC3#8, 0x80#8]).dec.status = .busy ∧ (decBusy 16#8 1#8 [0xC3#8, 0x80#8]).dec.phase = .expectToken ∧
    (decBusy 16#8 1#8 [0xC3#8, 0x80#8]).dec.rdptr.toNat + 1 < (decBusy 16#8 1#8 [0xC3#8, 0x80#8]).dec.inlen.toNat ∧
    Memory.read (decBusy 16#8 1#8 [0xC3#8, 0x80#8]).dec.inMem (decBusy 16#8 1#8 [0xC3#8, 0x80#8]).dec.rdptr.toNat =
      some 0xC3#8 ∧
    Memory.read (decBusy 16#8 1#8 [0xC3#8, 0x80#8]).dec.inMem ((decBusy 16#8 1#8 [0xC3#8, 0x80#8]).dec.rdptr.toNat + 1) =
      some 0x80#8 ∧
    decodeToken [0xC3#8, 0x80#8] = .ok (.longRun true 0#7, []) := by decide

/-- In each phase. -/
theorem witness_TruncationIsAnError :
    ((decBusy 8#8 1#8 []).script = .engine .dec :: [.engine .dec] ∧ (decBusy 8#8 1#8 []).dec.status = .busy ∧
      (decBusy 8#8 1#8 []).dec.rdptr = (decBusy 8#8 1#8 []).dec.inlen) ∧
    ((decLatched 8#8 1#8 0xC3#8 []).script = .engine .dec :: [.engine .dec] ∧ (decLatched 8#8 1#8 0xC3#8 []).dec.status = .busy ∧
      (decLatched 8#8 1#8 0xC3#8 []).dec.rdptr = (decLatched 8#8 1#8 0xC3#8 []).dec.inlen) := by decide

/-- While BUSY; lengths 4 and 5; another tag; a header with a bit to decode and one with none. -/
theorem witness_DecStartChecksThenStarts :
    (((decBusy 8#8 1#8 []).withScript [.host (.writeReg 9#4 1#32)]).script = .host (.writeReg 9#4 1#32) :: [] ∧
      (decBusy 8#8 1#8 []).dec.status = .busy) ∧
    ((decLoaded [0#8, 0#8, 0#8, 0#8]).script = .host (.writeReg 9#4 1#32) :: [] ∧ (1#32).getLsbD 0 = true ∧
      (decLoaded [0#8, 0#8, 0#8, 0#8]).dec.status ≠ .busy ∧ (decLoaded [0#8, 0#8, 0#8, 0#8]).dec.inlen.toNat < 5) ∧
    (∀ b2 w h : Byte, (b2, w, h) = (0x31#8, 8#8, 1#8) ∨ (b2, w, h) = (0x30#8, 1#8, 1#8) ∨ (b2, w, h) = (0x30#8, 0#8, 7#8) →
      (decLoaded [0x46#8, 0x43#8, b2, w, h]).dec.status ≠ .busy ∧ 5 ≤ (decLoaded [0x46#8, 0x43#8, b2, w, h]).dec.inlen.toNat ∧
      Memory.read (decLoaded [0x46#8, 0x43#8, b2, w, h]).dec.inMem 0 = some 0x46#8 ∧
      Memory.read (decLoaded [0x46#8, 0x43#8, b2, w, h]).dec.inMem 1 = some 0x43#8 ∧
      Memory.read (decLoaded [0x46#8, 0x43#8, b2, w, h]).dec.inMem 2 = some b2 ∧
      Memory.read (decLoaded [0x46#8, 0x43#8, b2, w, h]).dec.inMem 3 = some w ∧
      Memory.read (decLoaded [0x46#8, 0x43#8, b2, w, h]).dec.inMem 4 = some h) := by
  refine ⟨by decide, by decide, ?_⟩
  rintro a b c (h | h | h) <;> cases h <;> decide

/-- With no byte left, and with one. -/
theorem witness_DecodeEndsWithinItsInput :
    ((decBusy 8#8 1#8 []).dec.status = .busy ∧
      (decBusy 8#8 1#8 []).dec.rdptr.toNat ≤ (decBusy 8#8 1#8 []).dec.inlen.toNat ∧
      Memory.Filled (decBusy 8#8 1#8 []).dec.inMem (decBusy 8#8 1#8 []).dec.rdptr.toNat
        (decBusy 8#8 1#8 []).dec.inlen.toNat) ∧
    ((decBusy 8#8 1#8 [0xA5#8]).dec.status = .busy ∧
      (decBusy 8#8 1#8 [0xA5#8]).dec.rdptr.toNat ≤ (decBusy 8#8 1#8 [0xA5#8]).dec.inlen.toNat ∧
      Memory.Filled (decBusy 8#8 1#8 [0xA5#8]).dec.inMem (decBusy 8#8 1#8 [0xA5#8]).dec.rdptr.toNat
        (decBusy 8#8 1#8 [0xA5#8]).dec.inlen.toNat) := by
  unfold Memory.Filled; decide

/-- A run cut by its cap, by the bitmap's end, and by a bit of the other value. -/
theorem witness_RunScanIsTheLargestRun :
    runScan (encLoaded 5#8 1#8 (pix true 5)).enc.inMem 5 true 0 3 = .ok 3 ∧
    runScan (encLoaded 5#8 1#8 (pix true 5)).enc.inMem 5 true 2 16 = .ok 3 ∧
    runScan (encLoaded 5#8 1#8 (pix true 2 ++ pix false 3)).enc.inMem 5 true 0 16 = .ok 2 ∧
    Memory.Filled (encLoaded 5#8 1#8 (pix true 5)).enc.inMem 0 (min 5 (0 + 16)) := by
  unfold Memory.Filled; decide

theorem witness_EncStartWritesHeader :
    ((encLoaded 0#8 5#8 []).script = .host (.writeReg 0#4 1#32) :: [] ∧ (1#32).getLsbD 0 = true ∧
      (encLoaded 0#8 5#8 []).enc.status ≠ .busy) ∧
    ((encLoaded 1#8 1#8 []).script = .host (.writeReg 0#4 1#32) :: [] ∧ (encLoaded 1#8 1#8 []).enc.status ≠ .busy) ∧
    (((encBusy 1#8 1#8 []).withScript [.host (.writeReg 0#4 1#32)]).script = .host (.writeReg 0#4 1#32) :: [] ∧
      (encBusy 1#8 1#8 []).enc.status = .busy) := by
  decide

/-- Runs of 17 and of 143. -/
theorem witness_LongRunBranch :
    ((encBusy 17#8 1#8 (pix true 17)).Inv ∧ (encBusy 17#8 1#8 (pix true 17)).script = .engine .enc :: [] ∧
      (encBusy 17#8 1#8 (pix true 17)).enc.status = .busy ∧
      IsRun (encBusy 17#8 1#8 (pix true 17)).enc.inMem (encBusy 17#8 1#8 (pix true 17)).enc.n true
        (encBusy 17#8 1#8 (pix true 17)).enc.cursor.toNat 143 17) ∧
    ((encBusy 144#8 1#8 (pix false 144)).Inv ∧ (encBusy 144#8 1#8 (pix false 144)).enc.status = .busy ∧
      IsRun (encBusy 144#8 1#8 (pix false 144)).enc.inMem (encBusy 144#8 1#8 (pix false 144)).enc.n false
        (encBusy 144#8 1#8 (pix false 144)).enc.cursor.toNat 143 143) := by
  refine ⟨⟨encBusy_long_inv, by decide, by decide, by unfold IsRun; decide⟩, encBusy_cap_inv, by decide, ?_⟩
  unfold IsRun; decide +kernel

/-- First runs of 2 and of 16, second runs of 15 and of 16. -/
theorem witness_DualRunBranch :
    ((encBusy 17#8 1#8 (pix true 2 ++ pix false 15)).Inv ∧
      (encBusy 17#8 1#8 (pix true 2 ++ pix false 15)).script = .engine .enc :: [] ∧
      (encBusy 17#8 1#8 (pix true 2 ++ pix false 15)).enc.status = .busy ∧
      IsRun (encBusy 17#8 1#8 (pix true 2 ++ pix false 15)).enc.inMem 17 true 0 143 2 ∧
      IsRun (encBusy 17#8 1#8 (pix true 2 ++ pix false 15)).enc.inMem 17 false (0 + 2) 16 15 ∧ 16 < 2 + 15) ∧
    ((encBusy 33#8 1#8 (pix true 16 ++ pix false 17)).Inv ∧
      (encBusy 33#8 1#8 (pix true 16 ++ pix false 17)).enc.status = .busy ∧
      IsRun (encBusy 33#8 1#8 (pix true 16 ++ pix false 17)).enc.inMem 33 true 0 143 16 ∧
      IsRun (encBusy 33#8 1#8 (pix true 16 ++ pix false 17)).enc.inMem 33 false (0 + 16) 16 16) := by
  refine ⟨⟨encBusy_dual_inv, ?_⟩, encBusy_dual_max_inv, ?_⟩ <;> unfold IsRun <;> decide +kernel

/-- Each of the three patterns, the last 8 bits of the bitmap. -/
theorem witness_EscapeBranch : ∀ p : Byte, p = 0xC3#8 ∨ p = 0x3D#8 ∨ p = 0x65#8 →
    (encBusy 8#8 1#8 (unpack p)).Inv ∧ (encBusy 8#8 1#8 (unpack p)).script = .engine .enc :: [] ∧
    (encBusy 8#8 1#8 (unpack p)).enc.status = .busy ∧
    (encBusy 8#8 1#8 (unpack p)).enc.cursor.toNat + 8 ≤ (encBusy 8#8 1#8 (unpack p)).enc.n ∧
    ∀ t, t < 8 → Memory.read (encBusy 8#8 1#8 (unpack p)).enc.inMem
      ((encBusy 8#8 1#8 (unpack p)).enc.cursor.toNat + t) = some (p.getLsbD (7 - t)) := by
  refine fun p h => ⟨encBusy_escape_inv p h, ?_⟩
  rcases h with h | h | h <;> subst h <;> decide

/-- Eight bits, the first run of 5; and one bit, the first run of 1. -/
theorem witness_VerbatimBranch :
    ((encBusy 13#8 1#8 (pix false 5 ++ pix true 8)).Inv ∧
      (encBusy 13#8 1#8 (pix false 5 ++ pix true 8)).script = .engine .enc :: [] ∧
      (encBusy 13#8 1#8 (pix false 5 ++ pix true 8)).enc.status = .busy ∧
      IsRun (encBusy 13#8 1#8 (pix false 5 ++ pix true 8)).enc.inMem 13 false 0 143 5 ∧
      IsRun (encBusy 13#8 1#8 (pix false 5 ++ pix true 8)).enc.inMem 13 true (0 + 5) 16 8 ∧ 5 + 8 ≤ 16 ∧
      ∀ t, t < 8 → Memory.read (encBusy 13#8 1#8 (pix false 5 ++ pix true 8)).enc.inMem (0 + t) =
        some ((0x07#8).getLsbD (7 - t))) ∧
    ((encBusy 1#8 1#8 [true]).Inv ∧ (encBusy 1#8 1#8 [true]).enc.status = .busy ∧
      IsRun (encBusy 1#8 1#8 [true]).enc.inMem 1 true 0 143 1 ∧ 1 = min 8 (1 - 0) ∧
      (∀ t, t < 1 → Memory.read (encBusy 1#8 1#8 [true]).enc.inMem (0 + t) = some ((0x80#8).getLsbD (7 - t))) ∧
      ∀ t, 1 ≤ t → t < 8 → (0x80#8).getLsbD (7 - t) = false) := by
  refine ⟨⟨encBusy_verbatim_inv, ?_⟩, encBusy_one_inv, ?_⟩ <;> unfold IsRun <;> decide +kernel

/-- A 2-byte token of 8 bits, a 1-byte token of 8 and one of the last bit. -/
theorem witness_TokenConsumption : (0 < 8 ∧ tokenize (encLoaded 8#8 1#8 (unpack 0x3D#8)).enc.inMem 8 0 = .ok (.escape3D, 8)) ∧
    (0 < 9 ∧ tokenize (encLoaded 9#8 1#8 (unpack 0xAA#8 ++ [true])).enc.inMem 9 0 = .ok (.verbatim 0xAA#8, 8)) ∧
    (8 < 9 ∧ tokenize (encLoaded 9#8 1#8 (unpack 0xAA#8 ++ [true])).enc.inMem 9 8 = .ok (.verbatim 0x80#8, 1)) := by decide

theorem witness_EmittedTokensAreCanonical :
    tokenize (encLoaded 17#8 1#8 (pix false 17)).enc.inMem 17 0 = .ok (.longRun false 1#7, 17) := by decide

theorem witness_TokenStepCompletes :
    (encBusy 17#8 1#8 (pix true 17)).script = .engine .enc :: [] ∧ (encBusy 17#8 1#8 (pix true 17)).enc.status = .busy ∧
    (encBusy 17#8 1#8 (pix true 17)).enc.cursor.toNat < (encBusy 17#8 1#8 (pix true 17)).enc.n ∧
    Memory.Filled (encBusy 17#8 1#8 (pix true 17)).enc.inMem (encBusy 17#8 1#8 (pix true 17)).enc.cursor.toNat
      (min (encBusy 17#8 1#8 (pix true 17)).enc.n ((encBusy 17#8 1#8 (pix true 17)).enc.cursor.toNat + 143)) := by
  unfold Memory.Filled; decide

/-- Memories that differ outside the window. -/
theorem witness_TokenizerReadsOnlyItsWindow : 1 < 2 ∧
    (∀ a, 1 ≤ a → a < min 2 (1 + 143) →
      Memory.read [(0, true), (1, true)] a = Memory.read [(1, true), (2, false)] a) := by decide

theorem witness_EmittedTokenDecodesToItsBits : 0 < 17 ∧
    tokenize (encLoaded 17#8 1#8 (pix true 17)).enc.inMem 17 0 = .ok (.longRun true 1#7, 17) ∧
    (decLatched 17#8 1#8 0xC3#8 [0x81#8]).dec.n - (decLatched 17#8 1#8 0xC3#8 [0x81#8]).dec.cursor.toNat = 17 - 0 := by decide

theorem witness_EncodeReachesDone :
    (encBusy 17#8 1#8 (pix true 17)).enc.status = .busy ∧
    (encBusy 17#8 1#8 (pix true 17)).enc.cursor.toNat < (encBusy 17#8 1#8 (pix true 17)).enc.n ∧
    Memory.Filled (encBusy 17#8 1#8 (pix true 17)).enc.inMem (encBusy 17#8 1#8 (pix true 17)).enc.cursor.toNat
      (encBusy 17#8 1#8 (pix true 17)).enc.n := by
  unfold Memory.Filled; decide

/-- Two encoders of one pixel, whose other cells differ. -/
theorem witness_EncodeDependsOnlyOnItsInput :
    ((encLoaded 1#8 1#8 [true, false]).enc.width = (encLoaded 1#8 1#8 [true]).enc.width ∧
      (encLoaded 1#8 1#8 [true, false]).enc.height = (encLoaded 1#8 1#8 [true]).enc.height ∧
      ∀ a, a < (encLoaded 1#8 1#8 [true]).enc.n →
        Memory.read (encLoaded 1#8 1#8 [true, false]).enc.inMem a = Memory.read (encLoaded 1#8 1#8 [true]).enc.inMem a) ∧
    ((encBusy 1#8 1#8 [true]).enc.Inv ∧ (encBusy 1#8 1#8 [true, false]).enc.Inv ∧
      (encBusy 1#8 1#8 [true]).enc.status = .busy ∧
      (encBusy 1#8 1#8 [true]).enc.SameEncode (encBusy 1#8 1#8 [true, false]).enc) := by
  refine ⟨by decide, encBusy_one_inv.enc, @of_decide_eq_true _ (encInvDecidable _) rfl, by decide, ?_⟩
  unfold EncState.SameEncode; decide

/-- A 17 by 1 bitmap for the encode; and, with no bit at all, the stream for the decode. -/
theorem witness_RoundTripThroughBothEngines :
    ((encLoaded 17#8 1#8 (pix true 17)).enc.status ≠ .busy ∧
      Memory.Filled (encLoaded 17#8 1#8 (pix true 17)).enc.inMem 0 (encLoaded 17#8 1#8 (pix true 17)).enc.n) ∧
    ((decLoaded (headerTag ++ [0#8, 5#8])).dec.status ≠ .busy ∧
      (decLoaded (headerTag ++ [0#8, 5#8])).dec.inlen = (encLoaded 0#8 5#8 []).enc.start.outlen ∧
      ∀ a, a < (encLoaded 0#8 5#8 []).enc.start.outlen.toNat →
        Memory.read (decLoaded (headerTag ++ [0#8, 5#8])).dec.inMem a =
          Memory.read (encLoaded 0#8 5#8 []).enc.start.outMem a) := by
  unfold Memory.Filled; decide

/-- Read-only and reserved indices; values that differ in reserved bits only; both writable registers. -/
theorem witness_ReservedBitsAndReadOnlyRegisters :
    (regWritable 4#4 = 0#32 ∧ regWritable 15#4 = 0#32 ∧ regWritable 1#4 = 0#32) ∧
    0xFFFF0311#32 &&& regWritable 2#4 = 0x00000311#32 &&& regWritable 2#4 ∧
    (encLoaded 0#8 0#8 []).enc.status ≠ .busy ∧ (decLoaded []).dec.status ≠ .busy ∧
    (State.reset.withScript [.host (.writeReg 15#4 0xFFFFFFFF#32)]).script = .host (.writeReg 15#4 0xFFFFFFFF#32) :: [] ∧
    (State.reset.withScript [.host (.readReg 1#4)]).script = .host (.readReg 1#4) :: [] := by decide

/-- Busy and not. -/
theorem witness_StartIgnoredWhileBusy : (0xFFFFFFFF#32).getLsbD 0 = true ∧ (0xFFFFFFFE#32).getLsbD 0 = false ∧
    (State.reset.withScript [.host (.writeReg 0#4 0xFFFFFFFE#32)]).script = .host (.writeReg 0#4 0xFFFFFFFE#32) :: [] ∧
    (State.reset.withScript [.host (.writeReg 9#4 0#32)]).script = .host (.writeReg 9#4 0#32) :: [] ∧
    ((encBusy 17#8 1#8 []).withScript [.host (.writeReg 0#4 1#32)]).script = .host (.writeReg 0#4 1#32) :: [] ∧
    (encBusy 17#8 1#8 []).enc.status = .busy ∧ (encLoaded 17#8 1#8 []).enc.status ≠ .busy ∧
    ((decBusy 8#8 1#8 []).withScript [.host (.writeReg 9#4 1#32)]).script = .host (.writeReg 9#4 1#32) :: [] ∧
    (decBusy 8#8 1#8 []).dec.status = .busy ∧ (decLoaded []).dec.status ≠ .busy := by decide

theorem witness_InputsConstantWhileBusy :
    (((encBusy 17#8 1#8 []).withScript [.host (.writeReg 2#4 0#32)]).script = .host (.writeReg 2#4 0#32) :: [] ∧
      (encBusy 17#8 1#8 []).enc.status = .busy) ∧
    (((decBusy 8#8 1#8 []).withScript [.host (.writeReg 11#4 0#32)]).script = .host (.writeReg 11#4 0#32) :: [] ∧
      (decBusy 8#8 1#8 []).dec.status = .busy) ∧
    (∃ t, step (encBusy 17#8 1#8 (pix true 17)) = .next t) ∧
      (encBusy 17#8 1#8 (pix true 17)).script.head? ≠ some .reset ∧ (encBusy 17#8 1#8 (pix true 17)).enc.status = .busy ∧
    (∃ t, step (decBusy 8#8 1#8 [0xA5#8]) = .next t) ∧ (decBusy 8#8 1#8 [0xA5#8]).script.head? ≠ some .reset ∧
      (decBusy 8#8 1#8 [0xA5#8]).dec.status = .busy :=
  ⟨by decide, by decide, ⟨_, rfl⟩, by decide, by decide, ⟨_, rfl⟩, by decide, by decide⟩

/-- The four memories, at the top of the address space, of a BUSY engine and of one that is not. -/
theorem witness_HostWritesRefusedWhileBusy :
    (∀ op : HostOp, (State.reset.withScript [.host op]).script = .host op :: [] ∧
      ((encBusy 17#8 1#8 []).withScript [.host op]).script = .host op :: [] ∧
      ((decBusy 8#8 1#8 []).withScript [.host op]).script = .host op :: []) ∧
    State.reset.enc.status ≠ .busy ∧ State.reset.dec.status ≠ .busy ∧ (encBusy 17#8 1#8 []).enc.status = .busy ∧
    (decBusy 8#8 1#8 []).dec.status = .busy := ⟨fun _ => ⟨rfl, rfl, rfl⟩, by decide⟩

/-- A block whose bit memories both hold `bits` from bit 0 on, with this host access next. -/
def viewed (bits : List Bit) (op : HostOp) : State :=
  ((State.reset.withEnc { EncState.reset with inMem := Memory.writeList [] 0 bits }).withDec
    { DecState.reset with outMem := Memory.writeList [] 0 bits }).withScript [.host op]

/-- Writes and reads of byte 0, and of byte 8191, the last, for a BUSY owner and one that is not; bits all written, and bit 7 of
byte 0 not. -/
theorem witness_ByteViewIsMsbFirst :
    (∀ op : HostOp, (viewed (unpack 0xA5#8) op).script = .host op :: [] ∧ (viewed (pix true 7) op).script = .host op :: [] ∧
      ((encBusy 17#8 1#8 []).withScript [.host op]).script = .host op :: [] ∧
      ((decBusy 8#8 1#8 []).withScript [.host op]).script = .host op :: []) ∧
    (encBusy 17#8 1#8 []).bitOwner .encIn = .busy ∧ (decBusy 8#8 1#8 []).bitOwner .decOut = .busy ∧
    ∀ m : BitSpace, (∀ op, (viewed (unpack 0xA5#8) op).bitOwner m ≠ .busy) ∧
      (∀ x, x < 8 → Memory.read ((viewed (unpack 0xA5#8) (.readView m 0#13)).bitMem m) (8 * (0#13).toNat + x) =
        some ((0xA5#8).getLsbD (7 - x))) ∧
      Memory.read ((viewed (pix true 7) (.readView m 0#13)).bitMem m) (8 * (0#13).toNat + 7) = none ∧
      Memory.read ((viewed (pix true 7) (.readView m 8191#13)).bitMem m) (8 * (8191#13).toNat + 7) = none :=
  ⟨fun _ => ⟨rfl, rfl, rfl, rfl⟩, by decide, by decide,
    fun m => by cases m <;> exact ⟨fun _ => nofun, by decide, by decide, by decide⟩⟩

/-- The view of either memory writes its last byte and reads a byte back; a write to a BUSY engine's is refused (R52, R114). -/
theorem test_view_both : ∀ m : BitSpace,
    after (step (viewed [] (.writeView m 8191#13 0xF1#8))) (fun t => Memory.readList (t.bitMem m) 65528 8) =
      some (.ok [true, true, true, true, false, false, false, true]) ∧
    after (step (viewed (unpack 0xA5#8) (.readView m 0#13))) State.hostRead = some (some (.byte 0xA5#8)) := by
  intro m; cases m <;> decide

/-- A written cell and an unwritten one; a byte of either view wholly written. -/
theorem witness_HostReadsReturnTheCell :
    (∀ op : HostOp, ((encBusy 17#8 1#8 (pix true 3)).withScript [.host op]).script = .host op :: [] ∧
      (viewed (unpack 0xA5#8) op).script = .host op :: []) ∧
    (Memory.read (encBusy 17#8 1#8 (pix true 3)).enc.inMem (2#16).toNat = some true ∧
      Memory.read (encBusy 17#8 1#8 (pix true 3)).enc.inMem (3#16).toNat = none ∧
      Memory.read (encBusy 17#8 1#8 (pix true 3)).enc.outMem (4#16).toNat = some 1#8) ∧
    ∀ (m : BitSpace) x, x < 8 → Memory.read ((viewed (unpack 0xA5#8) (.readView m 0#13)).bitMem m) (8 * (0#13).toNat + x) =
      some ((0xA5#8).getLsbD (7 - x)) := ⟨fun _ => ⟨rfl, rfl⟩, by decide, fun m => by cases m <;> decide⟩

theorem witness_ResetClearsTheBlock : ((encBusy 17#8 1#8 []).withScript [.reset]).script = .reset :: [] := rfl

theorem witness_ResetKeepsTheHostSide : ((encBusy 17#8 1#8 []).withScript [.reset, .engine .enc]).script = .reset :: [.engine .enc] :=
  rfl

theorem witness_StepKeepsInvariant : ((encBusy 17#8 1#8 (pix true 17)).Inv ∧ ∃ t, step (encBusy 17#8 1#8 (pix true 17)) = .next t) ∧
    ((decLatched 16#8 1#8 0xC3#8 [0x80#8]).Inv ∧ ∃ t, step (decLatched 16#8 1#8 0xC3#8 [0x80#8]) = .next t) :=
  ⟨⟨encBusy_long_inv, _, rfl⟩, decLatched_inv, _, rfl⟩

theorem witness_EnginesAreIndependent : (encBusy 17#8 1#8 []).script = .engine .enc :: [] ∧
    (encLoaded 17#8 1#8 []).script = .host (.writeReg 0#4 1#32) :: [] ∧
    (decBusy 8#8 1#8 []).script = .engine .dec :: [.engine .dec] ∧
    (decLoaded []).script = .host (.writeReg 9#4 1#32) :: [] := by decide

/-- Each of the three errors. -/
theorem witness_ErrorLeavesNoResult :
    ((∃ t, step (decLoaded []) = .next t ∧ t.dec.status = .error) ∧ (decLoaded []).dec.status ≠ .error) ∧
    (∃ t, step (decLoaded [0#8, 0#8, 0#8, 0#8, 0#8]) = .next t ∧ t.dec.status = .error) ∧
    ((∃ t, step (decBusy 8#8 1#8 []) = .next t ∧ t.dec.status = .error) ∧ (decBusy 8#8 1#8 []).dec.status ≠ .error) :=
  ⟨⟨⟨_, rfl, rfl⟩, by decide⟩, ⟨_, rfl, rfl⟩, ⟨_, rfl, rfl⟩, by decide⟩

/-- A START that begins an operation, and a write that does not. -/
theorem witness_OperationsBeginOnlyByStart :
    ((∃ t, step (encLoaded 17#8 1#8 []) = .next t) ∧ (encLoaded 17#8 1#8 []).script.head? ≠ some .reset ∧
      (encLoaded 17#8 1#8 []).enc.status ≠ .busy) ∧
    ((∃ t, step (decLoaded []) = .next t) ∧ (decLoaded []).script.head? ≠ some .reset ∧ (decLoaded []).dec.status ≠ .busy) :=
  ⟨⟨⟨_, rfl⟩, by decide⟩, ⟨_, rfl⟩, by decide⟩

/-- The last token of an encode, of a decode, and the raising step. -/
theorem witness_OperationsEndOnlyInDoneOrError :
    ((∃ t, step (encBusy 17#8 1#8 (pix true 17)) = .next t) ∧ (encBusy 17#8 1#8 (pix true 17)).script.head? ≠ some .reset ∧
      (encBusy 17#8 1#8 (pix true 17)).enc.status = .busy) ∧
    ((∃ t, step (decBusy 8#8 1#8 []) = .next t) ∧ (decBusy 8#8 1#8 []).script.head? ≠ some .reset ∧
      (decBusy 8#8 1#8 []).dec.status = .busy) :=
  ⟨⟨⟨_, rfl⟩, by decide⟩, ⟨_, rfl⟩, by decide⟩

theorem witness_WrittenOutputIsFinal :
    ((encBusy 17#8 1#8 (pix true 17)).Inv ∧ (∃ t, step (encBusy 17#8 1#8 (pix true 17)) = .next t) ∧
      (encBusy 17#8 1#8 (pix true 17)).script.head? ≠ some .reset ∧ (encBusy 17#8 1#8 (pix true 17)).enc.status = .busy ∧
      4 < (encBusy 17#8 1#8 (pix true 17)).enc.outlen.toNat) ∧
    ((decBusy 8#8 1#8 [0xA5#8]).Inv ∧
      (∃ t, step (decBusy 8#8 1#8 [0xA5#8]) = .next t ∧ t.dec.status ≠ .error) ∧
      (decBusy 8#8 1#8 [0xA5#8]).script.head? ≠ some .reset ∧ (decBusy 8#8 1#8 [0xA5#8]).dec.status = .busy) :=
  ⟨⟨encBusy_long_inv, ⟨_, rfl⟩, by decide⟩, decBusy_inv, ⟨_, rfl, by decide⟩, by decide⟩

theorem witness_CursorsNeverMoveBack :
    ((encBusy 33#8 1#8 (pix true 16 ++ pix false 17)).Inv ∧
      (∃ t, step (encBusy 33#8 1#8 (pix true 16 ++ pix false 17)) = .next t) ∧
      (encBusy 33#8 1#8 (pix true 16 ++ pix false 17)).script.head? ≠ some .reset ∧
      (encBusy 33#8 1#8 (pix true 16 ++ pix false 17)).enc.status = .busy) ∧
    ((decLatched 16#8 1#8 0xC3#8 [0x80#8]).Inv ∧ (∃ t, step (decLatched 16#8 1#8 0xC3#8 [0x80#8]) = .next t) ∧
      (decLatched 16#8 1#8 0xC3#8 [0x80#8]).script.head? ≠ some .reset ∧
      (decLatched 16#8 1#8 0xC3#8 [0x80#8]).dec.status = .busy) :=
  ⟨⟨encBusy_dual_max_inv, ⟨_, rfl⟩, by decide⟩, decLatched_inv, ⟨_, rfl⟩, by decide⟩

/-- `DEC_IN` holds the first `k` bytes of a header and nothing after them, DEC_INLEN is 5, the host's START comes next. -/
def decHeaderCut (k : Nat) : State :=
  (decLoaded (headerTag ++ [17#8, 1#8])).withDec { (decLoaded (headerTag ++ [17#8, 1#8])).dec with
    inMem := Memory.writeList [] 0 ((headerTag ++ [17#8, 1#8]).take k) }

/-- A token step: the bit at the cursor; the last bit the run scan reads; the last bit the scan of branch 2 reads; the eighth literal
bit after a first run of 1, and the fifth after two runs of sum 3. -/
theorem witness_UnwrittenInputFaults_enc :
    ((encBusy 17#8 1#8 []).script = .engine .enc :: [] ∧ (encBusy 17#8 1#8 []).enc.status = .busy ∧
      Memory.read (encBusy 17#8 1#8 []).enc.inMem 0 = none) ∧
    ((encBusy 143#8 1#8 (pix true 142)).enc.status = .busy ∧ 0 + 142 < (encBusy 143#8 1#8 (pix true 142)).enc.n ∧
      (∀ t, t < 142 → Memory.read (encBusy 143#8 1#8 (pix true 142)).enc.inMem (0 + t) = some true) ∧
      Memory.read (encBusy 143#8 1#8 (pix true 142)).enc.inMem (0 + 142) = none) ∧
    (IsRun (encBusy 18#8 1#8 (pix true 2 ++ pix false 15)).enc.inMem 18 true 0 143 2 ∧ 0 + 2 + 15 < 18 ∧
      (∀ t, t < 15 → Memory.read (encBusy 18#8 1#8 (pix true 2 ++ pix false 15)).enc.inMem (0 + 2 + t) = some (!true)) ∧
      Memory.read (encBusy 18#8 1#8 (pix true 2 ++ pix false 15)).enc.inMem (0 + 2 + 15) = none) ∧
    (IsRun (encBusy 8#8 1#8 [true, false, true, false, false, true, false]).enc.inMem 8 true 0 143 1 ∧
      (∀ t, t < 7 → (Memory.read (encBusy 8#8 1#8 [true, false, true, false, false, true, false]).enc.inMem (0 + t)).isSome = true) ∧
      Memory.read (encBusy 8#8 1#8 [true, false, true, false, false, true, false]).enc.inMem (0 + 7) = none) ∧
    (IsRun (encBusy 8#8 1#8 [true, true, false, true]).enc.inMem 8 true 0 143 2 ∧
      IsRun (encBusy 8#8 1#8 [true, true, false, true]).enc.inMem 8 (!true) (0 + 2) 16 1 ∧
      (∀ t, t < 4 → (Memory.read (encBusy 8#8 1#8 [true, true, false, true]).enc.inMem (0 + t)).isSome = true) ∧
      Memory.read (encBusy 8#8 1#8 [true, true, false, true]).enc.inMem (0 + 4) = none) := by
  unfold IsRun; decide +kernel

/-- DEC: the byte at the read pointer; and at START each of the five bytes of the header. -/
theorem witness_UnwrittenInputFaults :
    (((decBusy 8#8 1#8 []).withDec { (decBusy 8#8 1#8 []).dec with inlen := 6#16 }).script =
        .engine .dec :: [.engine .dec] ∧
      ((decBusy 8#8 1#8 []).withDec { (decBusy 8#8 1#8 []).dec with inlen := 6#16 }).dec.status = .busy ∧
      (decBusy 8#8 1#8 []).dec.rdptr ≠ 6#16 ∧
      Memory.read (decBusy 8#8 1#8 []).dec.inMem (decBusy 8#8 1#8 []).dec.rdptr.toNat = none) ∧
    ∀ a, a < 5 → (decHeaderCut a).script = .host (.writeReg 9#4 1#32) :: [] ∧ (1#32).getLsbD 0 = true ∧
      (decHeaderCut a).dec.status ≠ .busy ∧ 5 ≤ (decHeaderCut a).dec.inlen.toNat ∧
      Memory.Filled (decHeaderCut a).dec.inMem 0 a ∧
      (3 ≤ a → Memory.read (decHeaderCut a).dec.inMem 0 = some 0x46#8 ∧ Memory.read (decHeaderCut a).dec.inMem 1 = some 0x43#8 ∧
        Memory.read (decHeaderCut a).dec.inMem 2 = some 0x30#8) ∧
      Memory.read (decHeaderCut a).dec.inMem a = none := by
  unfold Memory.Filled; decide

/-- The stops of the tokenizer's later reads and of DEC START, at the bit or byte the read comes to (R56, U3). -/
theorem test_stops_later : step (encBusy 18#8 1#8 (pix true 2 ++ pix false 15)) = .fault (.encInUnwritten 17) ∧
    step (encBusy 8#8 1#8 [true, true, false, true]) = .fault (.encInUnwritten 4) ∧
    step (decHeaderCut 1) = .fault (.decInUnwritten 1) ∧ step (decHeaderCut 4) = .fault (.decInUnwritten 4) :=
  ⟨rfl, rfl, rfl, rfl⟩

/-- Faults of the engines' steps, with the move listed and with none, and of DEC START; a refused write of a byte, of a bit and
through the view. -/
theorem witness_StopsOnlyWhereTheSpecSays :
    ((encBusy 17#8 1#8 (pix true 3)).Inv ∧ (∃ f, step (encBusy 17#8 1#8 (pix true 3)) = .fault f) ∧
      ∃ f, step ((encBusy 17#8 1#8 (pix true 3)).withScript []) = .fault f) ∧
    ((decHeaderCut 4).Inv ∧ ∃ f, step (decHeaderCut 4) = .fault f) ∧
    ((∀ ms, ((encBusy 17#8 1#8 (pix true 3)).withScript ms).Inv) ∧
      (∃ r, step ((encBusy 17#8 1#8 (pix true 3)).withScript [.host (.writeByte .encOut 0#16 0#8)]) = .refused r) ∧
      (∃ r, step ((encBusy 17#8 1#8 (pix true 3)).withScript [.host (.writeBit .encIn 5#16 true)]) = .refused r) ∧
      ∃ r, step ((encBusy 17#8 1#8 (pix true 3)).withScript [.host (.writeView .encIn 0#13 0#8)]) = .refused r) :=
  ⟨⟨encBusy_unwritten_inv, ⟨_, rfl⟩, _, rfl⟩, ⟨@of_decide_eq_true _ (invDecidable _) rfl, _, rfl⟩,
    fun _ => ⟨encBusy_unwritten_inv.enc, encBusy_unwritten_inv.dec⟩, ⟨_, rfl⟩, ⟨_, rfl⟩, _, rfl⟩

/-- None BUSY, one BUSY, both BUSY. -/
theorem witness_OnlyBusyEnginesMove : ((State.reset.withScript [.engine .enc]).script = .engine .enc :: [] ∧
      (State.reset.withScript [.engine .dec]).script = .engine .dec :: []) ∧
    (State.reset.script = [] ∧ State.reset.enc.status ≠ .busy ∧ State.reset.dec.status ≠ .busy) ∧
    (((encBusy 17#8 1#8 []).withScript []).script = [] ∧ (encBusy 17#8 1#8 []).enc.status = .busy ∧
      (encBusy 17#8 1#8 []).dec.status ≠ .busy) ∧
    ((decBusy 8#8 1#8 []).enc.status ≠ .busy ∧ (decBusy 8#8 1#8 []).dec.status = .busy) ∧
    ((((encBusy 17#8 1#8 []).withDec (decBusy 8#8 1#8 []).dec).withScript []).script = [] ∧
      ((encBusy 17#8 1#8 []).withDec (decBusy 8#8 1#8 []).dec).enc.status = .busy ∧
      ((encBusy 17#8 1#8 []).withDec (decBusy 8#8 1#8 []).dec).dec.status = .busy) := by decide

/-- A header and a token, which the step after reset runs. -/
theorem witness_TableWordRunsNext : decodeTableWord 40 0x4643301101 = some (.header 17#8 1#8) ∧
    decodeTableWord 16 0xC381 = some (.longRun true 1#7) ∧ decodeTableWord 8 0xA5 = some (.verbatim 0xA5#8) := by decide

end Sys2Proof.Tests
end

section
/-! PROOFS. The register port (R46): which bits of a register exist, and which bits of a written word the block looks at. -/

namespace Sys2Proof.Machine

/-! ## Reading: a bit outside the fields is 0 -/

/-- A 16-bit register's word holds nothing above bit 15. -/
theorem halfWord_reserved (v : Half) : halfWord v &&& ~~~0xFFFF#32 = 0#32 := by
  show 0#16 ++ v &&& 0xFFFF#16 ++ 0#16 = 0#32
  rw [BitVec.and_append, BitVec.zero_and, BitVec.and_zero]
  rfl

/-- The two dimensions side by side are one 16-bit field. -/
theorem dimWord_eq_halfWord (width height : Byte) : dimWord width height = halfWord (height ++ width) := BitVec.append_assoc

theorem EncState.statusWord_reserved (e : EncState) : e.statusWord &&& ~~~0xF3#32 = 0#32 := by
  show 0#24 ++ e.errcode ++ 0#2 ++ e.status.bits &&& 0xFFFFFF#24 ++ 0#4 ++ 3#2 ++ 0#2 = 0#32
  simp only [BitVec.and_append, BitVec.zero_and, BitVec.and_zero]
  rfl

theorem DecState.statusWord_reserved (d : DecState) : d.statusWord &&& ~~~0xFFF7#32 = 0#32 := by
  show 0#16 ++ d.latch ++ d.errcode ++ 0#1 ++ d.phase.bits ++ d.status.bits &&&
    0xFFFF#16 ++ 0#8 ++ 0#4 ++ 1#1 ++ 0#1 ++ 0#2 = 0#32
  simp only [BitVec.and_append, BitVec.zero_and, BitVec.and_zero]
  rfl

theorem regRead_reserved (k : BitVec 4) (s : State) : regRead k s &&& ~~~(regFields k) = 0#32 := by
  unfold regRead
  split <;> rename_i hk
  case h_1 => rw [BitVec.eq_of_toNat_eq (y := 1#4) hk]; exact s.enc.statusWord_reserved
  case h_9 => rw [BitVec.eq_of_toNat_eq (y := 10#4) hk]; exact s.dec.statusWord_reserved
  case h_14 => exact BitVec.zero_and
  all_goals
    simp only [regFields, hk, dimWord_eq_halfWord]
    exact halfWord_reserved _

/-! ## Writing: only the writable bits are looked at -/

/-- A field of a written word that the mask covers does not see the mask. -/
theorem extractLsb'_and_mask {start len : Nat} {mask : RegWord}
    (hm : mask.extractLsb' start len = BitVec.allOnes len) (v : RegWord) :
    (v &&& mask).extractLsb' start len = v.extractLsb' start len := by
  rw [BitVec.extractLsb'_and, hm, BitVec.and_allOnes]

theorem writeEncCtrl_mask (v : RegWord) (s : State) : writeEncCtrl (v &&& 1#32) s = writeEncCtrl v s := by
  simp [writeEncCtrl]

theorem writeDecCtrl_mask (v : RegWord) (s : State) : writeDecCtrl (v &&& 1#32) s = writeDecCtrl v s := by
  simp [writeDecCtrl]

theorem writeEncDim_mask (v : RegWord) (s : State) : writeEncDim (v &&& 0xFFFF#32) s = writeEncDim v s := by
  rw [writeEncDim, extractLsb'_and_mask (by decide), extractLsb'_and_mask (by decide)]
  rfl

theorem writeDecInlen_mask (v : RegWord) (s : State) : writeDecInlen (v &&& 0xFFFF#32) s = writeDecInlen v s := by
  rw [writeDecInlen, extractLsb'_and_mask (by decide)]
  rfl

/-- A register write depends on the writable bits of the word alone (R46). -/
theorem regWrite_mask (k : BitVec 4) (v : RegWord) (s : State) : regWrite k (v &&& regWritable k) s = regWrite k v s := by
  unfold regWrite
  split <;> rename_i hk
  · simpa only [regWritable, hk] using writeEncCtrl_mask v s
  · simpa only [regWritable, hk] using writeEncDim_mask v s
  · simpa only [regWritable, hk] using writeDecCtrl_mask v s
  · simpa only [regWritable, hk] using writeDecInlen_mask v s
  · rfl

/-- A write to an index with nothing writable changes nothing (R46). -/
theorem regWrite_readOnly {k : BitVec 4} (h : regWritable k = 0#32) (v : RegWord) (s : State) :
    regWrite k v s = .next s := by
  unfold regWrite
  split <;> rename_i hk
  case h_5 => rfl
  all_goals simp [regWritable, hk] at h

/-! ## Writing and reading back -/

/-- The low half of a written word, put back at its place, is the word without its reserved bits. -/
theorem halfWord_extractLsb' (v : RegWord) : halfWord (v.extractLsb' 0 16) = v &&& 0xFFFF#32 := by
  calc 0#16 ++ v.extractLsb' 0 16
      = v.extractLsb' 16 16 ++ v.extractLsb' 0 16 &&& 0#16 ++ BitVec.allOnes 16 := by
        rw [BitVec.and_append, BitVec.and_zero, BitVec.and_allOnes]
    _ = v &&& 0xFFFF#32 := by
        rw [BitVec.extractLsb'_append_extractLsb'_eq_extractLsb' (show 16 = 0 + 16 from rfl), BitVec.extractLsb'_eq_self]
        rfl

theorem dimWord_extractLsb' (v : RegWord) :
    dimWord (v.extractLsb' 0 8) (v.extractLsb' 8 8) = v &&& 0xFFFF#32 := by
  rw [dimWord_eq_halfWord, BitVec.extractLsb'_append_extractLsb'_eq_extractLsb' (show 8 = 0 + 8 from rfl)]
  exact halfWord_extractLsb' v

/-- ENC_DIM takes every 16-bit value while ENC is not BUSY (R36, R46). -/
theorem regRead_writeEncDim (v : RegWord) {s : State} (hb : s.enc.status ≠ .busy) :
    ∃ t, writeEncDim v s = .next t ∧ regRead 2#4 t = v &&& 0xFFFF#32 :=
  ⟨_, if_neg hb, dimWord_extractLsb' v⟩

/-- DEC_INLEN takes every 16-bit value while DEC is not BUSY (R42, R46). -/
theorem regRead_writeDecInlen (v : RegWord) {s : State} (hb : s.dec.status ≠ .busy) :
    ∃ t, writeDecInlen v s = .next t ∧ regRead 11#4 t = v &&& 0xFFFF#32 :=
  ⟨_, if_neg hb, halfWord_extractLsb' v⟩

theorem step_writeReg {s : State} {ms : List Move} {k : BitVec 4} {v : RegWord}
    (h : s.script = .host (.writeReg k v) :: ms) : step s = regWrite k v (s.withScript ms) := step_cons h

/-- Settles O36: a write is looked at through its writable bits, and every read word is made of its fields. -/
theorem reservedBitsAndReadOnlyRegisters : Obligations.ReservedBitsAndReadOnlyRegisters := by
  refine ⟨regRead_reserved, fun s ms k v h hk => ?_, fun s ms k v v' hv => ?_, fun s ms k h => step_cons h,
    fun s ms v => ⟨fun h hb => ?_, fun h hb => ?_⟩⟩
  · rw [step_writeReg h, regWrite_readOnly hk]
  · rw [step_writeReg rfl, step_writeReg rfl, ← regWrite_mask k v, hv, regWrite_mask]
    rfl
  · rw [step_writeReg h]
    exact regRead_writeEncDim v hb
  · rw [step_writeReg h]
    exact regRead_writeDecInlen v hb

end Sys2Proof.Machine
end

section
/-! PROOFS. The two engines share no state (R15): what a step of one answers is a function of that engine alone, and changes that
engine alone. -/

namespace Sys2Proof.Machine

/-- The step's answer when DEC's part of it is `r`: DEC replaced, nothing else touched, or the fault. -/
def State.answerDec (s : State) : Except Fault DecState → Result
  | .ok d => .next (s.withDec d)
  | .error f => .fault f

/-- The step's answer when ENC's part of it is `r`. -/
def State.answerEnc (s : State) : Except Fault EncState → Result
  | .ok e => .next (s.withEnc e)
  | .error f => .fault f

/-- `f` reads and writes nothing but the decoder: its answer is made by a function of the decoder alone (R15). -/
def DecOnly (f : State → Result) : Prop := ∃ r : DecState → Except Fault DecState, ∀ s, f s = s.answerDec (r s.dec)

/-- `f` reads and writes nothing but the encoder (R15). -/
def EncOnly (f : State → Result) : Prop := ∃ r : EncState → Except Fault EncState, ∀ s, f s = s.answerEnc (r s.enc)

/-! ## The decoder's steps -/

theorem DecOnly.next (g : DecState → DecState) : DecOnly fun s => .next (s.withDec (g s.dec)) :=
  ⟨fun d => .ok (g d), fun _ => rfl⟩

theorem DecOnly.fault (x : Fault) : DecOnly fun _ => .fault x := ⟨fun _ => .error x, fun _ => rfl⟩

theorem DecOnly.idle : DecOnly .next := .next id

/-- Which case applies may depend on the decoder. -/
theorem DecOnly.of_cases {f : State → Result} (h : ∀ d, ∃ g, DecOnly g ∧ ∀ s, s.dec = d → f s = g s) : DecOnly f := by
  choose g hg hf using h
  choose r hr using hg
  exact ⟨fun d => r d d, fun s => (hf s.dec s rfl).trans (hr s.dec s)⟩

theorem exec_decOnly (i : Instr) : DecOnly (exec i) := by
  cases i with
  | header w h => exact .next (·.accept w h)
  | escapeC3 => exact .next (·.consumeCont.putByte 0xC3#8 |>.finish)
  | escape3D => exact .next (·.consumeCont.putByte 0x3D#8 |>.finish)
  | escape65 => exact .next (·.consumeCont.putByte 0x65#8 |>.finish)
  | longRun bit len7 => exact .next (·.consumeCont.put bit (longLen len7) |>.finish)
  | dualRun1 l1 l2 => exact .next (·.consumeCont.putDual true (dualLen l1) (dualLen l2) |>.finish)
  | dualRun0 l1 l2 => exact .next (·.consumeCont.putDual false (dualLen l1) (dualLen l2) |>.finish)
  | verbatim v => exact .next (·.consume.putByte v |>.finish)

theorem decStartFails_decOnly (c : ErrCode) : DecOnly (decStartFails c) := .next (·.cleared.raise c)

theorem decStartDims_decOnly (tag : List Byte) : DecOnly (decStartDims tag) := by
  refine .of_cases fun d => ?_
  cases hr : Memory.readList d.inMem 3 2 with
  | error a => exact ⟨_, .fault (.decInUnwritten a), fun s hs => by simp only [decStartDims, hs, hr]⟩
  | ok dims =>
    cases hd : decodeHeader (tag ++ dims) with
    | ok r => exact ⟨_, exec_decOnly r.1, fun s hs => by simp only [decStartDims, hs, hr, hd]⟩
    | error _ => exact ⟨_, decStartFails_decOnly .formatMagic, fun s hs => by simp only [decStartDims, hs, hr, hd]⟩

theorem decStart_decOnly : DecOnly decStart := by
  refine .of_cases fun d => ?_
  by_cases hl : d.inlen.toNat < 5
  · exact ⟨_, decStartFails_decOnly .formatShort, fun s hs => by simp only [decStart, hs, if_pos hl]⟩
  · cases hr : Memory.readList d.inMem 0 3 with
    | error a => exact ⟨_, .fault (.decInUnwritten a), fun s hs => by simp only [decStart, hs, if_neg hl, hr]⟩
    | ok tag =>
      by_cases ht : tag = headerTag
      · exact ⟨_, decStartDims_decOnly tag, fun s hs => by simp only [decStart, hs, if_neg hl, hr, if_pos ht]⟩
      · exact ⟨_, decStartFails_decOnly .formatMagic, fun s hs => by simp only [decStart, hs, if_neg hl, hr, if_neg ht]⟩

theorem decByte_decOnly (x : Byte) : DecOnly (decByte x) := by
  refine .of_cases fun d => ?_
  cases hd : decodeToken (d.tokenBytes x) with
  | ok r => exact ⟨_, exec_decOnly r.1, fun s hs => by simp only [decByte, hs, hd]⟩
  | error _ => exact ⟨_, .next (·.latchMarker x), fun s hs => by simp only [decByte, hs, hd]⟩

theorem decStep_decOnly : DecOnly decStep := by
  refine .of_cases fun d => ?_
  by_cases he : d.rdptr = d.inlen
  · exact ⟨_, .next (·.raise .truncated), fun s hs => by simp only [decStep, hs, if_pos he]⟩
  · cases hr : Memory.read d.inMem d.rdptr.toNat with
    | none => exact ⟨_, .fault (.decInUnwritten d.rdptr.toNat), fun s hs => by simp only [decStep, hs, if_neg he, hr]⟩
    | some x => exact ⟨_, decByte_decOnly x, fun s hs => by simp only [decStep, hs, if_neg he, hr]⟩

theorem engineStep_dec_decOnly : DecOnly (engineStep .dec) := by
  refine .of_cases fun d => ?_
  by_cases hb : d.status = .busy
  · exact ⟨_, decStep_decOnly, fun s hs => if_pos (hs ▸ hb)⟩
  · exact ⟨_, .idle, fun s hs => if_neg (hs ▸ hb)⟩

theorem writeDecCtrl_decOnly (v : RegWord) : DecOnly (writeDecCtrl v) := by
  refine .of_cases fun d => ?_
  by_cases hb : v.getLsbD 0 = true ∧ d.status ≠ .busy
  · exact ⟨_, decStart_decOnly, fun s hs => if_pos (hs ▸ hb)⟩
  · exact ⟨_, .idle, fun s hs => if_neg (hs ▸ hb)⟩

/-! ## The encoder's steps -/

theorem EncOnly.next (g : EncState → EncState) : EncOnly fun s => .next (s.withEnc (g s.enc)) :=
  ⟨fun e => .ok (g e), fun _ => rfl⟩

theorem EncOnly.idle : EncOnly .next := .next id

/-- Which case applies may depend on the encoder. -/
theorem EncOnly.of_cases {f : State → Result} (h : ∀ e, ∃ g, EncOnly g ∧ ∀ s, s.enc = e → f s = g s) : EncOnly f := by
  choose g hg hf using h
  choose r hr using hg
  exact ⟨fun e => r e e, fun s => (hf s.enc s rfl).trans (hr s.enc s)⟩

theorem encStep_encOnly : EncOnly encStep := by
  refine ⟨EncState.tokenStep, fun s => ?_⟩
  unfold encStep
  cases s.enc.tokenStep <;> rfl

theorem engineStep_enc_encOnly : EncOnly (engineStep .enc) := by
  refine .of_cases fun e => ?_
  by_cases hb : e.status = .busy
  · exact ⟨_, encStep_encOnly, fun s hs => if_pos (hs ▸ hb)⟩
  · exact ⟨_, .idle, fun s hs => if_neg (hs ▸ hb)⟩

theorem writeEncCtrl_encOnly (v : RegWord) : EncOnly (writeEncCtrl v) := by
  refine .of_cases fun e => ?_
  by_cases hb : v.getLsbD 0 = true ∧ e.status ≠ .busy
  · exact ⟨_, .next (·.start), fun s hs => if_pos (hs ▸ hb)⟩
  · exact ⟨_, .idle, fun s hs => if_neg (hs ▸ hb)⟩

/-! ## Two runs -/

/-- From states that differ in the encoder only, `f` makes the same decoder of both or stops both with the same fault. -/
theorem DecOnly.two_runs {f : State → Result} (hf : DecOnly f) (s : State) (e : EncState) :
    (∃ d, f s = .next (s.withDec d) ∧ f (s.withEnc e) = .next ((s.withEnc e).withDec d)) ∨
    (∃ x, f s = .fault x ∧ f (s.withEnc e) = .fault x) := by
  obtain ⟨r, hr⟩ := hf
  rw [hr, hr, State.withEnc_dec]
  cases r s.dec with
  | ok d => exact .inl ⟨d, rfl, rfl⟩
  | error x => exact .inr ⟨x, rfl, rfl⟩

/-- From states that differ in the decoder only, `f` makes the same encoder of both or stops both with the same fault. -/
theorem EncOnly.two_runs {f : State → Result} (hf : EncOnly f) (s : State) (d : DecState) :
    (∃ e, f s = .next (s.withEnc e) ∧ f (s.withDec d) = .next ((s.withDec d).withEnc e)) ∨
    (∃ x, f s = .fault x ∧ f (s.withDec d) = .fault x) := by
  obtain ⟨r, hr⟩ := hf
  rw [hr, hr, State.withDec_enc]
  cases r s.enc with
  | ok e => exact .inl ⟨e, rfl, rfl⟩
  | error x => exact .inr ⟨x, rfl, rfl⟩

theorem moveStep_decOnly {m : Move} (hm : m = .engine .dec ∨ ∃ v, m = .host (.writeReg 9#4 v)) : DecOnly (moveStep m) := by
  obtain rfl | ⟨v, rfl⟩ := hm
  · exact engineStep_dec_decOnly
  · exact writeDecCtrl_decOnly v

theorem moveStep_encOnly {m : Move} (hm : m = .engine .enc ∨ ∃ v, m = .host (.writeReg 0#4 v)) : EncOnly (moveStep m) := by
  obtain rfl | ⟨v, rfl⟩ := hm
  · exact engineStep_enc_encOnly
  · exact writeEncCtrl_encOnly v

/-- Settles O45: each engine's moves answer by a function of that engine alone. -/
theorem enginesAreIndependent : Obligations.EnginesAreIndependent := by
  refine ⟨fun s ms m d h hm => ?_, fun s ms m e h hm => ?_⟩
  · have h' : (s.withDec d).script = m :: ms := h
    rw [step_cons h, step_cons h']
    obtain ⟨e, h1, h2⟩ | ⟨x, h1, h2⟩ := (moveStep_encOnly hm).two_runs (s.withScript ms) d
    · rw [h1, show moveStep m ((s.withDec d).withScript ms) = _ from h2]
      exact ⟨rfl, rfl, rfl⟩
    · rw [h1, show moveStep m ((s.withDec d).withScript ms) = _ from h2]
  · have h' : (s.withEnc e).script = m :: ms := h
    rw [step_cons h, step_cons h']
    obtain ⟨d, h1, h2⟩ | ⟨x, h1, h2⟩ := (moveStep_decOnly hm).two_runs (s.withScript ms) e
    · rw [h1, show moveStep m ((s.withEnc e).withScript ms) = _ from h2]
      exact ⟨rfl, rfl, rfl⟩
    · rw [h1, show moveStep m ((s.withEnc e).withScript ms) = _ from h2]

end Sys2Proof.Machine
end

section
/-! PROOFS. The stream's encoding (spec/30_encoding.md): the header's two refusals and its fields (R65), and the complete map of a
token's first and second byte with the bits each row stands for (R71, R73). -/

namespace Sys2Proof.Machine

/-! ## The fields of a second byte as parts of its value (R72) -/

theorem extract_low7 (b : Byte) : b.extractLsb' 0 7 = BitVec.ofNat 7 (b.toNat % 128) := by
  apply BitVec.eq_of_toNat_eq
  simp

theorem extract_lowNibble (b : Byte) : b.extractLsb' 0 4 = BitVec.ofNat 4 (b.toNat % 16) := by
  apply BitVec.eq_of_toNat_eq
  simp

theorem extract_highNibble (b : Byte) : b.extractLsb' 4 4 = BitVec.ofNat 4 (b.toNat / 16) := by
  apply BitVec.eq_of_toNat_eq
  simp [Nat.shiftRight_eq_div_pow]

/-! ## The two-byte rows of the map -/

theorem decodeAfterC3_eq (b : Byte) : decodeAfterC3 b =
    if b = 0#8 then .escapeC3 else .longRun (b.getLsbD 7) (BitVec.ofNat 7 (b.toNat % 128)) := by
  rw [decodeAfterC3, extract_low7]

theorem decodeAfter3D_eq (b : Byte) : decodeAfter3D b =
    if b = 0#8 then .escape3D else .dualRun1 (BitVec.ofNat 4 (b.toNat / 16)) (BitVec.ofNat 4 (b.toNat % 16)) := by
  rw [decodeAfter3D, extract_highNibble, extract_lowNibble]

theorem decodeAfter65_eq (b : Byte) : decodeAfter65 b =
    if b = 0#8 then .escape65 else .dualRun0 (BitVec.ofNat 4 (b.toNat / 16)) (BitVec.ofNat 4 (b.toNat % 16)) := by
  rw [decodeAfter65, extract_highNibble, extract_lowNibble]

/-! ## How many bits each row stands for (R71) -/

theorem longLen_low7 (b : Byte) : longLen (BitVec.ofNat 7 (b.toNat % 128)) = b.toNat % 128 + 16 := by
  simp [longLen]

theorem dualLen_nibbles (b : Byte) : dualLen (BitVec.ofNat 4 (b.toNat / 16)) + dualLen (BitVec.ofNat 4 (b.toNat % 16)) =
    b.toNat / 16 + b.toNat % 16 + 2 := by
  have hb := b.isLt
  simp only [dualLen, BitVec.toNat_ofNat]
  omega

theorem length_tokenBits_decodeAfterC3 (b : Byte) :
    (tokenBits (decodeAfterC3 b)).length = if b = 0#8 then 8 else b.toNat % 128 + 16 := by
  rw [decodeAfterC3_eq]
  split
  · rfl
  · rw [tokenBits, List.length_replicate, longLen_low7]

theorem length_tokenBits_decodeAfter3D (b : Byte) :
    (tokenBits (decodeAfter3D b)).length = if b = 0#8 then 8 else b.toNat / 16 + b.toNat % 16 + 2 := by
  rw [decodeAfter3D_eq]
  split
  · rfl
  · rw [tokenBits, List.length_append, List.length_replicate, List.length_replicate, dualLen_nibbles]

theorem length_tokenBits_decodeAfter65 (b : Byte) :
    (tokenBits (decodeAfter65 b)).length = if b = 0#8 then 8 else b.toNat / 16 + b.toNat % 16 + 2 := by
  rw [decodeAfter65_eq]
  split
  · rfl
  · rw [tokenBits, List.length_append, List.length_replicate, List.length_replicate, dualLen_nibbles]

/-! ## One token -/

theorem decodeToken_of_not_marker {a : Byte} (ha : isMarker a = false) (rest : List Byte) :
    decodeToken (a :: rest) = .ok (.verbatim a, rest) := by
  simp [decodeToken, ha]

theorem decodeToken_marker_alone {a : Byte} (ha : isMarker a = true) : decodeToken [a] = .error .tokenCut := by
  simp [decodeToken, ha]

theorem decodeToken_marker_pair {a : Byte} (ha : isMarker a = true) (b : Byte) (rest : List Byte) :
    decodeToken (a :: b :: rest) = .ok (decodePair a b, rest) := by
  simp [decodeToken, ha]

/-- Settles O3, by the first byte: no marker, or one of the three, each with its row of the map. -/
theorem firstByteSetsTokenLength : Obligations.FirstByteSetsTokenLength := by
  refine ⟨fun a rest h1 h2 h3 => ⟨decodeToken_of_not_marker (by simp [isMarker, h1, h2, h3]) rest, rfl⟩, fun a ha => ?_⟩
  have hm := (isMarker_iff a).mpr ha
  refine ⟨decodeToken_marker_alone hm, fun b rest => ⟨decodePair a b, decodeToken_marker_pair hm b rest, ?_⟩⟩
  obtain rfl | rfl | rfl := ha
  · exact ⟨decodeAfterC3_eq b, length_tokenBits_decodeAfterC3 b⟩
  · exact ⟨decodeAfter3D_eq b, length_tokenBits_decodeAfter3D b⟩
  · exact ⟨decodeAfter65_eq b, length_tokenBits_decodeAfter65 b⟩

/-! ## The header -/

theorem decodeHeader_short {bytes : List Byte} (h : bytes.length < 5) : decodeHeader bytes = .error .headerShort := by
  unfold decodeHeader
  split
  · simp only [List.length_cons] at h
    omega
  · rfl

/-- The five bytes are counted before the tag is looked at (R124). -/
theorem decodeHeader_otherTag {bytes : List Byte} (hl : 5 ≤ bytes.length) (ht : bytes.take 3 ≠ headerTag) :
    decodeHeader bytes = .error .headerMagic := by
  match bytes, hl with
  | t0 :: t1 :: t2 :: w :: h :: rest, _ => exact if_neg ht

theorem decodeHeader_tag (w h : Byte) (rest : List Byte) :
    decodeHeader (headerTag ++ w :: h :: rest) = .ok (.header w h, rest) := by
  simp [decodeHeader, headerTag]

/-- Settles O5: too short, another tag, or the header's fields. -/
theorem headerNeedsFiveBytesAndTag : Obligations.HeaderNeedsFiveBytesAndTag := by
  refine fun bytes => ⟨decodeHeader_short, decodeHeader_otherTag, fun w h rest hb => ?_⟩
  subst hb
  exact decodeHeader_tag w h rest

end Sys2Proof.Machine
end

section
/-! PROOFS. The tokenizer (spec/40_tokenizer.md): the run scan is the largest run (R79), and which token the encoder's step emits
in branches 1, 2 and 4 (R81, R82, R84). -/

namespace Sys2Proof.Machine

/-! ## The run scan (R79) -/

/-- No longer stretch of the value starts where a run does: the bit that ends the run is the other one. -/
theorem IsRun.largest {m : Memory Bit} {n : Nat} {v : Bit} {p cap k k' : Nat} (h : IsRun m n v p cap k)
    (hk' : k' ≤ min cap (n - p)) (hv : ∀ t, t < k' → Memory.read m (p + t) = some v) : k' ≤ k := by
  obtain ⟨-, -, hend⟩ := h
  by_contra hlt
  have hother := hend (by omega)
  rw [hv k (by omega)] at hother
  cases v <;> simp at hother

/-- A run is one in every memory that agrees on its bits and on the bit that ends it. -/
theorem IsRun.congr {m m' : Memory Bit} {n : Nat} {v : Bit} {p cap k : Nat} (h : IsRun m n v p cap k)
    (hm : ∀ a, p ≤ a → a ≤ p + k → a < min n (p + cap) → Memory.read m' a = Memory.read m a) : IsRun m' n v p cap k := by
  obtain ⟨hle, hrun, hend⟩ := h
  refine ⟨hle, fun t ht => ?_, fun hk => ?_⟩
  · rw [hm (p + t) (by omega) (by omega) (by omega), hrun t ht]
  · rw [hm (p + k) (by omega) (by omega) (by omega), hend hk]

theorem IsRun.le_cap {m : Memory Bit} {n : Nat} {v : Bit} {p cap k : Nat} (h : IsRun m n v p cap k) : k ≤ cap := by
  obtain ⟨hle, -⟩ := h
  omega

/-- Settles O21: what the scan answers is the run, and the run is the largest and decided by the bits up to its end. -/
theorem runScanIsTheLargestRun : Obligations.RunScanIsTheLargestRun := by
  refine fun m n v p cap => ⟨fun k hk => ?_, fun hfilled => ?_⟩
  · have hrun := isRun_of_runScan hk
    have ⟨hle, hbits, _⟩ := hrun
    exact ⟨⟨hle, hbits⟩, fun k' => hrun.largest, fun m' hm => runScan_of_isRun (hrun.congr hm)⟩
  · obtain ⟨k, hrun⟩ := exists_isRun v cap hfilled
    exact ⟨k, runScan_of_isRun hrun⟩

/-! ## From the tokenizer's answer to the token step (R94) -/

/-- The token step where the tokenizer's answer is known. The invariant leaves room for the token's bytes in ENC_OUT. -/
theorem step_enc_emits {s : State} {ms : List Move} {i : Instr} {k : Nat} (hinv : s.Inv)
    (hs : s.script = .engine .enc :: ms) (hb : s.enc.status = .busy)
    (ht : tokenize s.enc.inMem s.enc.n s.enc.cursor.toNat = .ok (i, k)) :
    ∃ t, step s = .next t ∧ (s.withScript ms).SameButEnc t ∧ s.enc.Emitted t.enc (encode i) k ∧
      t.enc.counts = (s.enc.count i).counts := by
  obtain ⟨-, -, -, hk, hlen, -⟩ := (tokenize_branch ht).facts
  have hcursor := hinv.enc.busyCursor hb
  have hn := s.enc.n_le
  have hout := hinv.enc.outlenMax
  obtain ⟨hemit, hcounts, -⟩ := EncState.put_emitted i k s.enc hb (by omega) (by omega)
  refine ⟨(s.withScript ms).withEnc (s.enc.put i k), ?_, ⟨rfl, rfl, rfl, rfl⟩, hemit, hcounts⟩
  rw [step_enc hs hb]
  simp [encStep, EncState.tokenStep, ht]

/-! ## Branches 1 and 2 -/

theorem tokenize_long {m : Memory Bit} {n c j : Nat} {b : Bit} (h : IsRun m n b c 143 j) (hj : 17 ≤ j) :
    tokenize m n c = .ok (longToken b j, j) := by
  rw [tokenize_of_isRun h (by omega), tokenizeRun, if_pos hj]

/-- Settles O23: the tokenizer answers the long run, and the step emits it. -/
theorem longRunBranch : Obligations.LongRunBranch := by
  intro s ms b j hinv hs hb hrun hj
  obtain ⟨-, -, -, hbytes, -⟩ := longToken_facts b hj hrun.le_cap
  rw [← hbytes]
  exact step_enc_emits hinv hs hb (tokenize_long hrun hj)

theorem tokenize_dual {m : Memory Bit} {n c j j2 : Nat} {b : Bit} (h : IsRun m n b c 143 j) (h1 : 1 < j) (h17 : j < 17)
    (h2 : IsRun m n (!b) (c + j) 16 j2) (hsum : 16 < j + j2) : tokenize m n c = .ok (dualToken b j j2, j + j2) := by
  rw [tokenize_of_isRun h (by omega), tokenizeRun, if_neg (by omega), tryDual, if_pos h1, runScan_of_isRun h2]
  simp only [if_pos hsum]

theorem EncState.count_dualToken (b : Bit) (j j2 : Nat) (e : EncState) :
    (e.count (dualToken b j j2)).counts = [e.cntLong, e.cntDual + 1#16, e.cntEsc, e.cntVerb] := by
  cases b <;> rfl

/-- Settles O24: the tokenizer answers the dual run, and the step emits it. -/
theorem dualRunBranch : Obligations.DualRunBranch := by
  intro s ms b j j2 hinv hs hb hrun h1 h17 hrun2 hsum
  obtain ⟨-, -, -, hbytes, -⟩ := dualToken_facts b h1 h17 hrun2.le_cap hsum
  rw [← hbytes, ← EncState.count_dualToken b j j2]
  exact step_enc_emits hinv hs hb (tokenize_dual hrun h1 h17 hrun2 hsum)

/-! ## Branch 4 -/

theorem tryDual_none {m : Memory Bit} {n c j j2 : Nat} {b : Bit}
    (h : 1 < j → IsRun m n (!b) (c + j) 16 j2 ∧ j + j2 ≤ 16) : tryDual m n c b j = .ok none := by
  by_cases h1 : 1 < j
  · obtain ⟨hrun2, hsum⟩ := h h1
    rw [tryDual, if_pos h1, runScan_of_isRun hrun2]
    simp only [if_neg (show ¬ 16 < j + j2 by omega)]
  · rw [tryDual, if_neg h1]

theorem tryEscape_none {m : Memory Bit} {n c : Nat} {bs : List Bit} (hbits : encInBits m c (min 8 (n - c)) = .ok bs)
    (hp : 8 ≤ n - c → escapeToken (pack bs) = none) : tryEscape m n c = .ok none := by
  by_cases h8 : 8 ≤ n - c
  · rw [Nat.min_eq_left h8] at hbits
    rw [tryEscape, if_pos h8, hbits]
    simp only [hp h8]
  · rw [tryEscape, if_neg h8]

theorem tokenizeLiteral_verbatim {m : Memory Bit} {n c : Nat} {bs : List Bit}
    (hbits : encInBits m c (min 8 (n - c)) = .ok bs) (hp : 8 ≤ n - c → escapeToken (pack bs) = none) :
    tokenizeLiteral m n c = .ok (.verbatim (pack bs), min 8 (n - c)) := by
  rw [tokenizeLiteral, tryEscape_none hbits hp]
  simp only [verbatimRest, hbits]

/-- Branch 4 is reached where neither run branch fires and the literal bits are no reserved pattern. -/
theorem tokenize_verbatim {m : Memory Bit} {n c j j2 : Nat} {b : Bit} {bs : List Bit} (h : IsRun m n b c 143 j)
    (h1 : 1 ≤ j) (h17 : j < 17) (h2 : 1 < j → IsRun m n (!b) (c + j) 16 j2 ∧ j + j2 ≤ 16)
    (hbits : encInBits m c (min 8 (n - c)) = .ok bs) (hp : 8 ≤ n - c → escapeToken (pack bs) = none) :
    tokenize m n c = .ok (.verbatim (pack bs), min 8 (n - c)) := by
  rw [tokenize_of_isRun h h1, tokenizeRun, if_neg (by omega), tryDual_none h2]
  exact tokenizeLiteral_verbatim hbits hp

/-- Bit 7 of a byte is its earliest (R50). -/
theorem unpack_getElem? (p : Byte) {t : Nat} (ht : t < 8) : (unpack p)[t]? = some (p.getLsbD (7 - t)) := by
  interval_cases t <;> rfl

/-- A byte whose bits after the first `k` are 0 is its first `k` bits packed (R50, D7). -/
theorem pack_take_unpack {p : Byte} {k : Nat} (hpad : ∀ t, k ≤ t → t < 8 → p.getLsbD (7 - t) = false) :
    pack ((unpack p).take k) = p := by
  have hzero : (unpack p).drop k = List.replicate (8 - min k 8) false := by
    refine List.ext_getElem? fun t => ?_
    rw [List.getElem?_drop, List.getElem?_replicate]
    split
    · rw [unpack_getElem? p (by omega), hpad (k + t) (by omega) (by omega)]
    · exact List.getElem?_eq_none (by rw [unpack_length]; omega)
  rw [pack_pad, List.length_take, unpack_length, ← hzero, List.take_append_drop, pack_unpack]

/-- Cells that hold the first `k` bits of a byte read as them. -/
theorem encInBits_take_unpack {m : Memory Bit} {c k : Nat} {p : Byte} (hk : k ≤ 8)
    (h : ∀ t, t < k → Memory.read m (c + t) = some (p.getLsbD (7 - t))) : encInBits m c k = .ok ((unpack p).take k) := by
  have hlen : ((unpack p).take k).length = k := by rw [List.length_take, unpack_length, Nat.min_eq_left hk]
  have hread := Memory.readList_of_reads (m := m) (a := c) (xs := (unpack p).take k) fun t ht => by
    rw [hlen] at ht
    rw [h t ht, List.getElem?_take_of_lt ht, unpack_getElem? p (by omega)]
  rw [hlen] at hread
  exact encInBits_ok.mpr hread

/-- Settles O26: the tokenizer answers the packed bits as a verbatim token, and the step emits it. -/
theorem verbatimBranch : Obligations.VerbatimBranch := by
  intro s ms b j j2 k p hinv hs hb hrun h1 h17 hdual hk hmarker hbits hpad
  have hpack : pack ((unpack p).take k) = p := pack_take_unpack hpad
  have hlit : encInBits s.enc.inMem s.enc.cursor.toNat k = .ok ((unpack p).take k) :=
    encInBits_take_unpack (by omega) hbits
  have hescape : 8 ≤ s.enc.n - s.enc.cursor.toNat → escapeToken (pack ((unpack p).take k)) = none := fun h8 => by
    obtain ⟨hC3, h3D, h65⟩ := hmarker (by omega)
    simp [hpack, escapeToken, hC3, h3D, h65]
  have htok := tokenize_verbatim hrun h1 h17 hdual (hk ▸ hlit) hescape
  rw [hpack, ← hk] at htok
  exact step_enc_emits hinv hs hb htok

end Sys2Proof.Machine
end

section
/-! PROOFS. The encoder's START step (spec/41_encoder.md): what a host write of ENC_CTRL with bit 0 set does (R90, R112). -/

namespace Sys2Proof.Machine

/-- While ENC is BUSY no write to ENC_CTRL does anything (R112). -/
theorem writeEncCtrl_busy (v : RegWord) {s : State} (hb : s.enc.status = .busy) : writeEncCtrl v s = .next s :=
  if_neg fun hstart => hstart.2 hb

/-- ENC START puts the five header bytes at the front of ENC_OUT and leaves every other byte as it was (R65, R90). -/
theorem EncState.start_stored (e : EncState) :
    Memory.Stored e.outMem e.start.outMem 0 [0x46#8, 0x43#8, 0x30#8, e.width, e.height] :=
  Memory.writeList_stored (encode (.header e.width e.height)) e.outMem 0

/-- Settles O22: a BUSY encoder ignores the write, and any other runs START, which does what R90 lists. -/
theorem encStartWritesHeader : Obligations.EncStartWritesHeader := by
  refine fun s ms v h hv => ⟨fun hb => ?_, fun hb => ?_⟩
  · rw [step_writeReg h]
    exact writeEncCtrl_busy v hb
  · obtain ⟨hcounts, hcursor, houtlen, herrcode, hstatus, hwidth, hheight, hinMem, -⟩ := s.enc.start_facts
    exact ⟨_, step_encStart h hv hb, ⟨rfl, rfl, rfl, rfl⟩, hcounts, hcursor, houtlen, herrcode, hstatus, hwidth, hheight,
      hinMem, s.enc.start_stored⟩

end Sys2Proof.Machine
end

section
/-! PROOFS. The decoder's clamped writer and the seven token rows (spec/42_decoder.md): what `put` does (R99), and the bits each
token writes when it completes (R102 to R105). -/

namespace Sys2Proof.Machine

/-! ## The clamped writer (R99) -/

/-- Where no bit is left to write, `put` changes nothing. -/
theorem DecState.put_full {d : DecState} (h : d.n ≤ d.cursor.toNat) (b : Bit) (k : Nat) : d.put b k = d := by
  have hroom : d.room k = 0 := by
    have := d.room_le k
    omega
  simp [DecState.put, hroom, Memory.writeList]

/-- A `put` of as many bits as are left fills the bitmap. -/
theorem DecState.put_fills {d : DecState} {k : Nat} (h : d.n ≤ d.cursor.toNat + k) (b : Bit) :
    (d.put b k).n ≤ (d.put b k).cursor.toNat := by
  rw [DecState.put_n, DecState.put_cursor]
  omega

/-- Settles O12: each `put` writes what fits, two are one after the other, and a full bitmap takes nothing. -/
theorem putIsClamped : Obligations.PutIsClamped := fun b c k l d =>
  ⟨d.put_wrote b k, (d.put_wrote b k).trans ((d.put b k).put_wrote c l) rfl, fun h =>
    DecState.put_full (DecState.put_fills h b) c l⟩

/-! ## The token rows -/

theorem State.sameButDec_withDec (s : State) (d : DecState) : s.SameButDec (s.withDec d) := ⟨rfl, rfl, rfl, rfl⟩

/-- Settles O6: Verbatim is the one-byte token, so PHASE stays. -/
theorem verbatimWritesItsBits : Obligations.VerbatimWritesItsBits := by
  intro v s
  obtain ⟨d, hexec, hdone, -, hphase, -⟩ := exec_token (i := .verbatim v) rfl s
  exact ⟨_, hexec, s.sameButDec_withDec d, hdone, hphase rfl⟩

/-- Executing a two-byte token writes the bits it stands for and returns to expecting a token byte (R101). -/
theorem exec_twoByte {i : Instr} (hi : i.isToken = true) (hlen : (encode i).length = 2) (s : State) :
    ∃ t, exec i s = .next t ∧ s.SameButDec t ∧ t.dec.phase = .expectToken ∧ s.dec.TokenDone t.dec (tokenBits i) := by
  obtain ⟨d, hexec, hdone, hphase, -⟩ := exec_token hi s
  exact ⟨_, hexec, s.sameButDec_withDec d, hphase hlen, hdone⟩

/-- Settles O7: LongRun is a two-byte token that stands for its run. -/
theorem longRunWritesItsRun : Obligations.LongRunWritesItsRun := by
  intro bit len7 s
  obtain ⟨t, hexec, hsame, hphase, hdone⟩ := exec_twoByte (i := .longRun bit len7) rfl rfl s
  exact ⟨t, hexec, hsame, hdone, hphase⟩

/-- Settles O8: each lead byte makes a two-byte token that stands for its two runs. -/
theorem dualRunWritesTwoRuns : Obligations.DualRunWritesTwoRuns := fun l1 l2 s =>
  ⟨exec_twoByte (i := .dualRun1 l1 l2) rfl rfl s, exec_twoByte (i := .dualRun0 l1 l2) rfl rfl s⟩

/-- Settles O9: each escape is a two-byte token that stands for its lead byte's own bits. -/
theorem escapeWritesItsPattern : Obligations.EscapeWritesItsPattern := fun s =>
  ⟨exec_twoByte (i := .escapeC3) rfl rfl s, exec_twoByte (i := .escape3D) rfl rfl s,
    exec_twoByte (i := .escape65) rfl rfl s⟩

end Sys2Proof.Machine
end

section
/-! PROOFS. The decoder's automaton step (spec/42_decoder.md): what DEC does with no input left (R107), with a token byte
(R100) and with a continuation byte (R101). -/

namespace Sys2Proof.Machine

/-! ## No input left (R107) -/

theorem step_dec_truncated {s : State} {ms : List Move} (h : s.script = .engine .dec :: ms) (hb : s.dec.status = .busy)
    (hr : s.dec.rdptr = s.dec.inlen) : step s = .next ((s.withScript ms).withDec (s.dec.raise .truncated)) := by
  rw [step_dec h hb]
  exact if_pos hr

/-- Raising TRUNCATED changes STATE and ERRCODE and, of DEC_OUT apart, no other part of the decoder (R122). -/
theorem DecState.raise_truncated_frame (d : DecState) :
    { d.raise .truncated with outMem := d.outMem } = { d with status := .error, errcode := 3#4 } := rfl

/-- Settles O17: the step is the `raise`, which keeps every other register. -/
theorem truncationIsAnError : Obligations.TruncationIsAnError := fun _ _ h hb hr =>
  ⟨_, step_dec_truncated h hb hr, State.sameButDec_withDec _ _, rfl, rfl, rfl, rfl, rfl, rfl, rfl, rfl, rfl, rfl⟩

/-! ## A byte read -/

theorem step_dec_read {s : State} {ms : List Move} {x : Byte} (h : s.script = .engine .dec :: ms) (hb : s.dec.status = .busy)
    (hr : s.dec.rdptr ≠ s.dec.inlen) (hx : Memory.read s.dec.inMem s.dec.rdptr.toNat = some x) :
    step s = decByte x (s.withScript ms) := by
  rw [step_dec h hb]
  exact decStep_read hr hx

theorem DecState.tokenBytes_expectToken {d : DecState} (hp : d.phase = .expectToken) (x : Byte) : d.tokenBytes x = [x] := by
  simp [DecState.tokenBytes, hp]

theorem DecState.tokenBytes_expectCont {d : DecState} (hp : d.phase = .expectCont) (x : Byte) :
    d.tokenBytes x = [d.latch, x] := by
  simp [DecState.tokenBytes, hp]

/-- A marker read in phase expect-token-byte is latched (R100). -/
theorem decByte_marker {s : State} {x : Byte} (hp : s.dec.phase = .expectToken) (hx : isMarker x = true) :
    decByte x s = .next (s.withDec (s.dec.latchMarker x)) := by
  rw [decByte, DecState.tokenBytes_expectToken hp, decodeToken_marker_alone hx]

/-- Any other byte read in phase expect-token-byte is a verbatim token (R100). -/
theorem decByte_verbatim {s : State} {x : Byte} (hp : s.dec.phase = .expectToken) (hx : isMarker x = false) :
    decByte x s = exec (.verbatim x) s := by
  refine decByte_ok (rest := []) ?_
  rw [DecState.tokenBytes_expectToken hp, decodeToken_of_not_marker hx]

/-- A byte read after a latched marker completes the pair's token (R101). -/
theorem decByte_pair {s : State} (hp : s.dec.phase = .expectCont) (hm : isMarker s.dec.latch = true) (x : Byte) :
    decByte x s = exec (decodePair s.dec.latch x) s := by
  refine decByte_ok (rest := []) ?_
  rw [DecState.tokenBytes_expectCont hp, decodeToken_marker_pair hm]

/-- Settles O14: no input, a marker, or a verbatim byte. -/
theorem tokenByteStep : Obligations.TokenByteStep := by
  refine fun s ms h hb hp => ⟨fun hr => ?_, fun a hr ha => ?_⟩
  · exact ⟨_, step_dec_truncated h hb hr, State.sameButDec_withDec _ _, s.dec.raise_truncated_frame⟩
  · rw [step_dec_read h hb hr ha]
    split
    case isTrue hm => exact decByte_marker hp ((isMarker_iff a).mpr hm)
    case isFalse hm =>
      have hnot : isMarker a = false := Bool.eq_false_iff.mpr (mt (isMarker_iff a).mp hm)
      rw [decByte_verbatim (s := s.withScript ms) hp hnot]
      obtain ⟨t, hexec, hsame, hdone, hphase⟩ := verbatimWritesItsBits a (s.withScript ms)
      exact ⟨t, hexec, hsame, hphase.trans hp, hdone⟩

/-! ## The bits of a marker's pair (R103 to R105) -/

/-- Bit 7 of a byte as a bound on its value. -/
theorem getLsbD_seven (b : Byte) : b.getLsbD 7 = decide (128 ≤ b.toNat) := BitVec.msb_eq_decide b

theorem dualLen_highNibble (b : Byte) : dualLen (BitVec.ofNat 4 (b.toNat / 16)) = b.toNat / 16 + 1 := by
  have hb := b.isLt
  simp only [dualLen, BitVec.toNat_ofNat]
  omega

theorem dualLen_lowNibble (b : Byte) : dualLen (BitVec.ofNat 4 (b.toNat % 16)) = b.toNat % 16 + 1 := by
  simp [dualLen]

theorem tokenBits_decodeAfterC3 (b : Byte) : tokenBits (decodeAfterC3 b) =
    if b = 0#8 then unpack 0xC3#8 else List.replicate (b.toNat % 128 + 16) (decide (128 ≤ b.toNat)) := by
  rw [decodeAfterC3_eq, getLsbD_seven]
  split
  · rfl
  · rw [tokenBits, longLen_low7]

theorem tokenBits_decodeAfter3D (b : Byte) : tokenBits (decodeAfter3D b) =
    if b = 0#8 then unpack 0x3D#8
    else List.replicate (b.toNat / 16 + 1) true ++ List.replicate (b.toNat % 16 + 1) false := by
  rw [decodeAfter3D_eq]
  split
  · rfl
  · rw [tokenBits, dualLen_highNibble, dualLen_lowNibble]

theorem tokenBits_decodeAfter65 (b : Byte) : tokenBits (decodeAfter65 b) =
    if b = 0#8 then unpack 0x65#8
    else List.replicate (b.toNat / 16 + 1) false ++ List.replicate (b.toNat % 16 + 1) true := by
  rw [decodeAfter65_eq]
  split
  · rfl
  · rw [tokenBits, dualLen_highNibble, dualLen_lowNibble]

/-- Which bits a marker and its second byte stand for: 0x00 the marker's own 8 bits, any other byte its run or runs (R101). -/
theorem tokenBits_decodePair {a : Byte} (ha : a = 0xC3#8 ∨ a = 0x3D#8 ∨ a = 0x65#8) (b : Byte) :
    tokenBits (decodePair a b) =
      if b = 0#8 then
        (if a = 0xC3#8 then unpack 0xC3#8 else if a = 0x3D#8 then unpack 0x3D#8 else unpack 0x65#8)
      else if a = 0xC3#8 then List.replicate (b.toNat % 128 + 16) (decide (128 ≤ b.toNat))
      else List.replicate (b.toNat / 16 + 1) (decide (a = 0x3D#8)) ++
        List.replicate (b.toNat % 16 + 1) (decide (a = 0x65#8)) := by
  obtain rfl | rfl | rfl := ha
  · exact tokenBits_decodeAfterC3 b
  · exact tokenBits_decodeAfter3D b
  · exact tokenBits_decodeAfter65 b

/-- Settles O15: no input, or the marker's pair completed. -/
theorem continuationByteStep : Obligations.ContinuationByteStep := by
  refine fun s ms h hb hp hl => ⟨fun hr => ?_, fun b hr hread => ?_⟩
  · exact ⟨_, step_dec_truncated h hb hr, State.sameButDec_withDec _ _, s.dec.raise_truncated_frame⟩
  · have hm : isMarker s.dec.latch = true := (isMarker_iff _).mpr hl
    obtain ⟨hencode, -, htoken⟩ := encode_decodePair hm b
    have hrun := exec_twoByte htoken (by rw [hencode]; rfl) (s.withScript ms)
    rw [tokenBits_decodePair hl] at hrun
    rw [step_dec_read h hb hr hread, decByte_pair (s := s.withScript ms) hp hm]
    exact hrun

end Sys2Proof.Machine
end

section
/-! PROOFS. The decoder's START step (spec/42_decoder.md): the length check, the tag check, then the header (R97, R124). -/

namespace Sys2Proof.Machine

/-- While DEC is BUSY no write to DEC_CTRL does anything (R112). -/
theorem writeDecCtrl_busy (v : RegWord) {s : State} (hb : s.dec.status = .busy) : writeDecCtrl v s = .next s :=
  if_neg fun hstart => hstart.2 hb

/-! ## The three ways START goes -/

theorem decStart_short {s : State} (h : s.dec.inlen.toNat < 5) : decStart s = decStartFails .formatShort s := if_pos h

theorem decStart_otherTag {s : State} {tag : List Byte} (hl : 5 ≤ s.dec.inlen.toNat)
    (hread : Memory.readList s.dec.inMem 0 3 = .ok tag) (ht : tag ≠ headerTag) :
    decStart s = decStartFails .formatMagic s := by
  rw [decStart, if_neg (by omega), hread]
  exact if_neg ht

theorem decStart_header {s : State} {w h : Byte} (hl : 5 ≤ s.dec.inlen.toNat)
    (htag : Memory.readList s.dec.inMem 0 3 = .ok headerTag) (hdims : Memory.readList s.dec.inMem 3 2 = .ok [w, h]) :
    decStart s = exec (.header w h) s := by
  rw [decStart, if_neg (by omega), htag]
  simp only [if_true, decStartDims, hdims]
  rw [decodeHeader_tag]

/-! ## What each leaves (R97) -/

/-- A START that fails leaves ERROR with its code and everything START clears clear; DEC_IN and DEC_INLEN stay. -/
theorem decStartFails_facts (c : ErrCode) (s : State) : ∃ t, decStartFails c s = .next t ∧ s.SameButDec t ∧
    t.dec.status = .error ∧ t.dec.errcode = c.bits ∧ t.dec.width = 0#8 ∧ t.dec.height = 0#8 ∧ t.dec.rdptr = 0#16 ∧
    t.dec.cursor = 0#16 ∧ t.dec.phase = .expectToken ∧ t.dec.latch = 0#8 ∧ t.dec.inlen = s.dec.inlen ∧
    t.dec.inMem = s.dec.inMem :=
  ⟨_, rfl, s.sameButDec_withDec _, rfl, rfl, rfl, rfl, rfl, rfl, rfl, rfl, rfl, rfl⟩

/-- A header that is run starts the decode of its dimensions. -/
theorem exec_header_facts (w h : Byte) (s : State) : ∃ t, exec (.header w h) s = .next t ∧ s.SameButDec t ∧
    t.dec.width = w ∧ t.dec.height = h ∧ t.dec.rdptr = 5#16 ∧ t.dec.cursor = 0#16 ∧ t.dec.phase = .expectToken ∧
    t.dec.latch = 0#8 ∧ t.dec.errcode = 0#4 ∧ t.dec.status = (if w.toNat * h.toNat = 0 then .done else .busy) ∧
    t.dec.inlen = s.dec.inlen ∧ t.dec.inMem = s.dec.inMem ∧ t.dec.outMem = s.dec.outMem :=
  ⟨_, rfl, s.sameButDec_withDec _, rfl, rfl, rfl, rfl, rfl, rfl, rfl, rfl, rfl, rfl, rfl⟩

/-- Settles O19: ignored while BUSY; else too short, another tag, or a header that starts the decode. -/
theorem decStartChecksThenStarts : Obligations.DecStartChecksThenStarts := by
  refine fun s ms v hs hv => ⟨fun hb => ?_, fun hb => ⟨fun hl => ?_, fun b0 b1 b2 hl h0 h1 h2 => ?_⟩⟩
  · rw [step_writeReg hs]
    exact writeDecCtrl_busy v hb
  · rw [step_decStart hs hv hb, decStart_short (s := s.withScript ms) hl]
    exact decStartFails_facts .formatShort (s.withScript ms)
  · have htag : Memory.readList s.dec.inMem 0 3 = .ok [b0, b1, b2] := by simp [Memory.readList, h0, h1, h2]
    refine ⟨fun hne => ?_, fun w h e0 e1 e2 h3 h4 => ?_⟩
    · have hother : [b0, b1, b2] ≠ headerTag := by
        simp only [headerTag, ne_eq, List.cons.injEq, and_true]
        tauto
      rw [step_decStart hs hv hb, decStart_otherTag (s := s.withScript ms) hl htag hother]
      exact decStartFails_facts .formatMagic (s.withScript ms)
    · subst e0 e1 e2
      have hdims : Memory.readList s.dec.inMem 3 2 = .ok [w, h] := by simp [Memory.readList, h3, h4]
      rw [step_decStart hs hv hb, decStart_header (s := s.withScript ms) hl htag hdims]
      exact exec_header_facts w h (s.withScript ms)

end Sys2Proof.Machine
end

section
/-! PROOFS. The host interface (spec/44_host_interface.md): the writes that are ignored (R34, R40, R112, R113), and the inputs of an
engine, which stay as they are while it is BUSY (R49, R113, R114). -/

namespace Sys2Proof.Machine

/-! ## Writes that are ignored -/

/-- A write to ENC_CTRL with bit 0 clear is no command (R34). -/
theorem writeEncCtrl_clear {v : RegWord} (hv : v.getLsbD 0 = false) (s : State) : writeEncCtrl v s = .next s :=
  if_neg fun hstart => Bool.false_ne_true (hv.symm.trans hstart.1)

/-- A write to DEC_CTRL with bit 0 clear is no command (R40). -/
theorem writeDecCtrl_clear {v : RegWord} (hv : v.getLsbD 0 = false) (s : State) : writeDecCtrl v s = .next s :=
  if_neg fun hstart => Bool.false_ne_true (hv.symm.trans hstart.1)

/-- While ENC is BUSY no write to ENC_DIM does anything (R113). -/
theorem writeEncDim_busy (v : RegWord) {s : State} (hb : s.enc.status = .busy) : writeEncDim v s = .next s := if_pos hb

/-- While DEC is BUSY no write to DEC_INLEN does anything (R113). -/
theorem writeDecInlen_busy (v : RegWord) {s : State} (hb : s.dec.status = .busy) : writeDecInlen v s = .next s := if_pos hb

/-- Settles O37: bit 0 clear is no command; bit 0 set is START, which a BUSY engine ignores. -/
theorem startIgnoredWhileBusy : Obligations.StartIgnoredWhileBusy := by
  refine ⟨fun s ms v hv h => ?_, fun s ms v hv => ⟨fun h => ?_, fun h => ?_⟩⟩
  · obtain h | h := h <;> rw [step_writeReg h]
    · exact writeEncCtrl_clear hv _
    · exact writeDecCtrl_clear hv _
  · split_ifs with hb
    · exact (step_writeReg h).trans (writeEncCtrl_busy v hb)
    · exact step_encStart h hv hb
  · split_ifs with hb
    · exact (step_writeReg h).trans (writeDecCtrl_busy v hb)
    · exact step_decStart h hv hb

/-! ## The inputs of a BUSY engine -/

/-- A token step keeps ENC_DIM and ENC_IN, whatever the cursor (R49, R94). -/
theorem EncState.put_inputs (i : Instr) (k : Nat) (e : EncState) :
    (e.put i k).width = e.width ∧ (e.put i k).height = e.height ∧ (e.put i k).inMem = e.inMem := by
  obtain ⟨-, -, emitWidth, emitHeight, -, -, emitIn⟩ := EncState.emitAll_regs (encode i) e
  obtain ⟨-, -, countWidth, countHeight, -, -, countIn, -⟩ := EncState.count_regs i (EncState.emitAll (encode i) e)
  obtain ⟨-, finishWidth, finishHeight, -, -, -, finishIn, -⟩ :=
    EncState.finish_regs (((EncState.emitAll (encode i) e).count i).advance k)
  exact ⟨finishWidth.trans (countWidth.trans emitWidth), finishHeight.trans (countHeight.trans emitHeight),
    finishIn.trans (countIn.trans emitIn)⟩

/-- A BUSY encoder can only take its token step, so it keeps its inputs unless it is reset. -/
theorem EncChange.keeps_inputs {e e' : EncState} {m : Option Move} (h : EncChange e m e') (hb : e.status = .busy)
    (hm : m ≠ some .reset) : e'.width = e.width ∧ e'.height = e.height ∧ e'.inMem = e.inMem := by
  cases h with
  | same => exact ⟨rfl, rfl, rfl⟩
  | token i k => exact e.put_inputs i k
  | reset hreset => exact absurd hreset hm
  | start _ hidle | dim _ _ hidle | inMem _ _ hidle | outMem _ _ hidle => exact absurd hb hidle

/-- A BUSY decoder can only take its automaton step, so it keeps its inputs unless it is reset. -/
theorem DecChange.keeps_inputs {d d' : DecState} {m : Option Move} (h : DecChange d m d') (hb : d.status = .busy)
    (hm : m ≠ some .reset) : d.SameInputs d' := by
  cases h with
  | same | truncated | latch => exact ⟨rfl, rfl, rfl, rfl⟩
  | token _ _ _ _ hdone =>
    obtain ⟨-, -, -, -, -, hinputs⟩ := hdone
    exact hinputs
  | reset hreset => exact absurd hreset hm
  | startFails _ _ _ hidle | accept _ _ _ hidle | inlen _ hidle | inMem _ _ hidle | outMem _ _ hidle =>
    exact absurd hb hidle

/-- Settles O38: the two writes are ignored, and what a step makes of a BUSY engine has its inputs. -/
theorem inputsConstantWhileBusy : Obligations.InputsConstantWhileBusy := by
  refine ⟨fun s ms v => ⟨fun h hb => ?_, fun h hb => ?_⟩, fun s t h hm => ?_⟩
  · exact (step_writeReg h).trans (writeEncDim_busy v hb)
  · exact (step_writeReg h).trans (writeDecInlen_busy v hb)
  · obtain ⟨henc, hdec, -⟩ := step_change h
    exact ⟨fun hb => henc.keeps_inputs hb hm, fun hb => hdec.keeps_inputs hb hm⟩

end Sys2Proof.Machine
end

section
/-! PROOFS. Reset (spec/70_reset_and_hazards.md R131): what the move does to the engines, and what the state it leaves them in
answers to a register read and to an engine's move. -/

namespace Sys2Proof.Machine

/-- The platform's reset is the whole of its step. -/
theorem step_reset {s : State} {ms : List Move} (h : s.script = .reset :: ms) :
    step s = .next (s.withScript ms).blockReset := step_cons h

@[simp] theorem State.blockReset_enc (s : State) : s.blockReset.enc = .reset := rfl
@[simp] theorem State.blockReset_dec (s : State) : s.blockReset.dec = .reset := rfl

/-- Every field of every register is 0 after reset, and so is each of the 16 words made of them (R33). -/
theorem regRead_reset (k : BitVec 4) : regRead k State.reset = 0#32 := by
  unfold regRead
  split <;> rfl

/-- Neither engine is BUSY after reset, so neither moves (R116). -/
theorem engineStep_reset (e : Engine) : engineStep e State.reset = .next State.reset :=
  engineStep_idle e State.reset (by cases e <;> decide)

/-- Settles O42: the step installs the reset engines, which read 0, are IDLE and hold no cell. -/
theorem resetClearsTheBlock : Obligations.ResetClearsTheBlock :=
  ⟨fun s ms h => ⟨_, step_reset h, (s.withScript ms).blockReset_enc, (s.withScript ms).blockReset_dec⟩, regRead_reset,
    engineStep_reset, rfl, rfl,
    fun a => ⟨Memory.read_nil a, Memory.read_nil a, Memory.read_nil a, Memory.read_nil a⟩⟩

end Sys2Proof.Machine
end

section
/-! PROOFS. Decode and encode are inverse (spec/30_encoding.md): every well-formed instruction is read back from its encoding, and
whatever is read is the encoding of what was read (R65, R67 to R73). -/

namespace Sys2Proof.Machine

/-- A marker and a second byte whose row and operands are known (R73). -/
theorem decodeToken_of_pair {a b : Byte} {i : Instr} (ha : isMarker a = true) (h : decodePair a b = i) (rest : List Byte) :
    decodeToken (a :: b :: rest) = .ok (i, rest) := by
  rw [decodeToken_marker_pair ha, h]

/-- Settles O1, by the row: the header by its tag, a 2-byte token by its marker and second byte, a verbatim byte by itself. -/
theorem decodeReadsEncodedInstruction : Obligations.DecodeReadsEncodedInstruction := by
  intro i rest hwf
  cases i with
  | header w h => exact decodeHeader_tag w h rest
  | escapeC3 => exact decodeToken_of_pair (a := 0xC3#8) (b := 0x00#8) (by decide) rfl rest
  | escape3D => exact decodeToken_of_pair (a := 0x3D#8) (b := 0x00#8) (by decide) rfl rest
  | escape65 => exact decodeToken_of_pair (a := 0x65#8) (b := 0x00#8) (by decide) rfl rest
  | longRun bit len7 => exact decodeToken_of_pair (a := 0xC3#8) (by decide) (decodeAfterC3_encode bit len7 hwf) rest
  | dualRun1 l1 l2 => exact decodeToken_of_pair (a := 0x3D#8) (by decide) (decodeAfter3D_encode l1 l2 hwf) rest
  | dualRun0 l1 l2 => exact decodeToken_of_pair (a := 0x65#8) (by decide) (decodeAfter65_encode l1 l2 hwf) rest
  | verbatim byte => exact decodeToken_of_not_marker (by simpa [Instr.wf] using hwf) rest

theorem Instr.pos_of_isToken {i : Instr} (h : i.isToken = true) : i.pos = .token := if_pos h

theorem decodeHeader_inv {bytes rest : List Byte} {i : Instr} (h : decodeHeader bytes = .ok (i, rest)) :
    ∃ w ht, i = .header w ht ∧ bytes = encode i ++ rest := by
  match bytes with
  | [] | [_] | [_, _] | [_, _, _] | [_, _, _, _] => simp [decodeHeader] at h
  | t0 :: t1 :: t2 :: w :: ht :: bs =>
    by_cases htag : [t0, t1, t2] = headerTag
    · simp only [decodeHeader, if_pos htag, Except.ok.injEq, Prod.mk.injEq] at h
      obtain ⟨rfl, rfl⟩ := h
      exact ⟨w, ht, rfl, by rw [encode, ← htag]; rfl⟩
    · simp [decodeHeader, htag] at h

theorem decodeToken_inv {bytes rest : List Byte} {i : Instr} (h : decodeToken bytes = .ok (i, rest)) :
    i.wf = true ∧ i.isToken = true ∧ bytes = encode i ++ rest := by
  match bytes with
  | [] => simp [decodeToken] at h
  | a :: bs =>
    cases ha : isMarker a with
    | false =>
      rw [decodeToken_of_not_marker ha] at h
      simp only [Except.ok.injEq, Prod.mk.injEq] at h
      obtain ⟨rfl, rfl⟩ := h
      exact ⟨by simp [Instr.wf, ha], rfl, rfl⟩
    | true =>
      match bs with
      | [] => simp [decodeToken_marker_alone ha] at h
      | b :: bs =>
        rw [decodeToken_marker_pair ha] at h
        simp only [Except.ok.injEq, Prod.mk.injEq] at h
        obtain ⟨rfl, rfl⟩ := h
        obtain ⟨hencode, hwf, htoken⟩ := encode_decodePair ha b
        exact ⟨hwf, htoken, by rw [hencode]; rfl⟩

/-- Settles O2: at the start a header was read, after it a token. -/
theorem encodeRestoresDecodedBytes : Obligations.EncodeRestoresDecodedBytes := by
  intro pos bytes i rest h
  cases pos with
  | start =>
    obtain ⟨w, ht, rfl, hbytes⟩ := decodeHeader_inv h
    exact ⟨rfl, rfl, hbytes.symm⟩
  | token =>
    obtain ⟨hwf, htoken, hbytes⟩ := decodeToken_inv h
    exact ⟨hwf, Instr.pos_of_isToken htoken, hbytes.symm⟩

/-- Settles O4: the words are evaluated. -/
theorem tableWordsDecode : Obligations.TableWordsDecode := by
  unfold Obligations.TableWordsDecode
  decide

end Sys2Proof.Machine
end

section
/-! PROOFS. The invariant (Safety.lean): it holds at reset, and whatever a step makes of either engine keeps it. -/

namespace Sys2Proof.Machine

/-! ## At reset (R131) -/

theorem EncState.Inv.reset : EncState.reset.Inv where
  inWf := rfl
  outWf := rfl
  notError := by decide
  errcode := rfl
  busyCursor := by decide
  idle := fun _ => ⟨rfl, rfl, rfl⟩
  counted := by decide
  busyLen := by decide
  outlenMax := by decide
  outFilled := fun _ _ h => absurd h (Nat.not_lt_zero _)
  busyHeader := fun h => absurd h (by decide)

theorem DecState.Inv.reset : DecState.reset.Inv where
  inWf := rfl
  outWf := rfl
  cursorMax := Nat.zero_le _
  busyCursor := by decide
  doneCursor := by decide
  busyRdptr := by decide
  contLatch := by decide
  latch := .inl rfl
  contStatus := by decide
  noError := fun _ => rfl
  errorCode := by decide
  formatError := by decide
  truncated := by decide
  outFilled := fun _ _ _ h => absurd h (Nat.not_lt_zero _)

/-- Settles O43: both engines meet it. -/
theorem resetMeetsInvariant : Obligations.ResetMeetsInvariant := ⟨.reset, .reset⟩

/-! ## The encoder's token step -/

theorem statusAfter_busy (cursor n : Nat) : statusAfter .busy cursor n = .busy ∧ cursor ≠ n ∨
    statusAfter .busy cursor n = .done ∧ cursor = n := by
  unfold statusAfter
  split_ifs with h
  · exact .inr ⟨rfl, h⟩
  · exact .inl ⟨rfl, h⟩

/-- A token's bytes keep the output within its bound; and while bits remain after it they stand for at least 4 bits each, since
only the last token can be a 1-byte token of fewer than 8 bits (R88). -/
theorem Branch.output_bound {m : Memory Bit} {n c k o : Nat} {i : Instr} (h : Branch m n c i k) (hc : c < n) (hn : n ≤ 65025)
    (ho : 4 * o ≤ 20 + c) : o + (encode i).length ≤ 16262 ∧
      (c + k ≠ n → 4 * (o + (encode i).length) ≤ 20 + (c + k)) := by
  obtain ⟨-, -, -, hk, hlen, -⟩ := h.facts
  omega

/-- The bytes of the counted tokens: two for each but the verbatim ones (R20, R21). -/
def EncState.countedBytes (e : EncState) : Nat :=
  2 * (e.cntLong.toNat + e.cntDual.toNat + e.cntEsc.toNat) + e.cntVerb.toNat

theorem EncState.countedBytes_congr {e e' : EncState} (h : e'.counts = e.counts) : e'.countedBytes = e.countedBytes := by
  simp only [EncState.counts, List.cons.injEq, and_true] at h
  obtain ⟨hlong, hdual, hesc, hverb⟩ := h
  simp only [countedBytes, hlong, hdual, hesc, hverb]

/-- Counting a token adds its bytes, where no counter overflows. -/
theorem EncState.countedBytes_count {i : Instr} (hi : i.isToken = true) {e : EncState} (he : e.countedBytes < 65535) :
    (e.count i).countedBytes = e.countedBytes + (encode i).length := by
  have hinc : ∀ c : Half, c.toNat < 65535 → (c + 1#16).toNat = c.toNat + 1 := fun c h => half_add (k := 1) (by omega)
  unfold countedBytes at he ⊢
  cases i with
  | header => simp [Instr.isToken] at hi
  | escapeC3 | escape3D | escape65 | longRun | dualRun1 | dualRun0 | verbatim =>
    simp only [EncState.count, encode, List.length_cons, List.length_nil]
    rw [hinc _ (by omega)]
    omega

/-- Cells below a store read as before. -/
theorem Memory.Stored.read_below {α : Type} {m m' : Memory α} {a i : Nat} {vs : List α} (h : Memory.Stored m m' a vs)
    (hi : i < a) : Memory.read m' i = Memory.read m i := by
  rw [h i, if_neg (by omega)]

/-- Everything a token step does from the invariant, which leaves room for the token's bytes and bits. -/
theorem EncState.Inv.put_emitted {e : EncState} (h : e.Inv) (hb : e.status = .busy) {i : Instr} {k : Nat}
    (ht : tokenize e.inMem e.n e.cursor.toNat = .ok (i, k)) : e.Emitted (e.put i k) (encode i) k ∧
      (e.put i k).counts = (e.count i).counts ∧ (Memory.wf e.outMem = true → Memory.wf (e.put i k).outMem = true) ∧
      e.cursor.toNat + k ≤ e.n := by
  have hbranch := tokenize_branch ht
  obtain ⟨-, -, -, hk, -⟩ := hbranch.facts
  have hcursor := h.busyCursor hb
  have hn := e.n_le
  obtain ⟨hmax, -⟩ := hbranch.output_bound hcursor hn (h.busyLen hb)
  obtain ⟨hemitted, hcounts, hwf⟩ := EncState.put_emitted i k e hb (by omega) (by omega)
  exact ⟨hemitted, hcounts, hwf, by omega⟩

theorem EncState.Inv.put {e : EncState} (h : e.Inv) (hb : e.status = .busy) {i : Instr} {k : Nat}
    (ht : tokenize e.inMem e.n e.cursor.toNat = .ok (i, k)) : (e.put i k).Inv := by
  have hbranch := tokenize_branch ht
  obtain ⟨htoken, -⟩ := hbranch.facts
  obtain ⟨hmax, hlen⟩ := hbranch.output_bound (h.busyCursor hb) e.n_le (h.busyLen hb)
  have hcounted : e.outlen.toNat = 5 + e.countedBytes := by
    have := h.counted (by simp [hb])
    simp only [countedBytes]
    omega
  obtain ⟨⟨hstored, houtlen, hcur, hstatus, hwidth, hheight, hinMem, herr⟩, hcounts, hwf, hle⟩ := h.put_emitted hb ht
  have hbytes : (e.put i k).countedBytes = e.countedBytes + (encode i).length :=
    (countedBytes_congr hcounts).trans (countedBytes_count htoken (by omega))
  have hn' : (e.put i k).n = e.n := by simp only [EncState.n, hwidth, hheight]
  have hstatus' := statusAfter_busy (e.cursor.toNat + k) e.n
  rw [← hstatus] at hstatus'
  have hbusy : (e.put i k).status = .busy → e.cursor.toNat + k ≠ e.n := fun hb' => by
    rcases hstatus' with ⟨-, hne⟩ | ⟨hdone, -⟩
    · exact hne
    · simp [hb'] at hdone
  refine ⟨hinMem ▸ h.inWf, hwf h.outWf, ?_, herr.trans h.errcode, fun hb' => ?_, fun hidle => ?_, fun _ => ?_, fun hb' => ?_,
    houtlen ▸ hmax, ?_, fun _ => ?_⟩
  · rcases hstatus' with ⟨hs, -⟩ | ⟨hs, -⟩ <;> simp [hs]
  · have := hbusy hb'
    omega
  · rcases hstatus' with ⟨hs, -⟩ | ⟨hs, -⟩ <;> simp [hs] at hidle
  · simp only [countedBytes] at hbytes hcounted
    omega
  · rw [houtlen, hcur]
    exact hlen (hbusy hb')
  · rw [houtlen]
    exact h.outFilled.append hstored
  · rw [Memory.readList_congr (m' := e.outMem) fun a _ ha => hstored.read_below (by omega), hwidth, hheight]
    exact h.busyHeader hb

/-! ## The encoder's START and the host's accesses -/

theorem EncState.Inv.start {e : EncState} (h : e.Inv) : e.start.Inv := by
  obtain ⟨hcounts, hcursor, houtlen, herr, hstatus, hwidth, hheight, hinMem, houtMem⟩ := e.start_facts
  have hn : e.start.n = e.n := rfl
  have hzero : e.start.countedBytes = 0 := countedBytes_congr (e' := e.start) (e := .reset) hcounts
  have hidle : e.start.status ≠ .idle := by rw [hstatus]; split <;> simp
  refine ⟨hinMem ▸ h.inWf, ?_, by rw [hstatus]; split <;> simp, herr, fun hb => ?_, fun hi => absurd hi hidle, fun _ => ?_,
    fun _ => by rw [houtlen, hcursor]; decide, by rw [houtlen]; decide, ?_, fun _ => ?_⟩
  · rw [houtMem]
    exact Memory.wf_writeList _ _ _ (by simp [headerTag, spaceSize]) h.outWf
  · rw [hstatus] at hb
    split at hb
    · cases hb
    · rw [hcursor, hn]
      exact Nat.pos_of_ne_zero ‹_›
  · simp only [countedBytes] at hzero
    rw [houtlen]
    show 5 = _
    omega
  · rw [houtlen]
    exact Memory.Filled.append (fun _ _ hi => absurd hi (Nat.not_lt_zero _)) e.start_stored
  · rw [houtMem, hwidth, hheight]
    refine Memory.readList_of_reads (xs := headerTag ++ [e.width, e.height]) fun t ht => ?_
    rw [Memory.read_writeList, if_pos (by omega)]
    simp

/-- What the host may do to an encoder that is not BUSY keeps the invariant, since it speaks of ENC_DIM and of the bytes written
only while ENC is BUSY. -/
theorem EncState.Inv.host {e e' : EncState} (h : e.Inv) (hb : e.status ≠ .busy) (hin : Memory.wf e'.inMem = true)
    (hout : Memory.wf e'.outMem = true) (hfilled : Memory.Filled e'.outMem 0 e.outlen.toNat)
    (he : { e with width := e'.width, height := e'.height, inMem := e'.inMem, outMem := e'.outMem } = e') : e'.Inv := by
  rw [← he]
  exact ⟨hin, hout, h.notError, h.errcode, fun hb' => absurd hb' hb, h.idle, h.counted, fun hb' => absurd hb' hb, h.outlenMax,
    hfilled, fun hb' => absurd hb' hb⟩

theorem Memory.write_stored {α : Type} (m : Memory α) (a : Nat) (v : α) : Memory.Stored m (Memory.write m a v) a [v] :=
  Memory.writeList_stored [v] m a

theorem EncChange.keeps_inv {e e' : EncState} {m : Option Move} (hchange : EncChange e m e') (h : e.Inv) : e'.Inv := by
  cases hchange with
  | same => exact h
  | token i k hb ht => exact h.put hb ht
  | start => exact h.start
  | dim w ht hb => exact h.host hb h.inWf h.outWf h.outFilled rfl
  | inMem a bs hb ha => exact h.host hb (Memory.wf_writeList bs _ a ha h.inWf) h.outWf h.outFilled rfl
  | outMem a v hb ha =>
    exact h.host hb h.inWf (Memory.wf_write _ a v ha h.outWf) (h.outFilled.stored (Memory.write_stored _ a v)) rfl
  | reset => exact .reset

/-! ## The decoder's steps -/

theorem DecState.Inv.raiseTruncated {d : DecState} (h : d.Inv) (hb : d.status = .busy) : (d.raise .truncated).Inv where
  inWf := h.inWf
  outWf := rfl
  cursorMax := h.cursorMax
  busyCursor := nofun
  doneCursor := nofun
  busyRdptr := nofun
  contLatch := h.contLatch
  latch := h.latch
  contStatus := fun _ => .inr rfl
  noError := fun hne => absurd rfl hne
  errorCode := fun _ => .inr (.inr rfl)
  formatError := by simp [ErrCode.bits]
  truncated := fun _ => h.busyCursor hb
  outFilled := by simp

theorem DecState.Inv.latchMarker {d : DecState} (h : d.Inv) (hb : d.status = .busy) (hr : d.rdptr ≠ d.inlen) {x : Byte}
    (hx : isMarker x = true) : (d.latchMarker x).Inv where
  inWf := h.inWf
  outWf := h.outWf
  cursorMax := h.cursorMax
  busyCursor := h.busyCursor
  doneCursor := h.doneCursor
  busyRdptr := fun _ => by
    obtain ⟨hlow, hhigh⟩ := h.busyRdptr hb
    obtain ⟨hsucc, hle⟩ := DecState.rdptr_succ hhigh hr
    show 5 ≤ (d.rdptr + 1#16).toNat ∧ (d.rdptr + 1#16).toNat ≤ d.inlen.toNat
    omega
  contLatch := fun _ => hx
  latch := .inr hx
  contStatus := fun _ => .inl hb
  noError := h.noError
  errorCode := h.errorCode
  formatError := fun hcode => by
    have : d.errcode = 0#4 := h.noError (by simp [hb])
    simp [DecState.latchMarker, DecState.consume, this] at hcode
  truncated := h.truncated
  outFilled := h.outFilled

/-- A token that completes moves the cursor to where its bits end, and not past DEC_N (R28, R99). -/
theorem DecState.Wrote.cursor_le {d d' : DecState} {bits : List Bit} (h : d.Wrote d' bits) (hc : d.cursor.toNat ≤ d.n) :
    d.cursor.toNat ≤ d'.cursor.toNat ∧ d'.cursor.toNat ≤ d.n := by
  obtain ⟨hcursor, -⟩ := h
  omega

theorem DecState.SameInputs.n {d d' : DecState} (h : d.SameInputs d') : d'.n = d.n := by
  obtain ⟨-, hwidth, hheight, -⟩ := h
  simp only [DecState.n, hwidth, hheight]

theorem DecState.Inv.tokenDone {d d' : DecState} {bits : List Bit} (h : d.Inv) (hb : d.status = .busy)
    (hr : d.rdptr ≠ d.inlen) (hdone : d.TokenDone d' bits) (hphase : d'.phase = .expectToken)
    (hwf : Memory.wf d.outMem = true → Memory.wf d'.outMem = true) : d'.Inv := by
  obtain ⟨hwrote, hrdptr, hstatus, hlatch, herr, hinputs⟩ := hdone
  have hn := hinputs.n
  obtain ⟨hinlen, -, -, hinMem⟩ := hinputs
  obtain ⟨hge, hle⟩ := hwrote.cursor_le h.cursorMax
  have herr0 : d'.errcode = 0#4 := herr.trans (h.noError (by simp [hb]))
  have hstatus' := statusAfter_busy d'.cursor.toNat d.n
  rw [← hb, ← hstatus, hb] at hstatus'
  obtain ⟨hlow, hhigh⟩ := h.busyRdptr hb
  obtain ⟨hsucc, hle'⟩ := DecState.rdptr_succ hhigh hr
  rw [← hn] at hstatus' hle
  refine ⟨hinMem ▸ h.inWf, hwf h.outWf, hle, fun hb' => ?_, fun hd => ?_, fun _ => by rw [hrdptr, hinlen]; omega,
    by simp [hphase], hlatch ▸ h.latch, by simp [hphase], fun _ => herr0, fun he => ?_, by simp [herr0], by simp [herr0],
    fun _ => ?_⟩
  · rcases hstatus' with ⟨-, hne⟩ | ⟨hs, -⟩
    · omega
    · simp [hb'] at hs
  · rcases hstatus' with ⟨hs, -⟩ | ⟨-, heq⟩
    · simp [hd] at hs
    · exact heq
  · rcases hstatus' with ⟨hs, -⟩ | ⟨hs, -⟩ <;> simp [he] at hs
  · obtain ⟨hcursor, hstored⟩ := hwrote
    have hfilled := (h.outFilled (.inl hb)).append hstored
    rwa [List.length_take, Nat.min_comm, ← hcursor] at hfilled

/-! ## The decoder's START and the host's accesses -/

theorem DecState.Inv.startFails {d : DecState} (h : d.Inv) {c : ErrCode} (hc : c = .formatShort ∨ c = .formatMagic) :
    (d.cleared.raise c).Inv where
  inWf := h.inWf
  outWf := rfl
  cursorMax := Nat.zero_le _
  busyCursor := nofun
  doneCursor := nofun
  busyRdptr := nofun
  contLatch := nofun
  latch := .inl rfl
  contStatus := nofun
  noError := fun hne => absurd rfl hne
  errorCode := fun _ => by rcases hc with rfl | rfl <;> simp [ErrCode.bits]
  formatError := fun _ => ⟨rfl, rfl, rfl, rfl⟩
  truncated := by rcases hc with rfl | rfl <;> simp [ErrCode.bits]
  outFilled := by simp

/-- DEC START on a valid header ends BUSY with bits to write, or DONE with none (R97, R98). -/
theorem DecState.accept_status (w h : Byte) (d : DecState) : (d.accept w h).status = statusAfter .busy 0 (d.accept w h).n :=
  if_congr eq_comm rfl rfl

theorem DecState.Inv.accept {d : DecState} (h : d.Inv) (w ht : Byte) (hl : 5 ≤ d.inlen.toNat) : (d.accept w ht).Inv := by
  have hstatus := statusAfter_busy 0 (d.accept w ht).n
  rw [← d.accept_status w ht] at hstatus
  refine ⟨h.inWf, h.outWf, Nat.zero_le _, fun hb => ?_, fun hd => ?_, fun _ => ⟨Nat.le_refl 5, hl⟩, nofun, .inl rfl, nofun,
    fun _ => rfl, fun he => ?_, nofun, nofun, fun _ _ _ hi => absurd hi (Nat.not_lt_zero _)⟩
  · rcases hstatus with ⟨-, hne⟩ | ⟨hs, -⟩
    · exact Nat.pos_of_ne_zero (Ne.symm hne)
    · simp [hb] at hs
  · rcases hstatus with ⟨hs, -⟩ | ⟨-, heq⟩
    · simp [hd] at hs
    · exact heq
  · rcases hstatus with ⟨hs, -⟩ | ⟨hs, -⟩ <;> simp [he] at hs

/-- What the host may do to a decoder that is not BUSY keeps the invariant. -/
theorem DecState.Inv.host {d d' : DecState} (h : d.Inv) (hb : d.status ≠ .busy) (hin : Memory.wf d'.inMem = true)
    (hout : Memory.wf d'.outMem = true)
    (hfilled : d.status = .busy ∨ d.status = .done → Memory.Filled d'.outMem 0 d.cursor.toNat)
    (hd : { d with inlen := d'.inlen, inMem := d'.inMem, outMem := d'.outMem } = d') : d'.Inv := by
  rw [← hd]
  exact ⟨hin, hout, h.cursorMax, h.busyCursor, h.doneCursor, fun hb' => absurd hb' hb, h.contLatch, h.latch, h.contStatus,
    h.noError, h.errorCode, h.formatError, h.truncated, hfilled⟩

theorem DecChange.keeps_inv {d d' : DecState} {m : Option Move} (hchange : DecChange d m d') (h : d.Inv) : d'.Inv := by
  cases hchange with
  | same => exact h
  | truncated hb => exact h.raiseTruncated hb
  | latch x hb hr _ hx => exact h.latchMarker hb hr hx
  | token i d' hb hr hdone hp hc hwf =>
    refine h.tokenDone hb hr hdone ?_ hwf
    cases hphase : d.phase with
    | expectToken => exact hp hphase
    | expectCont => exact hc hphase (h.contLatch hphase)
  | startFails c hc => exact h.startFails hc
  | accept w ht _ _ hl => exact h.accept w ht hl
  | inlen v hb => exact h.host hb h.inWf h.outWf h.outFilled rfl
  | inMem a v hb ha => exact h.host hb (Memory.wf_write _ a v ha h.inWf) h.outWf h.outFilled rfl
  | outMem a bs hb ha =>
    exact h.host hb h.inWf (Memory.wf_writeList bs _ a ha h.outWf)
      (fun hs => (h.outFilled hs).stored (Memory.writeList_stored bs _ a)) rfl
  | reset => exact .reset

/-- Settles O44: what a step can make of either engine keeps that engine's part of the invariant. -/
theorem stepKeepsInvariant : Obligations.StepKeepsInvariant := by
  intro s t hinv h
  obtain ⟨henc, hdec, -⟩ := step_change h
  exact ⟨henc.keeps_inv hinv.enc, hdec.keeps_inv hinv.dec⟩

end Sys2Proof.Machine
end

section
/-! PROOFS. What a step runs (spec/42_decoder.md): DEC's step is `exec` of the decoded token, its START `exec` of the decoded
header (R97, R100, R101); what a token leaves alone (R102 to R105); a 2-byte token's two steps; and a table word as the next. -/

namespace Sys2Proof.Machine

/-! ## The header and the token rows -/

/-- Settles O10: the dimensions' product is 0 where one of them is. -/
theorem headerStartsDecode : Obligations.HeaderStartsDecode := by
  intro w h s
  obtain ⟨t, hexec, hsame, hw, hh, hrdptr, hcursor, hphase, hlatch, herr, hstatus, hinlen, hin, hout⟩ :=
    exec_header_facts w h s
  have hzero : w.toNat * h.toNat = 0 ↔ w = 0#8 ∨ h = 0#8 := by simp [← BitVec.toNat_inj]
  exact ⟨t, hexec, hsame, hw, hh, hrdptr, hcursor, hlatch, hphase, herr, hstatus.trans (if_congr hzero rfl rfl), hinlen, hin,
    hout⟩

/-- Cells outside the bits that fit read as before (R99). -/
theorem DecState.Wrote.read_outside {d d' : DecState} {bits : List Bit} (h : d.Wrote d' bits) {a : Nat}
    (ha : a < d.cursor.toNat ∨ d.cursor.toNat + d.room bits.length ≤ a) :
    Memory.read d'.outMem a = Memory.read d.outMem a := by
  obtain ⟨-, hstored⟩ := h
  rw [hstored a, if_neg]
  rw [List.length_take]
  unfold DecState.room at ha
  omega

theorem statusAfter_eq (before : EngineStatus) (cursor n : Nat) :
    statusAfter before cursor n = before ∨ statusAfter before cursor n = .done := by
  unfold statusAfter
  split_ifs
  · exact .inr rfl
  · exact .inl rfl

/-- Settles O11: what a completed token is, read as what it leaves. -/
theorem tokenFrame : Obligations.TokenFrame := by
  intro i s t hi h
  obtain ⟨d, hexec, ⟨hwrote, -, hstatus, hlatch, herr, hinputs⟩, -⟩ := exec_token hi s
  obtain rfl : s.withDec d = t := by simpa [hexec] using h
  exact ⟨s.sameButDec_withDec d, hinputs, hlatch, herr, hstatus ▸ statusAfter_eq s.dec.status d.cursor.toNat s.dec.n,
    fun a ha => hwrote.read_outside ha⟩

/-! ## What a step runs -/

/-- The first three and the next two of five bytes read. -/
theorem readList_header {m : Memory Byte} {w h : Byte} (hread : Memory.readList m 0 5 = .ok (headerTag ++ [w, h])) :
    Memory.readList m 0 3 = .ok headerTag ∧ Memory.readList m 3 2 = .ok [w, h] := by
  obtain ⟨-, hbits⟩ := Memory.readList_ok hread
  have cell : ∀ t, t < 5 → Memory.read m t = [0x46#8, 0x43#8, 0x30#8, w, h][t]? := fun t ht => by
    simpa [headerTag] using hbits t ht
  constructor
  · simp [Memory.readList, headerTag, cell 0 (by omega), cell 1 (by omega), cell 2 (by omega)]
  · simp [Memory.readList, cell 3 (by omega), cell 4 (by omega)]

/-- DEC START where DEC_IN begins with a header. -/
theorem step_decStart_header {s : State} {ms : List Move} {v : RegWord} {w h : Byte}
    (hs : s.script = .host (.writeReg 9#4 v) :: ms) (hv : v.getLsbD 0 = true) (hb : s.dec.status ≠ .busy)
    (hl : 5 ≤ s.dec.inlen.toNat) (hread : Memory.readList s.dec.inMem 0 5 = .ok (headerTag ++ [w, h])) :
    step s = exec (.header w h) (s.withScript ms) := by
  obtain ⟨htag, hdims⟩ := readList_header hread
  rw [step_decStart hs hv hb]
  exact decStart_header (s := s.withScript ms) hl htag hdims

/-- A decoded header's five bytes are the tag and the dimensions. -/
theorem decodeHeader_five {bytes rest : List Byte} {i : Instr} (hl : bytes.length = 5)
    (h : decodeHeader bytes = .ok (i, rest)) : ∃ w ht, i = .header w ht ∧ bytes = headerTag ++ [w, ht] := by
  obtain ⟨w, ht, rfl, rfl⟩ := decodeHeader_inv h
  have hrest : rest = [] := by simpa [encode, headerTag] using hl
  exact ⟨w, ht, rfl, by rw [hrest, List.append_nil]; rfl⟩

/-- Settles O13: the step reads the byte, or START the five, and runs what they decode to. -/
theorem stepRunsDecodedInstruction : Obligations.StepRunsDecodedInstruction := by
  refine ⟨fun s ms x i rest h hb hr hx _ hd => ?_, fun s ms v bytes i rest h hv hb hl hread hd => ?_⟩
  · rw [step_dec_read h hb hr hx]
    exact decByte_ok (s := s.withScript ms) (rest := rest) hd
  · obtain ⟨hlength, -⟩ := Memory.readList_ok hread
    obtain ⟨w, ht, rfl, rfl⟩ := decodeHeader_five hlength hd
    exact step_decStart_header h hv hb hl hread

/-! ## The two steps of a 2-byte token -/

/-- Two bytes that decode with nothing left are a marker and its second byte. -/
theorem marker_of_decodeToken_pair {a b : Byte} {i : Instr} (h : decodeToken [a, b] = .ok (i, [])) :
    isMarker a = true ∧ decodePair a b = i := by
  cases ha : isMarker a with
  | false => simp [decodeToken_of_not_marker ha] at h
  | true => simpa [decodeToken_marker_pair ha] using h

/-- Settles O16: the first step latches the marker, the second completes the pair. -/
theorem twoByteTokenTakesTwoSteps : Obligations.TwoByteTokenTakesTwoSteps := by
  intro s ms a b i h hb hp hl hread_a hread_b hd
  obtain ⟨ha, hpair⟩ := marker_of_decodeToken_pair hd
  have hrdptr : (s.dec.rdptr + 1#16).toNat = s.dec.rdptr.toNat + 1 :=
    half_add (k := 1) (by have := s.dec.inlen.isLt; omega)
  have hne : s.dec.rdptr ≠ s.dec.inlen := fun he => by rw [he] at hl; omega
  have hne' : s.dec.rdptr + 1#16 ≠ s.dec.inlen := fun he => by rw [← he] at hl; omega
  have hfirst : step s = .next ((s.withScript (.engine .dec :: ms)).withDec (s.dec.latchMarker a)) :=
    (step_dec_read h hb hne hread_a).trans (decByte_marker (s := s.withScript (.engine .dec :: ms)) hp ha)
  have hsecond : step ((s.withScript (.engine .dec :: ms)).withDec (s.dec.latchMarker a)) =
      exec i ((s.withScript ms).withDec (s.dec.latchMarker a)) := by
    rw [step_dec_read (s := (s.withScript (.engine .dec :: ms)).withDec (s.dec.latchMarker a)) (x := b) rfl hb hne'
      (hrdptr ▸ hread_b), ← hpair]
    exact decByte_pair (s := (s.withScript ms).withDec (s.dec.latchMarker a)) rfl ha b
  obtain ⟨-, -, htoken⟩ := encode_decodePair ha b
  obtain ⟨d, hexec, -⟩ := exec_token htoken ((s.withScript ms).withDec (s.dec.latchMarker a))
  rw [hpair] at hexec
  rw [runSteps_next hfirst, runSteps_next (hsecond.trans hexec)]
  exact hexec.symm

/-! ## A table word as the next step (log 10, log 11) -/

theorem length_tableBytes (k w : Nat) : (tableBytes k w).length = k := by
  induction k with
  | zero => rfl
  | succ k ih => simp [tableBytes, ih]

theorem length_tableStream (nbits w : Nat) : (tableStream nbits w).length = (nbits + 7) / 8 + 4 := by
  simp [tableStream, length_tableBytes]

/-- Bytes stored read back. -/
theorem Memory.readList_writeList {α : Type} (m : Memory α) (a : Nat) (vs : List α) :
    Memory.readList (Memory.writeList m a vs) a vs.length = .ok vs :=
  Memory.readList_of_reads fun t ht => by rw [Memory.read_writeList, if_pos (by omega), Nat.add_sub_cancel_left]

/-- A header placed is what the START runs. -/
theorem step_placeHeader {bytes rest : List Byte} {i : Instr} (hd : decodeHeader bytes = .ok (i, rest)) (s : State) :
    step (s.placeHeader (bytes.take 5)) = exec i ((s.placeHeader (bytes.take 5)).withScript s.script) := by
  obtain ⟨w, h, rfl, rfl⟩ := decodeHeader_inv hd
  have hfive : (encode (.header w h) ++ rest).take 5 = headerTag ++ [w, h] := rfl
  rw [hfive]
  refine step_decStart_header (s := s.placeHeader (headerTag ++ [w, h])) rfl rfl ?_ ?_
    (Memory.readList_writeList s.dec.inMem 0 (headerTag ++ [w, h]))
  · show (if s.dec.status = .busy then EngineStatus.idle else s.dec.status) ≠ .busy
    split_ifs with hb
    · decide
    · exact hb
  · show 5 ≤ (if s.dec.inlen.toNat < 5 then 5#16 else s.dec.inlen).toNat
    split_ifs with hl
    · decide
    · omega

/-- The bytes of a token and of what follows it lie in the space. -/
theorem tokenAddress_lt (d : DecState) : tokenAddress d + 2 < 65536 := by
  unfold tokenAddress
  split_ifs with h
  · exact h.2
  · decide

/-- The length that placing a token leaves covers the token's bytes. -/
theorem DecState.placeToken_inlen (bytes : List Byte) (d : DecState) :
    tokenAddress d + 2 ≤ (d.placeToken bytes).inlen.toNat := by
  have ha := tokenAddress_lt d
  show _ ≤ (if d.inlen.toNat < tokenAddress d + 2 then BitVec.ofNat 16 (tokenAddress d + 2) else d.inlen).toNat
  split_ifs with hl
  · rw [BitVec.toNat_ofNat]
    omega
  · omega

/-- Where a placed token's next byte is read: its second where the first is a marker, which is latched, else its first. -/
theorem DecState.placeToken_marker {a : Byte} (ha : isMarker a = true) (bs : List Byte) (d : DecState) :
    (d.placeToken (a :: bs)).phase = .expectCont ∧ (d.placeToken (a :: bs)).latch = a ∧
      (d.placeToken (a :: bs)).rdptr.toNat = tokenAddress d + 1 := by
  have hlt := tokenAddress_lt d
  simp only [DecState.placeToken, List.headD_cons, ha, if_true, BitVec.toNat_ofNat, true_and]
  omega

theorem DecState.placeToken_verbatim {a : Byte} (ha : isMarker a = false) (bs : List Byte) (d : DecState) :
    (d.placeToken (a :: bs)).phase = .expectToken ∧ (d.placeToken (a :: bs)).rdptr.toNat = tokenAddress d := by
  have hlt := tokenAddress_lt d
  simp only [DecState.placeToken, List.headD_cons, ha, Bool.false_eq_true, if_false, BitVec.toNat_ofNat, true_and]
  omega

/-- A read pointer inside the placed bytes is not at the end of the input. -/
theorem DecState.placeToken_rdptr_ne {bytes : List Byte} {d : DecState} {x : Nat} (hx : x < 2)
    (h : (d.placeToken bytes).rdptr.toNat = tokenAddress d + x) : (d.placeToken bytes).rdptr ≠ (d.placeToken bytes).inlen := by
  intro he
  have := d.placeToken_inlen bytes
  rw [← he, h] at this
  omega

theorem DecState.read_placeToken (a b : Byte) (bs : List Byte) (d : DecState) :
    Memory.read (d.placeToken (a :: b :: bs)).inMem (tokenAddress d) = some a ∧
      Memory.read (d.placeToken (a :: b :: bs)).inMem (tokenAddress d + 1) = some b := by
  show Memory.read (Memory.writeList d.inMem (tokenAddress d) [a, b]) _ = _ ∧
    Memory.read (Memory.writeList d.inMem (tokenAddress d) [a, b]) _ = _
  simp [Memory.read_writeList]

/-- A token placed is what DEC's step runs. -/
theorem step_placeToken {a b : Byte} {bs rest : List Byte} {i : Instr} (hd : decodeToken (a :: b :: bs) = .ok (i, rest))
    (s : State) : step (s.placeToken (a :: b :: bs)) = exec i ((s.placeToken (a :: b :: bs)).withScript s.script) := by
  obtain ⟨hread_a, hread_b⟩ := s.dec.read_placeToken a b bs
  cases ha : isMarker a with
  | true =>
    obtain ⟨hphase, hlatch, hrdptr⟩ := s.dec.placeToken_marker ha (b :: bs)
    simp only [decodeToken_marker_pair ha, Except.ok.injEq, Prod.mk.injEq] at hd
    obtain ⟨rfl, rfl⟩ := hd
    have hread : Memory.read (s.dec.placeToken (a :: b :: bs)).inMem (s.dec.placeToken (a :: b :: bs)).rdptr.toNat = some b := by
      rw [hrdptr]
      exact hread_b
    rw [step_dec_read (s := s.placeToken (a :: b :: bs)) (ms := s.script) rfl rfl
      (DecState.placeToken_rdptr_ne (x := 1) (by omega) hrdptr) hread]
    have hrun := decByte_pair (s := (s.placeToken (a :: b :: bs)).withScript s.script) hphase (by
      show isMarker (s.dec.placeToken (a :: b :: bs)).latch = true
      rw [hlatch, ha]) b
    rw [hrun]
    exact congrArg (fun x => exec (decodePair x b) _) hlatch
  | false =>
    obtain ⟨hphase, hrdptr⟩ := s.dec.placeToken_verbatim ha (b :: bs)
    simp only [decodeToken_of_not_marker ha, Except.ok.injEq, Prod.mk.injEq] at hd
    obtain ⟨rfl, rfl⟩ := hd
    have hread : Memory.read (s.dec.placeToken (a :: b :: bs)).inMem (s.dec.placeToken (a :: b :: bs)).rdptr.toNat = some a := by
      rw [hrdptr]
      exact hread_a
    rw [step_dec_read (s := s.placeToken (a :: b :: bs)) (ms := s.script) rfl rfl
      (DecState.placeToken_rdptr_ne (x := 0) (by omega) hrdptr) hread]
    exact decByte_verbatim (s := (s.placeToken (a :: b :: bs)).withScript s.script) hphase ha

/-- Settles O53: a header's word is placed at the start, a token's at the read pointer. -/
theorem tableWordRunsNext : Obligations.TableWordRunsNext := by
  intro s nbits w i h
  have hlength := length_tableStream nbits w
  unfold decodeTableWord at h
  unfold State.withFetchWord State.placeWord
  generalize tableStream nbits w = bytes at h hlength ⊢
  cases hd : decodeAt (tablePos nbits) bytes with
  | error e => simp [hd] at h
  | ok r =>
    obtain ⟨j, rest⟩ := r
    obtain rfl : j = i := by simpa [hd] using h
    cases hpos : tablePos nbits with
    | start =>
      rw [hpos] at hd
      exact step_placeHeader hd s
    | token =>
      rw [hpos] at hd
      match bytes, hlength with
      | a :: b :: bs, _ => exact step_placeToken hd s
      | [_], hlength => simp at hlength

end Sys2Proof.Machine
end

section
/-! PROOFS. What any step can make of an engine that is BUSY and of one that is not: STATE (R111, R121, R125), the output written
so far (R59), the cursors and pointers (R19, R27, R28), DEC_OUT after an error (R123); which engine a step belongs to (R116);
and the end of a decode (R109). -/

namespace Sys2Proof.Machine

/-! ## STATE -/

/-- Only its own START makes a step of an encoder that is not BUSY. -/
theorem EncChange.status_of_not_busy {e e' : EncState} {m : Option Move} (h : EncChange e m e') (hb : e.status ≠ .busy)
    (hm : m ≠ some .reset) : e'.status = e.status ∨ isStart .enc m := by
  cases h with
  | same | dim | inMem | outMem => exact .inl rfl
  | token _ _ hbusy => exact absurd hbusy hb
  | start hstart => exact .inr hstart
  | reset hreset => exact absurd hreset hm

theorem DecChange.status_of_not_busy {d d' : DecState} {m : Option Move} (h : DecChange d m d') (hb : d.status ≠ .busy)
    (hm : m ≠ some .reset) : d'.status = d.status ∨ isStart .dec m := by
  cases h with
  | same | inlen | inMem | outMem => exact .inl rfl
  | truncated hbusy | latch _ hbusy | token _ _ hbusy => exact absurd hbusy hb
  | startFails _ _ hstart | accept _ _ hstart => exact .inr hstart
  | reset hreset => exact absurd hreset hm

/-- Settles O46: what a step makes of an engine that is not BUSY keeps its STATE, but for START. -/
theorem operationsBeginOnlyByStart : Obligations.OperationsBeginOnlyByStart := by
  intro s t h hm
  obtain ⟨henc, hdec, -⟩ := step_change h
  exact ⟨fun hb => henc.status_of_not_busy hb hm, fun hb => hdec.status_of_not_busy hb hm⟩

/-- A token step leaves STATE as it was or DONE, whatever it consumes. -/
theorem EncState.put_status (i : Instr) (k : Nat) (e : EncState) :
    (e.put i k).status = e.status ∨ (e.put i k).status = .done := by
  obtain ⟨hemit, -⟩ := EncState.emitAll_regs (encode i) e
  obtain ⟨hcount, -⟩ := EncState.count_regs i (EncState.emitAll (encode i) e)
  have hstatus : (((EncState.emitAll (encode i) e).count i).advance k).status = e.status := hcount.trans hemit
  rw [EncState.put, EncState.finish_status, hstatus]
  exact statusAfter_eq ..

theorem EncChange.status_of_busy {e e' : EncState} {m : Option Move} (h : EncChange e m e') (hb : e.status = .busy)
    (hm : m ≠ some .reset) : e'.status = .busy ∨ e'.status = .done := by
  cases h with
  | same => exact .inl hb
  | token i k => exact hb ▸ e.put_status i k
  | reset hreset => exact absurd hreset hm
  | start _ hidle | dim _ _ hidle | inMem _ _ hidle | outMem _ _ hidle => exact absurd hb hidle

theorem DecChange.status_of_busy {d d' : DecState} {m : Option Move} (h : DecChange d m d') (hb : d.status = .busy)
    (hm : m ≠ some .reset) : d'.status = .busy ∨ d'.status = .done ∨ d'.status = .error := by
  cases h with
  | same | latch => exact .inl hb
  | truncated => exact .inr (.inr rfl)
  | token _ _ _ _ hdone =>
    obtain ⟨-, -, hstatus, -⟩ := hdone
    rw [hstatus, hb]
    exact (statusAfter_eq ..).imp_right .inl
  | reset hreset => exact absurd hreset hm
  | startFails _ _ _ hidle | accept _ _ _ hidle | inlen _ hidle | inMem _ _ hidle | outMem _ _ hidle =>
    exact absurd hb hidle

/-- Settles O47: what a step makes of a BUSY engine is BUSY or ended. -/
theorem operationsEndOnlyInDoneOrError : Obligations.OperationsEndOnlyInDoneOrError := by
  intro s t h hm
  obtain ⟨henc, hdec, -⟩ := step_change h
  exact ⟨fun hb => henc.status_of_busy hb hm, fun hb => hdec.status_of_busy hb hm⟩

/-! ## DEC_OUT after an error -/

/-- The only ways into ERROR are the two `raise`s. -/
theorem DecChange.outMem_of_error {d d' : DecState} {m : Option Move} (h : DecChange d m d') (hs : d.status ≠ .error)
    (he : d'.status = .error) : d'.outMem = [] := by
  cases h with
  | truncated | startFails | reset => rfl
  | same | latch | inlen | inMem | outMem => exact absurd he hs
  | token _ _ hb _ hdone =>
    obtain ⟨-, -, hstatus, -⟩ := hdone
    rw [he, hb] at hstatus
    rcases statusAfter_eq .busy d'.cursor.toNat d.n with h | h <;> simp [h] at hstatus
  | accept w h =>
    rw [DecState.accept_status] at he
    rcases statusAfter_eq .busy 0 (d.accept w h).n with h | h <;> simp [h] at he

/-- Settles O18: the raising step empties DEC_OUT. -/
theorem errorLeavesNoResult : Obligations.ErrorLeavesNoResult := by
  intro s t h hs he a
  obtain ⟨-, hdec, -⟩ := step_change h
  rw [hdec.outMem_of_error hs he, Memory.read_nil]

/-! ## Written output and the cursors -/

theorem EncChange.keeps_output {e e' : EncState} {m : Option Move} (h : EncChange e m e') (hinv : e.Inv)
    (hb : e.status = .busy) (hm : m ≠ some .reset) {a : Nat} (ha : a < e.outlen.toNat) :
    Memory.read e'.outMem a = Memory.read e.outMem a := by
  cases h with
  | same => rfl
  | token i k _ ht =>
    obtain ⟨⟨hstored, -⟩, -⟩ := hinv.put_emitted hb ht
    exact hstored.read_below ha
  | reset hreset => exact absurd hreset hm
  | start _ hidle | dim _ _ hidle | inMem _ _ hidle | outMem _ _ hidle => exact absurd hb hidle

theorem DecChange.keeps_output {d d' : DecState} {m : Option Move} (h : DecChange d m d') (hb : d.status = .busy)
    (hm : m ≠ some .reset) (he : d'.status ≠ .error) {a : Nat} (ha : a < d.cursor.toNat) :
    Memory.read d'.outMem a = Memory.read d.outMem a := by
  cases h with
  | same | latch => rfl
  | truncated => exact absurd rfl he
  | token _ _ _ _ hdone =>
    obtain ⟨hwrote, -⟩ := hdone
    exact hwrote.read_outside (.inl ha)
  | reset hreset => exact absurd hreset hm
  | startFails _ _ _ hidle | accept _ _ _ hidle | inlen _ hidle | inMem _ _ hidle | outMem _ _ hidle =>
    exact absurd hb hidle

/-- Settles O48: a token's bytes and bits are stored past what has been written. -/
theorem writtenOutputIsFinal : Obligations.WrittenOutputIsFinal := by
  intro s t hinv h hm
  obtain ⟨henc, hdec, -⟩ := step_change h
  exact ⟨fun hb a ha => henc.keeps_output hinv.enc hb hm ha, fun hb he a ha => hdec.keeps_output hb hm he ha⟩

theorem EncChange.cursor_mono {e e' : EncState} {m : Option Move} (h : EncChange e m e') (hinv : e.Inv)
    (hb : e.status = .busy) (hm : m ≠ some .reset) : e.cursor.toNat ≤ e'.cursor.toNat ∧ e'.cursor.toNat ≤ e.n := by
  cases h with
  | same => exact ⟨Nat.le_refl _, Nat.le_of_lt (hinv.busyCursor hb)⟩
  | token i k _ ht =>
    obtain ⟨⟨-, -, hcursor, -⟩, -, -, hle⟩ := hinv.put_emitted hb ht
    omega
  | reset hreset => exact absurd hreset hm
  | start _ hidle | dim _ _ hidle | inMem _ _ hidle | outMem _ _ hidle => exact absurd hb hidle

theorem DecChange.rdptr_mono {d d' : DecState} {m : Option Move} (h : DecChange d m d') (hinv : d.Inv)
    (hb : d.status = .busy) (hm : m ≠ some .reset) : d.rdptr.toNat ≤ d'.rdptr.toNat ∧ d'.rdptr.toNat ≤ d.inlen.toNat := by
  obtain ⟨-, hle⟩ := hinv.busyRdptr hb
  have hconsumed : d.rdptr ≠ d.inlen → d'.rdptr = d.rdptr + 1#16 →
      d.rdptr.toNat ≤ d'.rdptr.toNat ∧ d'.rdptr.toNat ≤ d.inlen.toNat := fun hr hrdptr => by
    obtain ⟨hsucc, hle'⟩ := DecState.rdptr_succ hle hr
    rw [hrdptr]
    omega
  cases h with
  | same | truncated => exact ⟨Nat.le_refl _, hle⟩
  | latch _ _ hr => exact hconsumed hr rfl
  | token _ _ _ hr hdone =>
    obtain ⟨-, hrdptr, -⟩ := hdone
    exact hconsumed hr hrdptr
  | reset hreset => exact absurd hreset hm
  | startFails _ _ _ hidle | accept _ _ _ hidle | inlen _ hidle | inMem _ _ hidle | outMem _ _ hidle =>
    exact absurd hb hidle

theorem DecChange.cursor_mono {d d' : DecState} {m : Option Move} (h : DecChange d m d') (hinv : d.Inv)
    (hb : d.status = .busy) (hm : m ≠ some .reset) : d.cursor.toNat ≤ d'.cursor.toNat ∧ d'.cursor.toNat ≤ d.n := by
  cases h with
  | same | truncated | latch => exact ⟨Nat.le_refl _, hinv.cursorMax⟩
  | token _ _ _ _ hdone =>
    obtain ⟨hwrote, -⟩ := hdone
    exact hwrote.cursor_le hinv.cursorMax
  | reset hreset => exact absurd hreset hm
  | startFails _ _ _ hidle | accept _ _ _ hidle | inlen _ hidle | inMem _ _ hidle | outMem _ _ hidle =>
    exact absurd hb hidle

/-- Settles O49: a BUSY engine's step adds to its cursor and pointer what fits. -/
theorem cursorsNeverMoveBack : Obligations.CursorsNeverMoveBack := by
  intro s t hinv h hm
  obtain ⟨henc, hdec, -⟩ := step_change h
  refine ⟨fun hb => henc.cursor_mono hinv.enc hb hm, fun hb => ?_⟩
  obtain ⟨hrdptr, hinlen⟩ := hdec.rdptr_mono hinv.dec hb hm
  exact ⟨hrdptr, hinlen, hdec.cursor_mono hinv.dec hb hm⟩

/-! ## Whose step it is -/

/-- A state with no move listed is the one whose only move has been taken. -/
theorem State.withScript_nil {s : State} (h : s.script = []) : s.withScript [] = s := by
  rw [← h]
  rfl

theorem step_engine_alone (e : Engine) {s : State} (h : s.script = []) :
    step (s.withScript [.engine e]) = engineStep e s := by
  have htake : (s.withScript [.engine e]).withScript [] = s := State.withScript_nil h
  rw [step_cons (s := s.withScript [.engine e]) rfl, htake]
  rfl

/-- Settles O52: an engine that is not BUSY answers with the state as it is, and the free move is an engine's. -/
theorem onlyBusyEnginesMove : Obligations.OnlyBusyEnginesMove := by
  refine ⟨fun s ms h hb => ?_, fun s ms h hb => ?_, fun s h => ⟨fun he hd => ?_, fun he hd => ?_, fun he hd => ?_,
    fun he hd => ?_⟩⟩
  · exact (step_cons h).trans (engineStep_idle .enc (s.withScript ms) hb)
  · exact (step_cons h).trans (engineStep_idle .dec (s.withScript ms) hb)
  · rw [step_nil h, freeMove, if_neg (by simp [he]), if_neg he]
    exact engineStep_idle .dec s hd
  · rw [step_nil h, freeMove, if_neg (by simp [hd]), if_pos he, step_engine_alone .enc h]
  · rw [step_nil h, freeMove, if_neg (by simp [he]), if_neg he, step_engine_alone .dec h]
  · rw [step_nil h, freeMove, if_pos ⟨he, hd⟩, step_engine_alone _ (s := s.drawn) h]
    split_ifs <;> rfl

/-- Settles O54: a reset replaces the two engines and nothing else. -/
theorem resetKeepsTheHostSide : Obligations.ResetKeepsTheHostSide := fun _ _ h => ⟨_, step_reset h, rfl, rfl, rfl⟩

/-! ## The end of a decode (R109) -/

/-- A step that reads and writes nothing but the decoder takes no notice of the moves to come. -/
theorem DecOnly.withScript {f : State → Result} (hf : DecOnly f) {s : State} {d : DecState} (h : f s = .next (s.withDec d))
    (ms : List Move) : f (s.withScript ms) = .next ((s.withDec d).withScript ms) := by
  obtain ⟨r, hr⟩ := hf
  rw [hr] at h ⊢
  rw [State.withScript_dec]
  cases hd : r s.dec with
  | ok d' =>
    simp only [hd, State.answerDec, Host.Outcome.next.injEq] at h
    obtain rfl : d' = d := congrArg State.dec h
    rfl
  | error x => simp [hd, State.answerDec] at h

/-- `k` moves of the engine take `s` to `t`, whatever moves come after them. -/
def State.Runs (e : Engine) (k : Nat) (s t : State) : Prop :=
  ∀ (r : Nat) (ms : List Move),
    runSteps (k + r) (s.withScript (List.replicate k (.engine e) ++ ms)) = runSteps r (t.withScript ms)

theorem State.Runs.zero (e : Engine) (s : State) : s.Runs e 0 s := fun r ms => by
  rw [Nat.zero_add, List.replicate_zero, List.nil_append]

theorem State.Runs.one {e : Engine} {s t : State}
    (h : ∀ ms, step (s.withScript (.engine e :: ms)) = .next (t.withScript ms)) : s.Runs e 1 t := fun r ms => by
  rw [Nat.add_comm]
  exact runSteps_next (h ms)

theorem State.Runs.trans {e : Engine} {j k : Nat} {s t u : State} (h1 : s.Runs e j t) (h2 : t.Runs e k u) :
    s.Runs e (j + k) u := fun r ms => by
  rw [List.replicate_add, List.append_assoc, Nat.add_assoc, h1, h2]

/-- Moves given to an engine that is not BUSY (R116; log 20). -/
theorem State.Runs.idle (e : Engine) (k : Nat) {s : State}
    (hb : (match e with | .enc => s.enc.status | .dec => s.dec.status) ≠ .busy) : s.Runs e k s := fun r ms =>
  runSteps_add k r _ _ (runSteps_idle e k s ms hb)

/-- The moves alone. -/
theorem State.Runs.eq_next {e : Engine} {k : Nat} {s t : State} (h : s.Runs e k t) :
    runSteps k (s.withScript (List.replicate k (.engine e))) = .next (t.withScript []) := by
  have hrun := h 0 []
  rwa [List.append_nil] at hrun

/-- One move of a BUSY decoder whose step is known. -/
theorem State.Runs.decStep {s : State} {d : DecState} (hb : s.dec.status = .busy) (h : decStep s = .next (s.withDec d)) :
    s.Runs .dec 1 (s.withDec d) :=
  .one fun ms => (step_dec (s := s.withScript (.engine .dec :: ms)) rfl hb).trans (decStep_decOnly.withScript h ms)

/-- DEC's step where its remaining input is written: the decode ends, or a byte is consumed. -/
theorem decStep_written {s : State} (hb : s.dec.status = .busy) (hle : s.dec.rdptr.toNat ≤ s.dec.inlen.toNat)
    (hf : Memory.Filled s.dec.inMem s.dec.rdptr.toNat s.dec.inlen.toNat) :
    ∃ d, decStep s = .next (s.withDec d) ∧ ((d.status ≠ .busy ∧ (d.status = .done ∨ d.status = .error)) ∨
      d.status = .busy ∧ d.rdptr.toNat = s.dec.rdptr.toNat + 1 ∧ s.dec.rdptr.toNat + 1 ≤ s.dec.inlen.toNat ∧
        s.dec.SameInputs d) := by
  rcases decStep_cases s with ⟨-, hstep⟩ | ⟨hr, hnone, -⟩ | ⟨x, hr, -, -, -, hstep⟩ | ⟨x, i, d, hr, -, hstep, hdone, -⟩
  · exact ⟨_, hstep, .inl ⟨by simp, .inr rfl⟩⟩
  · have hlt : s.dec.rdptr.toNat < s.dec.inlen.toNat := Nat.lt_of_le_of_ne hle fun he => hr (BitVec.eq_of_toNat_eq he)
    have hsome := hf s.dec.rdptr.toNat (Nat.le_refl _) hlt
    simp [hnone] at hsome
  · obtain ⟨hsucc, hle'⟩ := DecState.rdptr_succ hle hr
    exact ⟨_, hstep, .inr ⟨hb, hsucc, hle', rfl, rfl, rfl, rfl⟩⟩
  · obtain ⟨-, hrdptr, hstatus, -, -, hinputs⟩ := hdone
    obtain ⟨hsucc, hle'⟩ := DecState.rdptr_succ hle hr
    rw [hb] at hstatus
    rcases statusAfter_eq .busy d.cursor.toNat s.dec.n with hs | hs
    · exact ⟨d, hstep, .inr ⟨hstatus.trans hs, hrdptr ▸ hsucc, hle', hinputs⟩⟩
    · exact ⟨d, hstep, .inl ⟨by simp [hstatus, hs], .inl (hstatus.trans hs)⟩⟩

/-- By induction on the bytes left: each step ends the decode or leaves one byte less. -/
theorem runs_dec_ends (k : Nat) : ∀ s : State, s.dec.status = .busy → s.dec.rdptr.toNat ≤ s.dec.inlen.toNat →
    s.dec.inlen.toNat ≤ s.dec.rdptr.toNat + k → Memory.Filled s.dec.inMem s.dec.rdptr.toNat s.dec.inlen.toNat →
    ∃ t, s.Runs .dec (k + 1) t ∧ (t.dec.status = .done ∨ t.dec.status = .error) := by
  induction k with
  | zero =>
    intro s hb hle hk _
    have heq : s.dec.rdptr = s.dec.inlen := BitVec.eq_of_toNat_eq (by omega)
    exact ⟨_, .decStep hb (if_pos heq), .inr rfl⟩
  | succ k ih =>
    intro s hb hle hk hf
    obtain ⟨d, hstep, hend⟩ := decStep_written hb hle hf
    have hfirst : s.Runs .dec 1 (s.withDec d) := .decStep hb hstep
    rw [Nat.add_comm]
    rcases hend with ⟨hidle, hend⟩ | ⟨hbusy, hrdptr, hle', hinlen, -, -, hinMem⟩
    · exact ⟨s.withDec d, hfirst.trans (.idle .dec (k + 1) hidle), hend⟩
    · obtain ⟨t, hrest, hend⟩ : ∃ t, (s.withDec d).Runs .dec (k + 1) t ∧ (t.dec.status = .done ∨ t.dec.status = .error) := by
        refine ih (s.withDec d) hbusy ?_ ?_ ?_ <;> rw [State.withDec_dec, hrdptr, hinlen]
        · exact hle'
        · omega
        · rw [hinMem]
          exact fun a ha => hf a (by omega)
      exact ⟨t, hfirst.trans hrest, hend⟩

/-- Settles O20: as many steps as bytes are left, and the one that raises. -/
theorem decodeEndsWithinItsInput : Obligations.DecodeEndsWithinItsInput := by
  intro s hb hle hf
  obtain ⟨t, hruns, hend⟩ :=
    runs_dec_ends (s.dec.inlen.toNat - s.dec.rdptr.toNat) s hb hle (by omega) hf
  exact ⟨_, hruns.eq_next, hend⟩

end Sys2Proof.Machine
end

section
/-! PROOFS. The host's reads and writes (spec/44_host_interface.md): the words of the registers (R33 to R45), a memory cell read
or written (R54, R114), and the byte view (R50, R52). -/

namespace Sys2Proof.Machine

/-! ## The words of the registers -/

/-- Fields side by side are digits: the upper one counts by the width of the lower. -/
theorem toNat_append_eq_add {m n : Nat} (x : BitVec m) (y : BitVec n) : (x ++ y).toNat = x.toNat * 2 ^ n + y.toNat := by
  rw [BitVec.toNat_append, ← Nat.shiftLeft_add_eq_or_of_lt y.isLt, Nat.shiftLeft_eq]

theorem toNat_halfWord (v : Half) : (halfWord v).toNat = v.toNat := by
  rw [halfWord, toNat_append_eq_add, BitVec.toNat_zero, Nat.zero_mul, Nat.zero_add]

theorem toNat_dimWord (width height : Byte) : (dimWord width height).toNat = height.toNat * 256 + width.toNat := by
  rw [dimWord_eq_halfWord, toNat_halfWord]
  exact toNat_append_eq_add height width

theorem toNat_statusBits (x : EngineStatus) : x.bits.toNat = stateCode x := by cases x <;> rfl

theorem toNat_phaseBits (x : Phase) : x.bits.toNat * 4 = if x = .expectCont then 4 else 0 := by cases x <;> rfl

theorem EncState.toNat_statusWord (e : EncState) : e.statusWord.toNat = e.errcode.toNat * 16 + stateCode e.status := by
  simp only [EncState.statusWord, toNat_append_eq_add, toNat_statusBits, BitVec.toNat_zero]
  omega

theorem DecState.toNat_statusWord (d : DecState) : d.statusWord.toNat =
    d.latch.toNat * 256 + d.errcode.toNat * 16 + (if d.phase = .expectCont then 4 else 0) + stateCode d.status := by
  rw [← toNat_phaseBits]
  simp only [DecState.statusWord, toNat_append_eq_add, toNat_statusBits, BitVec.toNat_zero]
  omega

/-- Settles O35: a STATUS word, a 16-bit register, two dimensions, or nothing. -/
theorem registerReadGivesItsFields : Obligations.RegisterReadGivesItsFields := fun s =>
  ⟨rfl, s.enc.toNat_statusWord, toNat_dimWord .., toNat_halfWord _, toNat_halfWord _, toNat_halfWord _, toNat_halfWord _,
    toNat_halfWord _, toNat_halfWord _, rfl, s.dec.toNat_statusWord, toNat_halfWord _, toNat_dimWord .., toNat_halfWord _,
    toNat_halfWord _, rfl⟩

/-! ## Writes (R114) -/

/-- A host write of bits: refused while the owner is BUSY, else stored, with nothing else changed. -/
theorem hostWriteBits_cases (m : BitSpace) (a : Nat) (bs : List Bit) (s : State) :
    if s.bitOwner m = .busy then hostWriteBits m a bs s = .refused (.bitWriteWhileBusy m)
    else ∃ mem, Memory.Stored (s.bitMem m) mem a bs ∧ hostWriteBits m a bs s = .next (s.withBitMem mem m) := by
  split_ifs with hb
  · exact if_pos hb
  · exact ⟨_, Memory.writeList_stored bs (s.bitMem m) a, if_neg hb⟩

theorem hostWriteByte_cases (m : ByteSpace) (a : Half) (v : Byte) (s : State) :
    if s.byteOwner m = .busy then hostWriteByte m a v s = .refused (.byteWriteWhileBusy m)
    else ∃ mem, Memory.Stored (s.byteMem m) mem a.toNat [v] ∧ hostWriteByte m a v s = .next (s.withByteMem mem m) := by
  split_ifs with hb
  · exact if_pos hb
  · exact ⟨_, Memory.write_stored (s.byteMem m) a.toNat v, if_neg hb⟩

/-- Settles O39: each write is that of its memory. -/
theorem hostWritesRefusedWhileBusy : Obligations.HostWritesRefusedWhileBusy := by
  refine fun s ms a b v => ⟨fun h => ?_, fun h => ?_, fun h => ?_, fun h => ?_⟩ <;> rw [step_cons h]
  · exact hostWriteBits_cases .encIn a.toNat [b] (s.withScript ms)
  · exact hostWriteBits_cases .decOut a.toNat [b] (s.withScript ms)
  · exact hostWriteByte_cases .encOut a v (s.withScript ms)
  · exact hostWriteByte_cases .decIn a v (s.withScript ms)

/-! ## Reads (R54, R110) -/

@[simp] theorem State.bitMem_withScript (s : State) (ms : List Move) (m : BitSpace) :
    (s.withScript ms).bitMem m = s.bitMem m := by cases m <;> rfl
@[simp] theorem State.bitOwner_withScript (s : State) (ms : List Move) (m : BitSpace) :
    (s.withScript ms).bitOwner m = s.bitOwner m := by cases m <;> rfl
@[simp] theorem State.byteOwner_withScript (s : State) (ms : List Move) (m : ByteSpace) :
    (s.withScript ms).byteOwner m = s.byteOwner m := by cases m <;> rfl

/-- A read of a bit changes no engine and answers with the cell's value, or with some value where it holds none. -/
theorem hostReadBit_cases (m : BitSpace) (a : Half) (s : State) :
    ∃ t b, hostReadBit m a s = .next t ∧ t.enc = s.enc ∧ t.dec = s.dec ∧ t.script = s.script ∧
      t.hostRead = some (.bit b) ∧ ∀ w, Memory.read (s.bitMem m) a.toNat = some w → b = w := by
  unfold hostReadBit
  cases Memory.read (s.bitMem m) a.toNat with
  | none => exact ⟨_, _, rfl, rfl, rfl, rfl, rfl, nofun⟩
  | some b => exact ⟨_, _, rfl, rfl, rfl, rfl, rfl, fun w hw => Option.some.inj hw⟩

theorem hostReadByte_cases (m : ByteSpace) (a : Half) (s : State) :
    ∃ t v, hostReadByte m a s = .next t ∧ t.enc = s.enc ∧ t.dec = s.dec ∧ t.script = s.script ∧
      t.hostRead = some (.byte v) ∧ ∀ w, Memory.read (s.byteMem m) a.toNat = some w → v = w := by
  unfold hostReadByte
  cases Memory.read (s.byteMem m) a.toNat with
  | none => exact ⟨_, _, rfl, rfl, rfl, rfl, rfl, nofun⟩
  | some v => exact ⟨_, _, rfl, rfl, rfl, rfl, rfl, fun w hw => Option.some.inj hw⟩

/-- Eight cells that hold a byte's bits, bit 7 first, read as that byte's bits (R50). -/
theorem readList_unpack {m : Memory Bit} {a : Nat} {v : Byte}
    (h : ∀ x, x < 8 → Memory.read m (a + x) = some (v.getLsbD (7 - x))) : Memory.readList m a 8 = .ok (unpack v) :=
  Memory.readList_of_reads (xs := unpack v) fun t ht => by
    rw [unpack_length] at ht
    rw [h t ht, unpack_getElem? v ht]

/-- A view read of eight written bits returns the byte they pack to. -/
theorem hostReadView_written {m : BitSpace} {k : BitVec 13} {v : Byte} {s : State}
    (h : ∀ x, x < 8 → Memory.read (s.bitMem m) (8 * k.toNat + x) = some (v.getLsbD (7 - x))) :
    hostReadView m k s = .next (s.withHostRead (.byte v)) := by
  unfold hostReadView viewBase
  rw [readList_unpack h]
  simp only [pack_unpack]

/-- A view read that includes a bit with no value returns a free byte. -/
theorem hostReadView_unwritten {m : BitSpace} {k : BitVec 13} {s : State} {x : Nat} (hx : x < 8)
    (h : Memory.read (s.bitMem m) (8 * k.toNat + x) = none) :
    hostReadView m k s = .next (s.withHostRead (.byte (Config.freeByte s.draws))).drawn := by
  unfold hostReadView viewBase
  cases hr : Memory.readList (s.bitMem m) (8 * k.toNat) 8 with
  | error _ => rfl
  | ok bs =>
    obtain ⟨hlen, hbits⟩ := Memory.readList_ok hr
    have hnone := hbits x hx
    rw [h, eq_comm, List.getElem?_eq_none_iff] at hnone
    omega

theorem hostReadView_cases (m : BitSpace) (k : BitVec 13) (s : State) :
    ∃ t v, hostReadView m k s = .next t ∧ t.enc = s.enc ∧ t.dec = s.dec ∧ t.script = s.script ∧
      t.hostRead = some (.byte v) ∧
      ∀ w : Byte, (∀ x, x < 8 → Memory.read (s.bitMem m) (8 * k.toNat + x) = some (w.getLsbD (7 - x))) → v = w := by
  unfold hostReadView viewBase
  cases hr : Memory.readList (s.bitMem m) (8 * k.toNat) 8 with
  | error _ =>
    refine ⟨_, _, rfl, rfl, rfl, rfl, rfl, fun w hw => ?_⟩
    rw [readList_unpack hw] at hr
    cases hr
  | ok bs =>
    refine ⟨_, _, rfl, rfl, rfl, rfl, rfl, fun w hw => ?_⟩
    rw [readList_unpack hw] at hr
    obtain rfl : unpack w = bs := Except.ok.inj hr
    exact pack_unpack w

/-- Settles O40: the view's write is that of the byte's eight bits, and its read packs them or is free. -/
theorem byteViewIsMsbFirst : Obligations.ByteViewIsMsbFirst := by
  refine fun s ms m k v => ⟨fun h => ?_, fun h => ⟨fun hbits => ?_, fun x hx hnone => ?_⟩⟩ <;> rw [step_cons h]
  · have hwrite := hostWriteBits_cases m (viewBase k) (unpack v) (s.withScript ms)
    rw [State.bitOwner_withScript, State.bitMem_withScript] at hwrite
    exact hwrite
  · exact hostReadView_written (s := s.withScript ms) (by rwa [State.bitMem_withScript])
  · exact hostReadView_unwritten (s := s.withScript ms) hx (by rwa [State.bitMem_withScript])

/-- Settles O41: each read is that of its memory. -/
theorem hostReadsReturnTheCell : Obligations.HostReadsReturnTheCell := by
  refine fun s ms a => ⟨fun h => ?_, fun h => ?_, fun h => ?_, fun h => ?_, fun m k h => ?_⟩ <;> rw [step_cons h]
  · exact hostReadByte_cases .encOut a (s.withScript ms)
  · exact hostReadByte_cases .decIn a (s.withScript ms)
  · exact hostReadBit_cases .encIn a (s.withScript ms)
  · exact hostReadBit_cases .decOut a (s.withScript ms)
  · have hread := hostReadView_cases m k (s.withScript ms)
    rw [State.bitMem_withScript] at hread
    exact hread

end Sys2Proof.Machine
end

section
/-! PROOFS. What the tokenizer answers (spec/40_tokenizer.md): its tokens and what they consume (R75, R86 to R88), what it reads
(R54), the bit it stops on (R56), and branch 3 (R83, R85). -/

namespace Sys2Proof.Machine

/-! ## Its tokens -/

/-- Settles O27: each branch's token consumes what it stands for. -/
theorem tokenConsumption : Obligations.TokenConsumption := by
  intro m n c i k hc h
  have hbranch := tokenize_branch h
  obtain ⟨-, -, -, hk, hlen, -⟩ := hbranch.facts
  have hpos := hbranch.pos hc
  omega

/-- Settles O28: each branch's token is canonical. -/
theorem emittedTokensAreCanonical : Obligations.EmittedTokensAreCanonical := by
  intro m n c i k h
  obtain ⟨htoken, hwf, hcanonical, -⟩ := (tokenize_branch h).facts
  exact ⟨htoken, hwf, hcanonical⟩

/-- The token step where the tokenizer's answer is known. -/
theorem step_enc_token {s : State} {ms : List Move} {i : Instr} {k : Nat} (h : s.script = .engine .enc :: ms)
    (hb : s.enc.status = .busy) (ht : tokenize s.enc.inMem s.enc.n s.enc.cursor.toNat = .ok (i, k)) :
    step s = .next ((s.withScript ms).withEnc (s.enc.put i k)) := by
  rw [step_enc h hb]
  simp [encStep, EncState.tokenStep, ht]

/-- Settles O29: on a written window the tokenizer answers, and its token leaves BUSY or DONE. -/
theorem tokenStepCompletes : Obligations.TokenStepCompletes := by
  intro s ms h hb hc hf
  obtain ⟨i, k, ht⟩ := tokenize_completes hc hf
  refine ⟨_, step_enc_token h hb ht, ⟨rfl, rfl, rfl, rfl⟩, ?_⟩
  rcases s.enc.put_status i k with hs | hs <;> simp [hs, hb]

/-! ## What it reads -/

/-- Branch 2 reads only its two runs, which lie in the window. -/
theorem tryDual_congr {m m' : Memory Bit} {n c j : Nat} {b : Bit} (hj : j < 17)
    (h : ∀ a, c ≤ a → a < min n (c + 143) → Memory.read m a = Memory.read m' a) : tryDual m n c b j = tryDual m' n c b j := by
  unfold tryDual
  rw [runScan_congr fun a hlow hhigh => h a (by omega) (by omega)]

theorem tokenizeRun_congr {m m' : Memory Bit} {n c j : Nat} {b : Bit}
    (h : ∀ a, c ≤ a → a < min n (c + 143) → Memory.read m a = Memory.read m' a) :
    tokenizeRun m n c b j = tokenizeRun m' n c b j := by
  unfold tokenizeRun
  split_ifs with h17
  · rfl
  · rw [tryDual_congr (by omega) h, tokenizeLiteral_congr h]

/-- Settles O30: the bit at the cursor, its run and each branch read inside the window. -/
theorem tokenizerReadsOnlyItsWindow : Obligations.TokenizerReadsOnlyItsWindow := by
  intro m m' n c hc h
  have hbit : encInBit m c = encInBit m' c := by
    unfold encInBit
    rw [h c (Nat.le_refl c) (by omega)]
  unfold tokenize
  simp only [hbit, runScan_congr h, tokenizeRun_congr h]

/-! ## The bit it stops on (R56) -/

theorem encInBits_unwritten {m : Memory Bit} {c k x : Nat} (hx : x < k)
    (h : ∀ t, t < x → (Memory.read m (c + t)).isSome = true) (hnone : Memory.read m (c + x) = none) :
    encInBits m c k = .error (.encInUnwritten (c + x)) := by
  simp only [encInBits, Memory.readList_unwritten hx h hnone]

/-- The scan from the cursor stops on the first bit with no value. -/
theorem tokenize_unwritten_run {m : Memory Bit} {n c j : Nat} {b : Bit} (hj : j < 143) (hn : j = 0 ∨ c + j < n)
    (h : ∀ t, t < j → Memory.read m (c + t) = some b) (hnone : Memory.read m (c + j) = none) :
    tokenize m n c = .error (.encInUnwritten (c + j)) := by
  unfold tokenize
  rcases Nat.eq_zero_or_pos j with rfl | hpos
  · simp only [encInBit, show Memory.read m c = none from hnone, Nat.add_zero]
  · have hb : encInBit m c = .ok b := encInBit_ok.mpr (h 0 hpos)
    have hscan : runScan m n b c 143 = .error (.encInUnwritten (c + j)) := runScan_unwritten hj (by omega) h hnone
    simp only [hb, hscan]

/-- The scan of branch 2 stops on the first bit with no value. -/
theorem tokenize_unwritten_dual {m : Memory Bit} {n c j j2 : Nat} {b : Bit} (hrun : IsRun m n b c 143 j) (h1 : 1 < j)
    (h17 : j < 17) (hj2 : j2 < 16) (hn : c + j + j2 < n) (h : ∀ t, t < j2 → Memory.read m (c + j + t) = some (!b))
    (hnone : Memory.read m (c + j + j2) = none) : tokenize m n c = .error (.encInUnwritten (c + j + j2)) := by
  rw [tokenize_of_isRun hrun (by omega), tokenizeRun, if_neg (by omega), tryDual, if_pos h1,
    runScan_unwritten hj2 hn h hnone]

/-- Branches 3 and 4 stop on the first of their bits with no value. -/
theorem tokenizeLiteral_unwritten {m : Memory Bit} {n c x : Nat} (hx : x < 8) (hn : c + x < n)
    (h : ∀ t, t < x → (Memory.read m (c + t)).isSome = true) (hnone : Memory.read m (c + x) = none) :
    tokenizeLiteral m n c = .error (.encInUnwritten (c + x)) := by
  unfold tokenizeLiteral
  by_cases h8 : 8 ≤ n - c
  · rw [tryEscape, if_pos h8, encInBits_unwritten hx h hnone]
  · rw [tryEscape, if_neg h8]
    simp only [verbatimRest, encInBits_unwritten (k := min 8 (n - c)) (by omega) h hnone]

theorem tokenize_unwritten_literal {m : Memory Bit} {n c j j2 x : Nat} {b : Bit} (hrun : IsRun m n b c 143 j) (h1 : 1 ≤ j)
    (h17 : j < 17) (hdual : 1 < j → IsRun m n (!b) (c + j) 16 j2 ∧ j + j2 ≤ 16) (hx : x < 8) (hn : c + x < n)
    (h : ∀ t, t < x → (Memory.read m (c + t)).isSome = true) (hnone : Memory.read m (c + x) = none) :
    tokenize m n c = .error (.encInUnwritten (c + x)) := by
  rw [tokenize_of_isRun hrun h1, tokenizeRun, if_neg (by omega), tryDual_none hdual]
  exact tokenizeLiteral_unwritten hx hn h hnone

theorem step_enc_fault {s : State} {ms : List Move} {f : Fault} (h : s.script = .engine .enc :: ms)
    (hb : s.enc.status = .busy) (ht : tokenize s.enc.inMem s.enc.n s.enc.cursor.toNat = .error f) : step s = .fault f := by
  rw [step_enc h hb]
  simp [encStep, EncState.tokenStep, ht]

theorem decStep_unwritten {s : State} (hr : s.dec.rdptr ≠ s.dec.inlen)
    (hnone : Memory.read s.dec.inMem s.dec.rdptr.toNat = none) : decStep s = .fault (.decInUnwritten s.dec.rdptr.toNat) := by
  rw [decStep, if_neg hr, hnone]

/-- DEC START stops on the first of the header's five bytes with no value, those of the dimensions where the tag matches. -/
theorem decStart_unwritten {s : State} {a : Nat} (hl : 5 ≤ s.dec.inlen.toNat) (ha : a < 5) (hf : Memory.Filled s.dec.inMem 0 a)
    (htag : 3 ≤ a → Memory.readList s.dec.inMem 0 3 = .ok headerTag) (hnone : Memory.read s.dec.inMem a = none) :
    decStart s = .fault (.decInUnwritten a) := by
  rw [decStart, if_neg (by omega)]
  by_cases h3 : 3 ≤ a
  · have hread := Memory.readList_unwritten (m := s.dec.inMem) (a := 3) (k := 2) (x := a - 3) (by omega)
      (fun t ht => hf (3 + t) (by omega) (by omega)) (by rwa [Nat.add_sub_cancel' h3])
    rw [Nat.add_sub_cancel' h3] at hread
    simp only [htag h3, if_true, decStartDims, hread]
  · have hread := Memory.readList_unwritten (m := s.dec.inMem) (a := 0) (k := 3) (x := a) (by omega)
      (fun t ht => hf (0 + t) (by omega) (by omega)) (by rwa [Nat.zero_add])
    rw [Nat.zero_add] at hread
    simp only [hread]

/-- Settles O50: each read an engine makes names the first bit or byte it finds without a value. -/
theorem unwrittenInputFaults : Obligations.UnwrittenInputFaults := by
  refine ⟨fun s ms h hb => ⟨fun b j hj hn hbits hnone => ?_, fun b j j2 hrun h1 h17 hj2 hn hbits hnone => ?_,
    fun b j j2 x hrun h1 h17 hdual hx hn hbits hnone => ?_⟩, fun s ms h hb hr hnone => ?_,
    fun s ms v a h hv hb hl ha hf htag hnone => ?_⟩
  · exact step_enc_fault h hb (tokenize_unwritten_run hj hn hbits hnone)
  · exact step_enc_fault h hb (tokenize_unwritten_dual hrun h1 h17 hj2 hn hbits hnone)
  · exact step_enc_fault h hb (tokenize_unwritten_literal hrun h1 h17 hdual hx hn hbits hnone)
  · rw [step_dec h hb]
    exact decStep_unwritten (s := s.withScript ms) hr hnone
  · rw [step_decStart h hv hb]
    refine decStart_unwritten (s := s.withScript ms) hl ha hf (fun h3 => ?_) hnone
    obtain ⟨h0, h1, h2⟩ := htag h3
    simp [Memory.readList, h0, h1, h2, headerTag]

/-! ## Branch 3 (R83, R85) -/

/-- The bits of a byte in ENC_IN that are one value up to bit `j` of the eight and then the other are a run. -/
theorem IsRun.of_byte {m : Memory Bit} {n c p cap j : Nat} {b : Bit} {v : Byte}
    (h : ∀ t, t < 8 → Memory.read m (c + t) = some (v.getLsbD (7 - t))) (hn : c + 8 ≤ n) (hj : p + j < 8) (hcap : j < cap)
    (hrun : ∀ t, t < j → v.getLsbD (7 - (p + t)) = b) (hend : v.getLsbD (7 - (p + j)) = !b) : IsRun m n b (c + p) cap j := by
  refine ⟨by omega, fun t ht => ?_, fun _ => ?_⟩
  · rw [Nat.add_assoc, h (p + t) (by omega), hrun t ht]
  · rw [Nat.add_assoc, h (p + j) hj, hend]

theorem tokenizeLiteral_escape {m : Memory Bit} {n c : Nat} {p : Byte} {i : Instr} (hn : c + 8 ≤ n)
    (h : ∀ t, t < 8 → Memory.read m (c + t) = some (p.getLsbD (7 - t))) (hi : escapeToken p = some i) :
    tokenizeLiteral m n c = .ok (i, 8) := by
  have hbits : encInBits m c 8 = .ok (unpack p) := encInBits_ok.mpr (readList_unpack h)
  rw [tokenizeLiteral, tryEscape, if_pos (by omega), hbits]
  simp only [pack_unpack, hi]

/-- Where a byte's first run is `j` and its second `j2`, both ending inside the byte, no run branch fires. -/
theorem tokenize_escape {m : Memory Bit} {n c j j2 : Nat} {b : Bit} {p : Byte} {i : Instr} (hn : c + 8 ≤ n)
    (h : ∀ t, t < 8 → Memory.read m (c + t) = some (p.getLsbD (7 - t))) (hi : escapeToken p = some i) (h1 : 1 ≤ j)
    (hj : j + j2 < 8) (hrun : ∀ t, t < j → p.getLsbD (7 - t) = b) (hend : p.getLsbD (7 - j) = !b)
    (hrun2 : ∀ t, t < j2 → p.getLsbD (7 - (j + t)) = !b) (hend2 : p.getLsbD (7 - (j + j2)) = b) :
    tokenize m n c = .ok (i, 8) := by
  have hfirst : IsRun m n b c 143 j :=
    .of_byte (p := 0) h hn (by omega) (by omega) (by simpa using hrun) (by simpa using hend)
  have hsecond : IsRun m n (!b) (c + j) 16 j2 := .of_byte h hn hj (by omega) hrun2 (by simpa using hend2)
  rw [tokenize_of_isRun hfirst h1, tokenizeRun, if_neg (by omega), tryDual_none fun _ => ⟨hsecond, by omega⟩]
  exact tokenizeLiteral_escape hn h hi

/-- The three patterns: 1100 0011, 0011 1101 and 0110 0101 begin with runs of 2 and 4, 2 and 4, 1 and 2 (R85). -/
theorem tokenize_pattern {m : Memory Bit} {n c : Nat} {p : Byte} (hn : c + 8 ≤ n)
    (hp : p = 0xC3#8 ∨ p = 0x3D#8 ∨ p = 0x65#8) (h : ∀ t, t < 8 → Memory.read m (c + t) = some (p.getLsbD (7 - t))) :
    ∃ i, escapeToken p = some i ∧ tokenize m n c = .ok (i, 8) := by
  rcases hp with rfl | rfl | rfl
  · exact ⟨.escapeC3, rfl, tokenize_escape (b := true) (j := 2) (j2 := 4) hn h rfl (by omega) (by omega) (by decide) (by decide)
      (by decide) (by decide)⟩
  · exact ⟨.escape3D, rfl, tokenize_escape (b := false) (j := 2) (j2 := 4) hn h rfl (by omega) (by omega) (by decide)
      (by decide) (by decide) (by decide)⟩
  · exact ⟨.escape65, rfl, tokenize_escape (b := false) (j := 1) (j2 := 2) hn h rfl (by omega) (by omega) (by decide)
      (by decide) (by decide) (by decide)⟩

theorem EncState.count_escapeToken {p : Byte} {i : Instr} (hi : escapeToken p = some i) (e : EncState) :
    (e.count i).counts = [e.cntLong, e.cntDual, e.cntEsc + 1#16, e.cntVerb] := by
  unfold escapeToken at hi
  split_ifs at hi <;> obtain rfl := Option.some.inj hi <;> rfl

/-- Settles O25: the tokenizer answers the pattern's escape, and the step emits it. -/
theorem escapeBranch : Obligations.EscapeBranch := by
  intro s ms p hinv hs hb hn hp hbits
  obtain ⟨i, hi, ht⟩ := tokenize_pattern hn hp hbits
  obtain ⟨-, hencode, -⟩ := escapeToken_some hi
  rw [← hencode, ← EncState.count_escapeToken hi s.enc]
  exact step_enc_emits hinv hs hb ht

end Sys2Proof.Machine
end

section
/-! PROOFS. Whole encodes and decodes: an encode is a function of its input (R96) and ends (R87, R95), a token decodes to the bits it
was emitted for (R89), and so the decode of an encode gives the bitmap back (R118). -/

namespace Sys2Proof.Machine

/-! ## One encode is a function of its input (R96) -/

theorem EncState.SameEncode.start {e e' : EncState} (hw : e'.width = e.width) (hh : e'.height = e.height)
    (hin : ∀ a, a < e.n → Memory.read e'.inMem a = Memory.read e.inMem a) : e.start.SameEncode e'.start := by
  obtain ⟨hcounts, hcursor, houtlen, herr, hstatus, hwidth, hheight, hinMem, -⟩ := e.start_facts
  obtain ⟨hcounts', hcursor', houtlen', herr', hstatus', hwidth', hheight', hinMem', -⟩ := e'.start_facts
  have hn : e'.n = e.n := by simp only [EncState.n, hw, hh]
  have hnstart : e.start.n = e.n := rfl
  refine ⟨by rw [hwidth', hw, hwidth], by rw [hheight', hh, hheight], fun a ha => ?_, by rw [hstatus', hstatus, hn],
    herr'.trans herr.symm, hcursor'.trans hcursor.symm, houtlen'.trans houtlen.symm, hcounts'.trans hcounts.symm,
    fun a ha => ?_⟩
  · rw [hinMem', hinMem]
    exact hin a (hnstart ▸ ha)
  · rw [houtlen] at ha
    have hlt : a < 5 := ha
    rw [e.start_stored a, e'.start_stored a, hw, hh, if_pos ⟨Nat.zero_le a, hlt⟩, if_pos ⟨Nat.zero_le a, hlt⟩]

/-- Encoders at the same point have the same token before them. -/
theorem EncState.SameEncode.tokenize {e e' : EncState} (h : e.SameEncode e') (hc : e.cursor.toNat < e.n) :
    tokenize e'.inMem e'.n e'.cursor.toNat = tokenize e.inMem e.n e.cursor.toNat := by
  obtain ⟨hw, hh, hin, -, -, hcursor, -⟩ := h
  have hn : e'.n = e.n := by simp only [EncState.n, hw, hh]
  rw [hn, hcursor]
  exact tokenizerReadsOnlyItsWindow _ _ _ _ hc fun a _ ha => hin a (by omega)

theorem EncState.count_counts_congr {e e' : EncState} (i : Instr) (h : e'.counts = e.counts) :
    (e'.count i).counts = (e.count i).counts := by
  simp only [EncState.counts, List.cons.injEq, and_true] at h
  obtain ⟨hlong, hdual, hesc, hverb⟩ := h
  cases i <;> simp [EncState.count, EncState.counts, hlong, hdual, hesc, hverb]

theorem EncState.SameEncode.put {e e' : EncState} (h : e.SameEncode e') (hinv : e.Inv) (hinv' : e'.Inv) (hb : e.status = .busy)
    {i : Instr} {k : Nat} (ht : Machine.tokenize e.inMem e.n e.cursor.toNat = .ok (i, k)) :
    (e.put i k).SameEncode (e'.put i k) := by
  have ht' := h.tokenize (hinv.busyCursor hb)
  obtain ⟨hw, hh, hin, hstatus, -, hcursor, houtlen, hcounts, hout⟩ := h
  obtain ⟨⟨stored, len, cur, st, w, ht1, inMem, err⟩, counts, -⟩ := hinv.put_emitted hb ht
  obtain ⟨⟨stored', len', cur', st', w', ht1', inMem', err'⟩, counts', -⟩ :=
    hinv'.put_emitted (hstatus.trans hb) (ht'.trans ht)
  have hn : e'.n = e.n := by simp only [EncState.n, hw, hh]
  have hn1 : (e.put i k).n = e.n := by simp only [EncState.n, w, ht1]
  refine ⟨by rw [w', hw, w], by rw [ht1', hh, ht1], fun a ha => ?_, by rw [st', st, hcursor, hn],
    by rw [err', err, hinv.errcode, hinv'.errcode], BitVec.eq_of_toNat_eq (by rw [cur', cur, hcursor]),
    BitVec.eq_of_toNat_eq (by rw [len', len, houtlen]), by rw [counts', counts, count_counts_congr i hcounts], fun a ha => ?_⟩
  · rw [inMem', inMem]
    exact hin a (hn1 ▸ ha)
  · rw [stored' a, stored a, houtlen]
    split_ifs with hnew
    · rfl
    · exact hout a (by omega)

/-- Settles O33: what START and a token step make depends on what the two encoders share. -/
theorem encodeDependsOnlyOnItsInput : Obligations.EncodeDependsOnlyOnItsInput := by
  refine fun e e' => ⟨fun hw hh hin => .start hw hh hin, fun hinv hinv' hb hsame => ?_⟩
  have ht' := hsame.tokenize (hinv.busyCursor hb)
  unfold EncState.tokenStep
  rw [ht']
  cases ht : tokenize e.inMem e.n e.cursor.toNat with
  | error x => rfl
  | ok r => exact hsame.put hinv hinv' hb ht

/-! ## The end of an encode (R87, R95) -/

/-- `bytes` are the encodings of the tokens the tokenizer gives one after the other from the cursor to the end of the bitmap. -/
inductive TokenStream (m : Memory Bit) (n : Nat) : Nat → List Byte → Prop where
  | nil : TokenStream m n n []
  | cons {c k : Nat} {i : Instr} {bytes : List Byte} (hc : c < n) (ht : tokenize m n c = .ok (i, k))
      (hrest : TokenStream m n (c + k) bytes) : TokenStream m n c (encode i ++ bytes)

/-- One move of a BUSY encoder whose token is known. -/
theorem State.Runs.encToken {s : State} (hb : s.enc.status = .busy) {i : Instr} {k : Nat}
    (ht : tokenize s.enc.inMem s.enc.n s.enc.cursor.toNat = .ok (i, k)) : s.Runs .enc 1 (s.withEnc (s.enc.put i k)) :=
  .one fun ms => step_enc_token (s := s.withScript (.engine .enc :: ms)) rfl hb ht

/-- By induction on the moves, of which there are as many as bits are left: the encode ends with the cursor at ENC_N, and has
emitted the tokens from where it stood, as long as the output was within its bound (R88). -/
theorem runs_enc_ends (r : Nat) : ∀ s : State, s.enc.status = statusAfter .busy s.enc.cursor.toNat s.enc.n →
    s.enc.cursor.toNat ≤ s.enc.n → s.enc.n ≤ s.enc.cursor.toNat + r →
    Memory.Filled s.enc.inMem s.enc.cursor.toNat s.enc.n →
    ∃ e bytes, s.Runs .enc r (s.withEnc e) ∧ e.status = .done ∧ e.cursor.toNat = s.enc.n ∧
      TokenStream s.enc.inMem s.enc.n s.enc.cursor.toNat bytes ∧
      ((s.enc.status = .busy → 4 * s.enc.outlen.toNat ≤ 20 + s.enc.cursor.toNat) →
        e.outlen.toNat = s.enc.outlen.toNat + bytes.length ∧
        Memory.Stored s.enc.outMem e.outMem s.enc.outlen.toNat bytes) := by
  have ended : ∀ (r : Nat) (s : State), s.enc.status = statusAfter .busy s.enc.cursor.toNat s.enc.n →
      s.enc.cursor.toNat = s.enc.n → s.Runs .enc r (s.withEnc s.enc) ∧ s.enc.status = .done := fun r s hstatus hend => by
    have hdone : s.enc.status = .done := hstatus.trans (if_pos hend)
    exact ⟨.idle .enc r (by simp [hdone]), hdone⟩
  induction r with
  | zero =>
    intro s hstatus hle hr _
    have hend : s.enc.cursor.toNat = s.enc.n := by omega
    obtain ⟨hruns, hdone⟩ := ended 0 s hstatus hend
    exact ⟨s.enc, [], hruns, hdone, hend, hend ▸ .nil, fun _ => ⟨rfl, Memory.stored_nil _ _⟩⟩
  | succ r ih =>
    intro s hstatus hle hr hf
    by_cases hend : s.enc.cursor.toNat = s.enc.n
    · obtain ⟨hruns, hdone⟩ := ended (r + 1) s hstatus hend
      exact ⟨s.enc, [], hruns, hdone, hend, hend ▸ .nil, fun _ => ⟨rfl, Memory.stored_nil _ _⟩⟩
    · have hb : s.enc.status = .busy := hstatus.trans (if_neg hend)
      have hc : s.enc.cursor.toNat < s.enc.n := Nat.lt_of_le_of_ne hle hend
      have hn := s.enc.n_le
      obtain ⟨i, k, ht⟩ := tokenize_completes hc fun a hlow hhigh => hf a hlow (by omega)
      have hbranch := tokenize_branch ht
      have hpos := hbranch.pos hc
      obtain ⟨-, -, -, hk, -⟩ := hbranch.facts
      obtain ⟨hcursor, hstatus', hw, hh, hinMem⟩ := s.enc.put_regs i k hb (by omega)
      have hn' : (s.enc.put i k).n = s.enc.n := by simp only [EncState.n, hw, hh]
      have hfirst : s.Runs .enc 1 (s.withEnc (s.enc.put i k)) := .encToken hb ht
      obtain ⟨e, bytes, hruns, hdone, hlast, hstream, hout⟩ := ih (s.withEnc (s.enc.put i k))
        (by simp only [State.withEnc_enc, hcursor, hn', hstatus']) (by simp only [State.withEnc_enc, hcursor, hn']; omega)
        (by simp only [State.withEnc_enc, hcursor, hn']; omega)
        (by simp only [State.withEnc_enc, hcursor, hn', hinMem]; exact fun a ha => hf a (by omega))
      simp only [State.withEnc_enc, hcursor, hn', hinMem] at hlast hstream hout
      refine ⟨e, encode i ++ bytes, Nat.add_comm r 1 ▸ hfirst.trans hruns, hdone, hlast, .cons hc ht hstream, fun hlen => ?_⟩
      obtain ⟨hmax, hlen'⟩ := hbranch.output_bound hc hn (hlen hb)
      obtain ⟨⟨hstored, houtlen, -⟩, -⟩ := EncState.put_emitted i k s.enc hb (by omega) (by omega)
      rw [houtlen] at hout
      obtain ⟨hfinal, hstored'⟩ := hout fun hb' => hlen' fun heq => by simp [hstatus', statusAfter, heq] at hb'
      exact ⟨by rw [hfinal, List.length_append, Nat.add_assoc], hstored.trans hstored'⟩

/-- Settles O32: the moves are as many as the bits that remain. -/
theorem encodeReachesDone : Obligations.EncodeReachesDone := by
  intro s hb hc hf
  obtain ⟨e, -, hruns, hdone, hlast, -⟩ := runs_enc_ends (s.enc.n - s.enc.cursor.toNat) s
    (hb.trans (if_neg (by omega)).symm) (by omega) (by omega) hf
  exact ⟨_, hruns.eq_next, hdone, hlast⟩

/-! ## A token decodes to its bits (R89) -/

/-- Writing a token's bits with as many left to write as the encoder had left writes the bits consumed. -/
theorem Branch.wrote {m : Memory Bit} {n c k : Nat} {i : Instr} (h : Branch m n c i k) {d d' : DecState}
    (hw : d.Wrote d' (tokenBits i)) (hleft : d.n - d.cursor.toNat = n - c) : d'.cursor.toNat = d.cursor.toNat + k ∧
      ∀ x, x < k → Memory.read d'.outMem (d.cursor.toNat + x) = Memory.read m (c + x) := by
  obtain ⟨-, -, -, hk, -, hbits, hlen⟩ := h.facts
  obtain ⟨hcursor, hstored⟩ := hw
  rw [hleft] at hcursor hstored
  refine ⟨by rw [hcursor, hlen], fun x hx => ?_⟩
  rw [hstored (d.cursor.toNat + x), if_pos (by rw [List.length_take]; omega), Nat.add_sub_cancel_left,
    List.getElem?_take_of_lt (by omega), hbits x hx]

/-- Settles O31: the token's step writes its bits through the clamped writer. -/
theorem emittedTokenDecodesToItsBits : Obligations.EmittedTokenDecodesToItsBits := by
  intro m n c i k s hc ht hleft
  have hbranch := tokenize_branch ht
  obtain ⟨htoken, -⟩ := hbranch.facts
  obtain ⟨d, hexec, ⟨hwrote, -⟩, -⟩ := exec_token htoken s
  exact ⟨_, hexec, hbranch.wrote hwrote hleft⟩

/-! ## A token's encoding in DEC_IN -/

theorem decodeToken_encode {i : Instr} (hi : i.isToken = true) (hwf : i.wf = true) : decodeToken (encode i) = .ok (i, []) := by
  have hd := decodeReadsEncodedInstruction i [] hwf
  rwa [Instr.pos_of_isToken hi, List.append_nil] at hd

/-- A well-formed token is a verbatim byte that is no marker, or a marker and its second byte. -/
theorem Instr.token_cases {i : Instr} (hi : i.isToken = true) (hwf : i.wf = true) :
    (∃ a, isMarker a = false ∧ i = .verbatim a) ∨ ∃ a b, isMarker a = true ∧ i = decodePair a b := by
  have hd := decodeToken_encode hi hwf
  generalize encode i = bytes at hd
  match bytes with
  | [] => simp [decodeToken] at hd
  | a :: bs =>
    cases ha : isMarker a with
    | false =>
      simp only [decodeToken_of_not_marker ha, Except.ok.injEq, Prod.mk.injEq] at hd
      obtain ⟨rfl, -⟩ := hd
      exact .inl ⟨a, ha, rfl⟩
    | true =>
      match bs with
      | [] => simp [decodeToken_marker_alone ha] at hd
      | b :: bs =>
        simp only [decodeToken_marker_pair ha, Except.ok.injEq, Prod.mk.injEq] at hd
        obtain ⟨rfl, -⟩ := hd
        exact .inr ⟨a, b, ha, rfl⟩

/-- DEC BUSY, a token byte expected, and `bytes` next in its input. -/
structure DecState.Reading (d : DecState) (bytes : List Byte) : Prop where
  busy : d.status = .busy
  phase : d.phase = .expectToken
  inlen : d.rdptr.toNat + bytes.length ≤ d.inlen.toNat
  cells : ∀ x, x < bytes.length → Memory.read d.inMem (d.rdptr.toNat + x) = bytes[x]?

/-- As many moves of DEC as a token has bytes run the token. -/
theorem runs_dec_token {s : State} {i : Instr} (hi : i.isToken = true) (hwf : i.wf = true) (h : s.dec.Reading (encode i)) :
    ∃ d, s.Runs .dec (encode i).length (s.withDec d) ∧ s.dec.Wrote d (tokenBits i) ∧
      d.rdptr.toNat = s.dec.rdptr.toNat + (encode i).length ∧ d.status = statusAfter .busy d.cursor.toNat s.dec.n ∧
      d.phase = .expectToken ∧ s.dec.SameInputs d := by
  obtain ⟨hb, hp, hinlen, hcells⟩ := h
  have hspace := s.dec.inlen.isLt
  obtain ⟨a, ha, rfl⟩ | ⟨a, b, ha, rfl⟩ := Instr.token_cases hi hwf
  · obtain ⟨d, hexec, ⟨hwrote, hrdptr, hstatus, -, -, hinputs⟩, -, hphase, -⟩ := exec_token hi s
    simp only [encode, List.length_cons, List.length_nil] at hinlen hcells
    have hne : s.dec.rdptr ≠ s.dec.inlen := fun he => by rw [he] at hinlen; omega
    have hstep : decStep s = .next (s.withDec d) :=
      (decStep_read hne (hcells 0 (by omega))).trans ((decByte_verbatim hp ha).trans hexec)
    exact ⟨d, .decStep hb hstep, hwrote, hrdptr ▸ half_add (k := 1) (by omega), hb ▸ hstatus, (hphase rfl).trans hp, hinputs⟩
  · obtain ⟨hencode, -⟩ := encode_decodePair ha b
    obtain ⟨d, hexec, ⟨hwrote, hrdptr, hstatus, -, -, hinputs⟩, hphase, -⟩ :=
      exec_token hi (s.withDec (s.dec.latchMarker a))
    rw [hencode] at hinlen hcells hphase ⊢
    simp only [List.length_cons, List.length_nil] at hinlen hcells hphase ⊢
    have hsucc : (s.dec.rdptr + 1#16).toNat = s.dec.rdptr.toNat + 1 := half_add (k := 1) (by omega)
    have hne : s.dec.rdptr ≠ s.dec.inlen := fun he => by rw [he] at hinlen; omega
    have hne' : s.dec.rdptr + 1#16 ≠ s.dec.inlen := fun he => by rw [← he, hsucc] at hinlen; omega
    have hfirst : decStep s = .next (s.withDec (s.dec.latchMarker a)) :=
      (decStep_read hne (hcells 0 (by omega))).trans (decByte_marker hp ha)
    have hsecond : decStep (s.withDec (s.dec.latchMarker a)) = .next (s.withDec d) :=
      (decStep_read (s := s.withDec (s.dec.latchMarker a)) hne' (hsucc ▸ hcells 1 (by omega))).trans
        ((decByte_pair (s := s.withDec (s.dec.latchMarker a)) rfl ha b).trans hexec)
    have hlast : d.rdptr.toNat = s.dec.rdptr.toNat + 2 := by
      rw [hrdptr]
      exact (half_add (c := s.dec.rdptr + 1#16) (k := 1) (by omega)).trans (by omega)
    exact ⟨d, State.Runs.trans (.decStep hb hfirst) (.decStep hb hsecond), hwrote, hlast, hb ▸ hstatus, hphase trivial,
      hinputs⟩

end Sys2Proof.Machine
end

section
/-! PROOFS. The round trip through both engines (R89, R118): a decode of the tokens of a bitmap writes the bitmap, and an encode
leaves the header and those tokens. -/

namespace Sys2Proof.Machine

theorem DecState.SameInputs.trans {d d' d'' : DecState} (h1 : d.SameInputs d') (h2 : d'.SameInputs d'') :
    d.SameInputs d'' := by
  obtain ⟨inlen1, width1, height1, in1⟩ := h1
  obtain ⟨inlen2, width2, height2, in2⟩ := h2
  exact ⟨inlen2.trans inlen1, width2.trans width1, height2.trans height1, in2.trans in1⟩

/-- A decoder with the tokens of the rest of a bitmap before it ends DONE with that rest written, and nothing below it changed. By
induction on the tokens. -/
theorem runs_dec_stream {m : Memory Bit} {n c : Nat} {bytes : List Byte} (h : TokenStream m n c bytes) : ∀ s : State,
    s.dec.n = n → s.dec.cursor.toNat = c → s.dec.status = statusAfter .busy c n → s.dec.phase = .expectToken →
    s.dec.rdptr.toNat + bytes.length ≤ s.dec.inlen.toNat →
    (∀ x, x < bytes.length → Memory.read s.dec.inMem (s.dec.rdptr.toNat + x) = bytes[x]?) →
    ∃ d, s.Runs .dec bytes.length (s.withDec d) ∧ d.status = .done ∧ d.rdptr.toNat = s.dec.rdptr.toNat + bytes.length ∧
      s.dec.SameInputs d ∧ (∀ a, a < c → Memory.read d.outMem a = Memory.read s.dec.outMem a) ∧
      ∀ a, c ≤ a → a < n → Memory.read d.outMem a = Memory.read m a := by
  induction h with
  | nil =>
    intro s _ _ hstatus _ _ _
    exact ⟨s.dec, .zero .dec s, hstatus.trans (if_pos rfl), rfl, ⟨rfl, rfl, rfl, rfl⟩, fun _ _ => rfl,
      fun a hlow hhigh => absurd hlow (by omega)⟩
  | @cons c k i bytes hc ht _ ih =>
    intro s hn hcursor hstatus hphase hinlen hcells
    have hbranch := tokenize_branch ht
    obtain ⟨htoken, hwf, -⟩ := hbranch.facts
    rw [List.length_append] at hinlen hcells
    have hreading : s.dec.Reading (encode i) := ⟨hstatus.trans (if_neg (by omega)), hphase, by omega, fun x hx => by
      rw [hcells x (by omega), List.getElem?_append_left hx]⟩
    obtain ⟨d, hfirst, hwrote, hrdptr, hstatus', hphase', hinputs⟩ := runs_dec_token htoken hwf hreading
    obtain ⟨hcursor', hbits⟩ := hbranch.wrote hwrote (by rw [hn, hcursor])
    rw [hcursor] at hcursor' hbits
    have ⟨hinlen', _, _, hinMem'⟩ := hinputs
    obtain ⟨d', hrest, hdone, hrdptr', hinputs', hbelow, habove⟩ := ih (s.withDec d) (hinputs.n.trans hn) hcursor'
      (by rw [State.withDec_dec, hstatus', hcursor', hn]) hphase'
      (by rw [State.withDec_dec, hrdptr, hinlen']; omega)
      (fun x hx => by
        rw [State.withDec_dec, hinMem', hrdptr, Nat.add_assoc, hcells _ (by omega), List.getElem?_append_right (by omega),
          Nat.add_sub_cancel_left])
    rw [State.withDec_dec] at hrdptr' hinputs' hbelow
    refine ⟨d', List.length_append ▸ hfirst.trans hrest, hdone, by rw [hrdptr', hrdptr, List.length_append, Nat.add_assoc],
      hinputs.trans hinputs', fun a ha => ?_, fun a hlow hhigh => ?_⟩
    · rw [hbelow a (by omega), hwrote.read_outside (.inl (by omega))]
    · by_cases hk : a < c + k
      · rw [hbelow a hk]
        have hbit := hbits (a - c) (by omega)
        rwa [Nat.add_sub_cancel' hlow] at hbit
      · exact habove a (by omega) hhigh

/-- ENC START ends BUSY with bits to encode, or DONE with none (R90). -/
theorem EncState.start_status (e : EncState) : e.start.status = statusAfter .busy 0 e.n := if_congr eq_comm rfl rfl

/-- ENC START and as many moves as bits: the output is the header and the tokens of the bitmap. -/
theorem runSteps_encode {s : State} (hb : s.enc.status ≠ .busy) (hf : Memory.Filled s.enc.inMem 0 s.enc.n) :
    ∃ e bytes, runSteps (s.enc.n + 1)
        (s.withScript (.host (.writeReg 0#4 1#32) :: List.replicate s.enc.n (.engine .enc))) =
          .next ((s.withEnc e).withScript []) ∧
      e.status = .done ∧ TokenStream s.enc.inMem s.enc.n 0 bytes ∧ e.outlen.toNat = 5 + bytes.length ∧
      Memory.Stored s.enc.outMem e.outMem 0 (headerTag ++ [s.enc.width, s.enc.height] ++ bytes) := by
  obtain ⟨-, hcursor, houtlen, -, -, -, -, hinMem, -⟩ := s.enc.start_facts
  have hn : s.enc.start.n = s.enc.n := rfl
  have hzero : s.enc.start.cursor.toNat = 0 := by rw [hcursor]; rfl
  have hfive : s.enc.start.outlen.toNat = 5 := by rw [houtlen]; rfl
  obtain ⟨e, bytes, hruns, hdone, -, hstream, hout⟩ := runs_enc_ends s.enc.n (s.withEnc s.enc.start)
    (by rw [State.withEnc_enc, hzero, hn, EncState.start_status]) (by rw [State.withEnc_enc, hzero]; omega)
    (by rw [State.withEnc_enc, hn]; omega) (by rw [State.withEnc_enc, hzero, hn, hinMem]; exact hf)
  rw [State.withEnc_enc, hzero, hfive] at hout
  rw [State.withEnc_enc, hzero, hn, hinMem] at hstream
  obtain ⟨hlen, hstored⟩ := hout fun _ => by omega
  refine ⟨e, bytes, ?_, hdone, hstream, hlen, s.enc.start_stored.trans hstored⟩
  have hstart : ∀ ms, step (s.withScript (.host (.writeReg 0#4 1#32) :: ms)) =
      .next ((s.withEnc s.enc.start).withScript ms) := fun ms =>
    step_encStart (s := s.withScript (.host (.writeReg 0#4 1#32) :: ms)) rfl (by decide) hb
  exact (runSteps_next (hstart _)).trans hruns.eq_next

/-- DEC START and as many moves as the stream has bytes, where DEC_IN holds a header and the tokens of a bitmap of its
dimensions: DONE, with the bitmap in DEC_OUT and the whole stream read. -/
theorem runSteps_decode {u : State} (hb : u.dec.status ≠ .busy) {m : Memory Bit} {w h : Byte} {bytes : List Byte}
    (hstream : TokenStream m (w.toNat * h.toNat) 0 bytes) (hinlen : u.dec.inlen.toNat = 5 + bytes.length)
    (hcells : ∀ a, a < 5 + bytes.length → Memory.read u.dec.inMem a = (headerTag ++ [w, h] ++ bytes)[a]?) :
    ∃ d, runSteps (5 + bytes.length + 1)
        (u.withScript (.host (.writeReg 9#4 1#32) :: List.replicate (5 + bytes.length) (.engine .dec))) =
          .next ((u.withDec d).withScript []) ∧
      d.status = .done ∧ d.width = w ∧ d.height = h ∧ d.rdptr = u.dec.inlen ∧
      ∀ a, a < w.toNat * h.toNat → Memory.read d.outMem a = Memory.read m a := by
  have hheader : Memory.readList u.dec.inMem 0 5 = .ok (headerTag ++ [w, h]) :=
    Memory.readList_of_reads (xs := headerTag ++ [w, h]) fun t ht => by
      have hlt : t < 5 := ht
      rw [Nat.zero_add, hcells t (by omega), List.getElem?_append_left ht]
  have hstart : ∀ ms, step (u.withScript (.host (.writeReg 9#4 1#32) :: ms)) =
      .next ((u.withDec (u.dec.accept w h)).withScript ms) := fun ms =>
    step_decStart_header (s := u.withScript (.host (.writeReg 9#4 1#32) :: ms)) rfl (by decide) hb
      (by rw [State.withScript_dec]; omega) hheader
  obtain ⟨d, hruns, hdone, hrdptr, ⟨-, hwidth, hheight, -⟩, -, hbits⟩ := runs_dec_stream hstream
    (u.withDec (u.dec.accept w h)) rfl rfl (u.dec.accept_status w h) rfl (Nat.le_of_eq hinlen.symm) fun x hx => by
      show Memory.read u.dec.inMem (5 + x) = _
      rw [hcells (5 + x) (by omega), List.getElem?_append_right (Nat.le_add_right 5 x)]
      exact congrArg (bytes[·]?) (Nat.add_sub_cancel_left 5 x)
  have hall : (u.withDec (u.dec.accept w h)).Runs .dec (5 + bytes.length) (u.withDec d) :=
    Nat.add_comm 5 bytes.length ▸ State.Runs.trans hruns (.idle .dec 5 (by simp [hdone]))
  refine ⟨d, (runSteps_next (hstart _)).trans hall.eq_next, hdone, hwidth, hheight, BitVec.eq_of_toNat_eq ?_,
    fun a ha => hbits a (Nat.zero_le a) ha⟩
  rw [hrdptr, hinlen]
  rfl

/-- Settles O34: what the encode leaves is what the decode needs. -/
theorem roundTripThroughBothEngines : Obligations.RoundTripThroughBothEngines := by
  intro s hb hf
  obtain ⟨e, bytes, hencode, hdone, hstream, hlen, hstored⟩ := runSteps_encode hb hf
  refine ⟨_, hencode, hdone, fun u hbu hinlen hcells => ?_⟩
  simp only [State.withScript_enc, State.withEnc_enc, hlen] at hinlen hcells ⊢
  obtain ⟨d, hdecode, hdone', hwidth, hheight, hrdptr, hbits⟩ := runSteps_decode hbu hstream (by rw [hinlen, hlen])
    fun a ha => by
      rw [hcells a ha, hstored a, if_pos ⟨Nat.zero_le a, by rw [Nat.zero_add, List.length_append]; exact ha⟩]
      rfl
  exact ⟨_, hdecode, hdone', hwidth, hheight, hrdptr.trans hinlen, hbits⟩

end Sys2Proof.Machine
end

section
/-! PROOFS. Where the machine stops (R49, R56, R57, R114): an engine's own step and DEC START on an unwritten cell of the input, a
host write on a BUSY engine's memory, and nowhere else. -/

namespace Sys2Proof.Machine

/-! ## Whose step it is -/

/-- With no move listed a step is an engine's own, on engines that are as they were (log 3). -/
theorem freeMove_eq (s : State) : ∃ e u, u.enc = s.enc ∧ u.dec = s.dec ∧ freeMove s = engineStep e u := by
  unfold freeMove
  split_ifs
  · exact ⟨.dec, s.drawn, rfl, rfl, rfl⟩
  · exact ⟨.enc, s.drawn, rfl, rfl, rfl⟩
  · exact ⟨.enc, s, rfl, rfl, rfl⟩
  · exact ⟨.dec, s, rfl, rfl, rfl⟩

/-- A step is an engine's own, a host access, or reset. -/
theorem step_mover (s : State) :
    (∃ e u, (s.script = [] ∨ s.script.head? = some (.engine e)) ∧ u.enc = s.enc ∧ u.dec = s.dec ∧ step s = engineStep e u) ∨
    (∃ op ms, s.script = .host op :: ms ∧ step s = hostStep op (s.withScript ms)) ∨
    ∃ t, step s = .next t := by
  cases hs : s.script with
  | nil =>
    obtain ⟨e, u, henc, hdec, hstep⟩ := freeMove_eq s
    exact .inl ⟨e, u, .inl rfl, henc, hdec, (step_nil hs).trans hstep⟩
  | cons m ms =>
    cases m with
    | engine e => exact .inl ⟨e, s.withScript ms, .inr rfl, rfl, rfl, step_cons hs⟩
    | host op => exact .inr (.inl ⟨op, ms, rfl, step_cons hs⟩)
    | reset => exact .inr (.inr ⟨_, step_reset hs⟩)

/-! ## Faults (R56) -/

theorem engineStep_enc_fault {s : State} {f : Fault} (hinv : s.enc.Inv) (h : engineStep .enc s = .fault f) :
    s.enc.status = .busy ∧ ∃ a, f = .encInUnwritten a ∧ s.enc.cursor.toNat ≤ a ∧ a < s.enc.n ∧
      Memory.read s.enc.inMem a = none := by
  simp only [engineStep] at h
  split_ifs at h with hb
  refine ⟨hb, ?_⟩
  rcases encStep_cases s with ⟨f', ht, hstep⟩ | ⟨i, k, -, -, hstep⟩
  · obtain rfl : f' = f := by simpa [hstep] using h
    exact tokenize_error (hinv.busyCursor hb) ht
  · simp [hstep] at h

theorem engineStep_dec_fault {s : State} {f : Fault} (hinv : s.dec.Inv) (h : engineStep .dec s = .fault f) :
    s.dec.status = .busy ∧ f = .decInUnwritten s.dec.rdptr.toNat ∧ s.dec.rdptr.toNat < s.dec.inlen.toNat ∧
      Memory.read s.dec.inMem s.dec.rdptr.toNat = none := by
  simp only [engineStep] at h
  split_ifs at h with hb
  obtain ⟨-, hle⟩ := hinv.busyRdptr hb
  rcases decStep_cases s with ⟨-, hstep⟩ | ⟨hr, hnone, hstep⟩ | ⟨x, -, -, -, -, hstep⟩ | ⟨x, i, d, -, -, hstep, -⟩
  · simp [hstep] at h
  · exact ⟨hb, by simpa [hstep, eq_comm] using h,
      Nat.lt_of_le_of_ne hle fun he => hr (BitVec.eq_of_toNat_eq he), hnone⟩
  · simp [hstep] at h
  · simp [hstep] at h

theorem decStart_fault {s : State} {f : Fault} (h : decStart s = .fault f) :
    ∃ a, f = .decInUnwritten a ∧ a < 5 ∧ 5 ≤ s.dec.inlen.toNat ∧ Memory.read s.dec.inMem a = none := by
  rcases decStart_cases s with ⟨c, -, hstart⟩ | ⟨a, ha, hl, hnone, hstart⟩ | ⟨w, ht, -, -, hstart⟩
  · simp [hstart] at h
  · exact ⟨a, by simpa [hstart, eq_comm] using h, ha, hl, hnone⟩
  · simp [hstart] at h

/-- Of the register writes only DEC START can fault, and none is refused. -/
theorem regWrite_stops (k : BitVec 4) (v : RegWord) (s : State) :
    (∃ t, regWrite k v s = .next t) ∨
    (k = 9#4 ∧ v.getLsbD 0 = true ∧ s.dec.status ≠ .busy ∧ ∃ f, regWrite k v s = .fault f ∧ decStart s = .fault f) := by
  unfold regWrite
  split
  case h_1 => unfold writeEncCtrl; split_ifs <;> exact .inl ⟨_, rfl⟩
  case h_2 => unfold writeEncDim; split_ifs <;> exact .inl ⟨_, rfl⟩
  case h_3 hk =>
    unfold writeDecCtrl
    split_ifs with hstarts
    · obtain ⟨hv, hb⟩ := hstarts
      rcases decStart_cases s with ⟨c, -, hstart⟩ | ⟨a, -, -, -, hstart⟩ | ⟨w, h, -, -, hstart⟩
      · exact .inl ⟨_, hstart⟩
      · exact .inr ⟨BitVec.eq_of_toNat_eq hk, hv, hb, _, hstart, hstart⟩
      · exact .inl ⟨_, hstart⟩
    · exact .inl ⟨_, rfl⟩
  case h_4 => unfold writeDecInlen; split_ifs <;> exact .inl ⟨_, rfl⟩
  case h_5 => exact .inl ⟨_, rfl⟩

/-- A write of bits is refused for the memory it names, and does not fault. -/
theorem hostWriteBits_stops (m : BitSpace) (a : Nat) (bs : List Bit) (s : State) :
    (∃ t, hostWriteBits m a bs s = .next t) ∨
    (s.bitOwner m = .busy ∧ hostWriteBits m a bs s = .refused (.bitWriteWhileBusy m)) := by
  have hcases := hostWriteBits_cases m a bs s
  split_ifs at hcases with hb
  · exact .inr ⟨hb, hcases⟩
  · obtain ⟨mem, -, hnext⟩ := hcases
    exact .inl ⟨_, hnext⟩

/-- Everything a host access can stop on. -/
inductive HostStop (s : State) : HostOp → Result → Prop where
  | decStart (v : RegWord) (f : Fault) (hv : v.getLsbD 0 = true) (hb : s.dec.status ≠ .busy)
      (h : Machine.decStart s = .fault f) : HostStop s (.writeReg 9#4 v) (.fault f)
  | writeBit (m : BitSpace) (a : Half) (b : Bit) (hb : s.bitOwner m = .busy) :
      HostStop s (.writeBit m a b) (.refused (.bitWriteWhileBusy m))
  | writeView (m : BitSpace) (k : BitVec 13) (v : Byte) (hb : s.bitOwner m = .busy) :
      HostStop s (.writeView m k v) (.refused (.bitWriteWhileBusy m))
  | writeByte (m : ByteSpace) (a : Half) (v : Byte) (hb : s.byteOwner m = .busy) :
      HostStop s (.writeByte m a v) (.refused (.byteWriteWhileBusy m))

theorem hostStep_stops (op : HostOp) (s : State) : (∃ t, hostStep op s = .next t) ∨ HostStop s op (hostStep op s) := by
  cases op with
  | readReg k => exact .inl ⟨_, rfl⟩
  | readBit m a =>
    obtain ⟨t, -, hnext, -⟩ := hostReadBit_cases m a s
    exact .inl ⟨t, hnext⟩
  | readView m k =>
    obtain ⟨t, -, hnext, -⟩ := hostReadView_cases m k s
    exact .inl ⟨t, hnext⟩
  | readByte m a =>
    obtain ⟨t, -, hnext, -⟩ := hostReadByte_cases m a s
    exact .inl ⟨t, hnext⟩
  | writeReg k v =>
    refine (regWrite_stops k v s).imp_right fun ⟨hk, hv, hb, f, hfault, hstart⟩ => ?_
    subst hk
    exact (show hostStep (.writeReg 9#4 v) s = _ from hfault) ▸ .decStart v f hv hb hstart
  | writeBit m a b =>
    refine (hostWriteBits_stops m a.toNat [b] s).imp_right fun ⟨hb, hrefused⟩ => ?_
    exact (show hostStep (.writeBit m a b) s = _ from hrefused) ▸ .writeBit m a b hb
  | writeView m k v =>
    refine (hostWriteBits_stops m (viewBase k) (unpack v) s).imp_right fun ⟨hb, hrefused⟩ => ?_
    exact (show hostStep (.writeView m k v) s = _ from hrefused) ▸ .writeView m k v hb
  | writeByte m a v =>
    have hcases := hostWriteByte_cases m a v s
    split_ifs at hcases with hb
    · exact .inr ((show hostStep (.writeByte m a v) s = _ from hcases) ▸ .writeByte m a v hb)
    · obtain ⟨mem, -, hnext⟩ := hcases
      exact .inl ⟨_, hnext⟩

theorem engineStep_not_refused (e : Engine) (s : State) (r : Refusal) : engineStep e s ≠ .refused r := by
  cases e with
  | enc =>
    obtain ⟨g, hg⟩ := engineStep_enc_encOnly
    rw [hg]
    cases g s.enc <;> simp [State.answerEnc]
  | dec =>
    obtain ⟨g, hg⟩ := engineStep_dec_decOnly
    rw [hg]
    cases g s.dec <;> simp [State.answerDec]

/-- Settles O51: by whose step it is. -/
theorem stopsOnlyWhereTheSpecSays : Obligations.StopsOnlyWhereTheSpecSays := by
  intro s hinv
  rcases step_mover s with ⟨e, u, hmove, henc, hdec, hstep⟩ | ⟨op, ms, hs, hstep⟩ | ⟨t, hstep⟩ <;> rw [hstep]
  · refine ⟨fun f hf => ?_, fun r hr => absurd hr (engineStep_not_refused e u r)⟩
    cases e with
    | enc =>
      obtain ⟨hb, a, rfl, hlow, hhigh, hnone⟩ := engineStep_enc_fault (henc ▸ hinv.enc) hf
      rw [henc] at hb hlow hhigh hnone
      exact .inl ⟨a, rfl, hmove, hb, hlow, hhigh, hnone⟩
    | dec =>
      obtain ⟨hb, rfl, hlt, hnone⟩ := engineStep_dec_fault (hdec ▸ hinv.dec) hf
      rw [hdec] at hb hlt hnone ⊢
      exact .inr ⟨_, rfl, hlt, hnone, .inl ⟨hmove, hb, rfl⟩⟩
  · rcases hostStep_stops op (s.withScript ms) with ⟨t, hnext⟩ | hstop
    · simp [hnext]
    · rw [hs, List.head?_cons]
      generalize hostStep op (s.withScript ms) = result at hstop
      cases hstop with
      | decStart v f hv hb hstart =>
        refine ⟨fun f' hf => ?_, nofun⟩
        obtain rfl : f = f' := by simpa using hf
        obtain ⟨a, rfl, ha, hl, hnone⟩ := decStart_fault hstart
        exact .inr ⟨a, rfl, Nat.lt_of_lt_of_le ha hl, hnone, .inr ⟨⟨v, rfl, hv⟩, hb, ha⟩⟩
      | writeBit m a b hb =>
        refine ⟨nofun, fun r hr => ?_⟩
        obtain rfl : Refusal.bitWriteWhileBusy m = r := by simpa using hr
        exact .inl ⟨m, rfl, State.bitOwner_withScript s ms m ▸ hb, .inl ⟨a, b, rfl⟩⟩
      | writeView m k v hb =>
        refine ⟨nofun, fun r hr => ?_⟩
        obtain rfl : Refusal.bitWriteWhileBusy m = r := by simpa using hr
        exact .inl ⟨m, rfl, State.bitOwner_withScript s ms m ▸ hb, .inr ⟨k, v, rfl⟩⟩
      | writeByte m a v hb =>
        refine ⟨nofun, fun r hr => ?_⟩
        obtain rfl : Refusal.byteWriteWhileBusy m = r := by simpa using hr
        exact .inr ⟨m, rfl, State.byteOwner_withScript s ms m ▸ hb, a, v, rfl⟩
  · exact ⟨nofun, nofun⟩

end Sys2Proof.Machine
end
